-- ==== Sys2Proof/Word.lean ====
section
/-! DEFINITION. The word types of the TPE core: command words, sample beats, binary64 and binary32
bit patterns, response words (30_encoding.md rules R80, R82, R93, R95). -/

namespace Sys2Proof

/-- A 64-bit command word `cw[63:0]` (rule R82). -/
abbrev Word := BitVec 64

/-- A 64-bit beat of the SAMP port (rule R93). -/
abbrev Beat := BitVec 64

/-- An IEEE 754 binary64 bit pattern: sign 63, exponent 62:52, fraction 51:0 (rule R93). -/
abbrev F64 := BitVec 64

/-- An IEEE 754 binary32 bit pattern: sign 31, exponent 30:23, fraction 22:0 (rule R93). -/
abbrev F32 := BitVec 32

/-- A 72-bit response word `rw[71:0]`: status 71:64, data 63:0 (rule R95). -/
abbrev Resp := BitVec 72

/-- One byte of a byte-serial transport (rule R55). -/
abbrev Byte := BitVec 8

end Sys2Proof
end

