-- ==== Sys2Proof/Syntax.lean ====
section
/-! DEFINITION. The six commands of TPE-CMD version 1 (00_scope.md rule R3), with the operands as the
mathematical integers they denote (30_encoding.md rule R88). -/

namespace Sys2Proof

/-- A command of TPE-CMD version 1 (rules R3 and R87), one constructor per row of the opcode table. -/
inductive Instr where
  /-- `CREATE channels, rate` (rules R83, R110). -/
  | create (channels : Int) (rate : Nat)
  /-- `PUSH.F64 frameCount, avail` (rules R84, R128). -/
  | pushF64 (frameCount avail : Nat)
  /-- `PUSH.F32 frameCount, avail` (rules R84, R129). -/
  | pushF32 (frameCount avail : Nat)
  /-- `PUSH.I32 frameCount, avail` (rules R84, R130). -/
  | pushI32 (frameCount avail : Nat)
  /-- `READMAX channel` (rules R85, R150). -/
  | readmax (channel : Int)
  /-- `DESTROY` (rules R86, R155). -/
  | destroy
deriving DecidableEq, Repr

end Sys2Proof
end

