-- ==== Sys2Proof/WellFormed.lean ====
section
/-! DEFINITION. The commands a command word can carry: every operand inside its field (30_encoding.md
rules R83 to R86, operand ranges of rule R98). -/

namespace Sys2Proof

/-- A signed 16-bit operand: −32768 to 32767 (rules R83, R85). -/
def fitsSigned16 (v : Int) : Bool := decide (-32768 ≤ v ∧ v ≤ 32767)

/-- An unsigned 24-bit operand: 0 to 16777215 (rule R84). -/
def fitsUnsigned24 (v : Nat) : Bool := decide (v < 2 ^ 24)

/-- An unsigned 32-bit operand: 0 to 4294967295 (rules R83, R84). -/
def fitsUnsigned32 (v : Nat) : Bool := decide (v < 2 ^ 32)

/-- Every operand of the command fits its field (rules R83 to R86, R98). -/
def Instr.wellFormed : Instr → Bool
  | .create channels rate => fitsSigned16 channels && fitsUnsigned32 rate
  | .pushF64 frameCount avail => fitsUnsigned24 frameCount && fitsUnsigned32 avail
  | .pushF32 frameCount avail => fitsUnsigned24 frameCount && fitsUnsigned32 avail
  | .pushI32 frameCount avail => fitsUnsigned24 frameCount && fitsUnsigned32 avail
  | .readmax channel => fitsSigned16 channel
  | .destroy => true

end Sys2Proof
end

