-- ==== Sys2Proof/Decode.lean ====
section
/-! DEFINITION. Decoding and encoding of command words (30_encoding.md rules R82 to R91), the opcode
table of rule R87, and the byte order of a byte-serial transport (20_memory.md rule R55). -/

namespace Sys2Proof

/-- Why a word is ILLEGAL (rules R89 and R183): the two causes, by name. -/
inductive Illegal where
  /-- `cw[63:56]` is none of the six opcodes. -/
  | unknownOpcode (opcode : BitVec 8)
  /-- The opcode is one of the six and a must-be-zero bit of its format is 1. -/
  | nonzeroMbz (opcode : BitVec 8)
deriving DecidableEq, Repr

/-- `cw[63:56]`, the opcode (rule R82). -/
def opcodeField (cw : Word) : BitVec 8 := cw.extractLsb' 56 8

/-- `cw[55:40]`, the signed field of formats C and R (rules R83, R85). -/
def signedField (cw : Word) : BitVec 16 := cw.extractLsb' 40 16

/-- `cw[55:32]`, `frameCount` of format P (rule R84). -/
def frameCountField (cw : Word) : BitVec 24 := cw.extractLsb' 32 24

/-- `cw[31:0]`, `rate` of format C and `avail` of format P (rules R83, R84). -/
def lowField (cw : Word) : BitVec 32 := cw.extractLsb' 0 32

/-- `cw[39:32]`, the must-be-zero bits of format C (rule R83). -/
def mbzC (cw : Word) : BitVec 8 := cw.extractLsb' 32 8

/-- `cw[39:0]`, the must-be-zero bits of format R (rule R85). -/
def mbzR (cw : Word) : BitVec 40 := cw.extractLsb' 0 40

/-- `cw[55:0]`, the must-be-zero bits of format Z (rule R86). -/
def mbzZ (cw : Word) : BitVec 56 := cw.extractLsb' 0 56

/-- The decoder (rules R82 to R91): total on every 64-bit word, and independent of any state. -/
def decode (cw : Word) : Except Illegal Instr :=
  let op := opcodeField cw
  if op = 0x01#8 then
    if mbzC cw = 0 then .ok (.create (signedField cw).toInt (lowField cw).toNat)
    else .error (.nonzeroMbz op)
  else if op = 0x10#8 then .ok (.pushF64 (frameCountField cw).toNat (lowField cw).toNat)
  else if op = 0x11#8 then .ok (.pushF32 (frameCountField cw).toNat (lowField cw).toNat)
  else if op = 0x12#8 then .ok (.pushI32 (frameCountField cw).toNat (lowField cw).toNat)
  else if op = 0x20#8 then
    if mbzR cw = 0 then .ok (.readmax (signedField cw).toInt) else .error (.nonzeroMbz op)
  else if op = 0x30#8 then
    if mbzZ cw = 0 then .ok .destroy else .error (.nonzeroMbz op)
  else .error (.unknownOpcode op)

/-- The opcode of a command (rule R87). -/
def Instr.opcode : Instr → BitVec 8
  | .create _ _ => 0x01#8
  | .pushF64 _ _ => 0x10#8
  | .pushF32 _ _ => 0x11#8
  | .pushI32 _ _ => 0x12#8
  | .readmax _ => 0x20#8
  | .destroy => 0x30#8

/-- Format P: opcode, `frameCount` in 55:32, `avail` in 31:0 (rule R84). -/
def encodeP (op : BitVec 8) (frameCount avail : Nat) : Word :=
  op ++ (BitVec.ofNat 24 frameCount ++ BitVec.ofNat 32 avail)

/-- The word of a well-formed command (rules R83 to R86): every must-be-zero bit is 0. -/
def encode : Instr → Word
  | .create channels rate =>
    0x01#8 ++ (BitVec.ofInt 16 channels ++ (0#8 ++ BitVec.ofNat 32 rate))
  | .pushF64 frameCount avail => encodeP 0x10#8 frameCount avail
  | .pushF32 frameCount avail => encodeP 0x11#8 frameCount avail
  | .pushI32 frameCount avail => encodeP 0x12#8 frameCount avail
  | .readmax channel => 0x20#8 ++ (BitVec.ofInt 16 channel ++ 0#40)
  | .destroy => 0x30#8 ++ 0#56

/-- The `match` column of rule R87's table. -/
def Instr.rowMatch : Instr → Word
  | .create _ _ => 0x0100000000000000#64
  | .pushF64 _ _ => 0x1000000000000000#64
  | .pushF32 _ _ => 0x1100000000000000#64
  | .pushI32 _ _ => 0x1200000000000000#64
  | .readmax _ => 0x2000000000000000#64
  | .destroy => 0x3000000000000000#64

/-- The `mask` column of rule R87's table. -/
def Instr.rowMask : Instr → Word
  | .create _ _ => 0xFF0000FF00000000#64
  | .pushF64 _ _ => 0xFF00000000000000#64
  | .pushF32 _ _ => 0xFF00000000000000#64
  | .pushI32 _ _ => 0xFF00000000000000#64
  | .readmax _ => 0xFF0000FFFFFFFFFF#64
  | .destroy => 0xFFFFFFFFFFFFFFFF#64

/-- Rule R87's table as (match, mask) pairs, in its order. -/
def opcodeTable : List (Word × Word) :=
  [(0x0100000000000000#64, 0xFF0000FF00000000#64), (0x1000000000000000#64, 0xFF00000000000000#64),
   (0x1100000000000000#64, 0xFF00000000000000#64), (0x1200000000000000#64, 0xFF00000000000000#64),
   (0x2000000000000000#64, 0xFF0000FFFFFFFFFF#64), (0x3000000000000000#64, 0xFFFFFFFFFFFFFFFF#64)]

/-- `nbits` bits `w` numbered as the opcode table numbers them, as a command word: the bits above
`nbits` are 0, and a command word has 64 (rule R82: one instruction length). -/
def tableWord (nbits w : Nat) : Option Word :=
  if w % 2 ^ nbits < 2 ^ 64 then some (BitVec.ofNat 64 (w % 2 ^ nbits)) else none

/-- What the decoder reads from the bits `w` of a row of the opcode table. -/
def decodeTableWord (nbits w : Nat) : Option Instr :=
  match tableWord nbits w with
  | none => none
  | some cw => match decode cw with
    | .ok i => some i
    | .error _ => none

/-- The `n` bytes of a word, bits [7:0] first: the little-endian order of a byte-serial transport or a
byte dump (rule R55). -/
def bytesOf {w : Nat} (n : Nat) (x : BitVec w) : List Byte :=
  (List.range n).map fun k => x.extractLsb' (8 * k) 8

/-- The word whose bytes, bits [7:0] first, are the first eight of the list, and the bytes after them;
none while a byte is missing (rule R55). -/
def wordOfBytes : List Byte → Option (Word × List Byte)
  | b0 :: b1 :: b2 :: b3 :: b4 :: b5 :: b6 :: b7 :: rest =>
    some (b7 ++ (b6 ++ (b5 ++ (b4 ++ (b3 ++ (b2 ++ (b1 ++ b0)))))), rest)
  | _ => none

end Sys2Proof
end

