-- ==== Sys2Proof/Config.lean ====
section
/-! DEFINITION. What an implementation fixes and the spec leaves open (00_scope.md rule R9), and the
free values. None of them has a body: a statement that holds, holds for every value of them. -/

namespace Sys2Proof

/-- `NCH_MAX` less one. Rule R9 leaves the capacity open between 1 and 32767 (decision D11, log
entry 1). -/
opaque Config.nchMaxPred : Fin 32767

/-- `NCH_MAX`, the channels the block is built for: 1 to 32767 (rule R9). -/
def Config.nchMax : Nat := Config.nchMaxPred.val + 1

/-- The 24 values of phases 0 and 1, taps 0 to 11, that determine `COEF_44100` (rule R10), as raw
bit patterns. Machine/Coef.lean makes a table of them that obeys rule R10 (log entry 2). -/
opaque Config.rawCoef44100 : Nat → Nat → F64

/-- The same for `COEF_48000` (rules R9, R10; log entry 2). -/
opaque Config.rawCoef48000 : Nat → Nat → F64

/-- FREE VALUE. The payload of the NaN that a multiplication of `a` and `b` returns: rule R14 says that
it is a function of the operands, rule R133 that it is never observable (log entry 3). -/
opaque Config.nanMul : F64 → F64 → F64

/-- FREE VALUE. The payload of the NaN that an addition returns (rules R14, R133; log entry 3). -/
opaque Config.nanAdd : F64 → F64 → F64

/-- FREE VALUE. The payload of the NaN that a division returns (rules R14, R133; log entry 3). -/
opaque Config.nanDiv : F64 → F64 → F64

/-- FREE VALUE. The payload of the NaN that widening a binary32 NaN returns: rule R14 says "NaN to NaN"
and no more (log entry 3). -/
opaque Config.nanWiden : F32 → F64

end Sys2Proof
end

