-- ==== Sys2Proof/Machine/State.lean ====
section
/-! DEFINITION. The state of one TPE core (10_state.md rules R20 to R33) as plain data, its reset
value, and the reasons a step could stop for. -/

namespace Sys2Proof.Machine

/-- The lifecycle register `LIFE` (rule R21). -/
inductive Life where
  | uninitialized
  | ready
  | destroyed
deriving DecidableEq, Repr

/-- The sample rate register `RATE` (rule R23). -/
inductive Rate where
  | hz44100
  | hz48000
deriving DecidableEq, Repr

/-- A register file of binary64 cells (rules R25, R26, R50): the cells that do not hold +0.0, as
(index, value) pairs. An index that is not listed reads as +0.0 (log entries 4 and 10). -/
abbrev Memory := List (Nat × F64)

/-- The one canonical form of a register file: indices strictly rising, no entry holding +0.0 (log
entry 10). -/
def Memory.wf : Memory → Bool
  | [] => true
  | (_, v) :: [] => v != 0#64
  | (k, v) :: (k', v') :: rest => v != 0#64 && decide (k < k') && Memory.wf ((k', v') :: rest)

/-- The architectural state: exactly the list of rule R20. -/
structure Regs where
  /-- `LIFE`, 2 bits (rule R21). -/
  life : Life
  /-- `NCH`, the channel count, 16 bits unsigned (rule R22). -/
  nch : BitVec 16
  /-- `RATE`, 1 bit (rule R23). -/
  rate : Rate
  /-- `POS`, the ring cursor, 4 bits unsigned (rule R24). -/
  pos : BitVec 4
  /-- `HIST[c][k]` at index `12 * c + k` (rule R25). -/
  hist : Memory
  /-- `MAX[c]` at index `c` (rule R26). -/
  max : Memory
deriving DecidableEq, Repr

/-- The machine: the architectural state and the contents of the three ports (rules R20, R32). -/
structure State where
  /-- The architectural state (rule R20). -/
  regs : Regs
  /-- CMD: command words whose command has not concluded, first to run first (rules R80, R81; log
  entry 6). -/
  cmd : List Word
  /-- SAMP: sample beats not yet consumed, oldest first (rules R80, R92). -/
  samp : List Beat
  /-- RSP: response words produced and not yet taken by the host, oldest first (rules R80, R218). -/
  rsp : List Resp
  /-- The output sequence: the response words the host has taken, oldest first (rules R80, R220). -/
  out : List Resp
  /-- The level of the reset input `rst` (rule R210). -/
  rst : Bool
  /-- The level of the input `rsp_ready` (rules R80, R218). -/
  rspReady : Bool
deriving DecidableEq, Repr

/-- Why the machine could stop with a fault. NO CONSTRUCTOR: the spec gives the block no condition in
which it stops (60_exceptions.md rule R190: "The block never halts, locks up or resets itself on an
error"); an error of a command is a response, and waiting is no fault (rule R216 (a)). -/
inductive Fault
deriving DecidableEq, Repr

/-- Why an instruction could have no meaning. -/
inductive Refusal where
  /-- Raised by an arm of `exec` whose instruction has no meaning yet; no arm raises it. Safe: the
  model stops where the hardware goes on. -/
  | notModelled (mnemonic : String)
deriving DecidableEq, Repr

/-- The architectural state after reset (rule R33): `LIFE` is Uninitialized; the rest is unspecified
there, and the values here are the model's (DESIGN CHOICE, log entry 4). -/
def Regs.reset : Regs where
  life := .uninitialized
  nch := 0
  rate := .hz44100
  pos := 0
  hist := []
  max := []

/-- The machine right after reset (rules R33, R210): `LIFE` Uninitialized and the three queues empty.
The levels of the two inputs and the output sequence are log entry 7's. -/
def State.reset : State where
  regs := Regs.reset
  cmd := []
  samp := []
  rsp := []
  out := []
  rst := false
  rspReady := true

end Sys2Proof.Machine
end

