-- ==== Sys2Proof/Machine/Flags.lean ====
section
/-! DEFINITION. The block has no flags (10_state.md rule R31); the outcome of a command is the status
code of its response (60_exceptions.md rule R181), and this file holds the codes, the response word
and the bit encodings of the two control registers with names. -/

namespace Sys2Proof.Machine

/-- The outcome of a command (rule R181). -/
inductive Status where
  /-- The command completed and its effects are in the state. -/
  | ok
  /-- An operand has a value the command does not accept (causes: rule R182). -/
  | invalidArgument
  /-- The block lacks the storage the command asks for (causes: rule R186). -/
  | allocationFailure
  /-- The command is not allowed in the current lifecycle state (causes: rule R184). -/
  | invalidState
  /-- The command word decodes to no command (causes: rule R183). -/
  | illegalCommand
deriving DecidableEq, Repr

/-- The status code (rule R181). -/
def Status.code : Status → BitVec 8
  | .ok => 0x00#8
  | .invalidArgument => 0x01#8
  | .allocationFailure => 0x02#8
  | .invalidState => 0x03#8
  | .illegalCommand => 0x04#8

/-- The response word: status in 71:64, data in 63:0 (rule R95). -/
def respWord (st : Status) (data : F64) : Resp := st.code ++ data

/-- The status field of a response word (rule R95). -/
def respStatus (rw : Resp) : BitVec 8 := rw.extractLsb' 64 8

/-- The data field of a response word (rule R95). -/
def respData (rw : Resp) : F64 := rw.extractLsb' 0 64

/-- The encoding of `LIFE`, observable on no port (rule R21). -/
def Life.code : Life → BitVec 2
  | .uninitialized => 0b00#2
  | .ready => 0b01#2
  | .destroyed => 0b10#2

/-- The encoding of `RATE`, observable on no port (rule R23). -/
def Rate.code : Rate → BitVec 1
  | .hz44100 => 0#1
  | .hz48000 => 1#1

end Sys2Proof.Machine
end

