-- ==== Sys2Proof/Machine/Ops.lean ====
section
/-! DEFINITION. The named operations on register files and ports: cell reads and writes (20_memory.md),
ring addressing, concluding a command with a response, raising an error (the block's whole exception
entry, 60_exceptions.md rule R189), hardware reset and taking a response. -/

namespace Sys2Proof.Machine

/-- The cell at index `a`; an index that is not listed reads as +0.0 (log entries 4 and 10). -/
def Memory.read : Memory → Nat → F64
  | [], _ => 0#64
  | (k, v) :: rest, a => if k = a then v else Memory.read rest a

/-- No cell listed at index `a`. -/
def Memory.erase (m : Memory) (a : Nat) : Memory := m.filter fun kv => kv.1 != a

/-- A cell listed at its place among rising indices. -/
def Memory.insert : Memory → Nat → F64 → Memory
  | [], a, v => [(a, v)]
  | (k, x) :: rest, a, v =>
    if a < k then (a, v) :: (k, x) :: rest else (k, x) :: Memory.insert rest a v

/-- Write one 64-bit cell (rule R57 (a)), keeping the canonical form. -/
def Memory.write (m : Memory) (a : Nat) (v : F64) : Memory :=
  if v = 0#64 then Memory.erase m a else Memory.insert (Memory.erase m a) a v

/-- Every cell below index `n` set to +0.0, every other unchanged (CREATE, rule R34). -/
def Memory.clearBelow (m : Memory) (n : Nat) : Memory := m.filter fun kv => decide (n ≤ kv.1)

/-- The index of `HIST[c][k]` among the cells of `HIST`: twelve slots a channel (rule R25). -/
def histIndex (c k : Nat) : Nat := 12 * c + k

/-- `HIST[c][k]` (rule R12). -/
def Regs.histAt (r : Regs) (c k : Nat) : F64 := r.hist.read (histIndex c k)

/-- `HIST[c][k] <- v` (rules R12, R124). -/
def Regs.setHist (r : Regs) (c k : Nat) (v : F64) : Regs :=
  { r with hist := r.hist.write (histIndex c k) v }

/-- `MAX[c]` (rule R12). -/
def Regs.maxAt (r : Regs) (c : Nat) : F64 := r.max.read c

/-- `MAX[c] <- v` (rules R12, R126). -/
def Regs.setMax (r : Regs) (c : Nat) (v : F64) : Regs :=
  { r with max := r.max.write c v }

/-- The slot step 1 writes: `POS` (rule R52 (a)), computed modulo 12 (rule R56; log entry 14). -/
def Regs.writeSlot (r : Regs) : Nat := r.pos.toNat % 12

/-- The slot tap `i` reads: `(POS − i) mod 12`, never negative (rule R52 (b), (c)). -/
def Regs.tapSlot (r : Regs) (i : Nat) : Nat := (r.pos.toNat + 12 - i) % 12

/-- `POS <- (POS + 1) mod 12` (rule R127). -/
def Regs.advance (r : Regs) : Regs :=
  { r with pos := BitVec.ofNat 4 ((r.pos.toNat + 1) % 12) }

/-- The end of a command (rule R81 (3) to (5)): the new architectural state, `beats` beats gone from
SAMP, one response word on RSP, and the command's word gone from CMD. -/
def State.conclude (st : Status) (data : F64) (beats : Nat) (r : Regs) (s : State) : State :=
  { s with
    regs := r
    cmd := s.cmd.drop 1
    samp := s.samp.drop beats
    rsp := s.rsp ++ [respWord st data] }

/-- Raising an error `e` (rules R13, R189), the one exception entry of the block: no architectural
state changes, nothing is saved, the `beats` beats of a PUSH are taken and discarded, and one response
with the error's code and data 0 is produced. There is no handler and no return (rule R190): the
command loop goes on from the state this leaves. -/
def State.raise (e : Status) (beats : Nat) (s : State) : State :=
  s.conclude e 0#64 beats s.regs

/-- The response of a word that decodes to no command (rules R89, R183): no beat is taken. -/
def State.illegal (s : State) : State := s.raise .illegalCommand 0

/-- A clock edge with `rst` = 1 (rules R33, R210): `LIFE` Uninitialized, the three queues emptied, a
command in progress abandoned without a response, every other register unspecified and given the
values of log entry 4. The input levels and what the host has already taken are the host's. -/
def State.hardReset (s : State) : State :=
  { s with regs := Regs.reset, cmd := [], samp := [], rsp := [] }

/-- A transfer on RSP (rules R80, R218): the oldest response goes to the host. -/
def State.transferResponse (s : State) : State :=
  { s with rsp := s.rsp.drop 1, out := s.out ++ s.rsp.take 1 }

end Sys2Proof.Machine
end

