-- ==== Sys2Proof/Machine/Create.lean ====
section
/-! DEFINITION. CREATE (40_create.md rules R110 to R116). -/

namespace Sys2Proof.Machine

/-- The checks of rule R111 in their order, for a block of capacity `cap`. -/
def createStatus (cap : Nat) (channels : Int) (rate : Nat) (r : Regs) : Status :=
  if r.life ≠ .uninitialized then .invalidState
  else if channels ≤ 0 ∨ (rate ≠ 44100 ∧ rate ≠ 48000) then .invalidArgument
  else if (cap : Int) < channels then .allocationFailure
  else .ok

/-- The state a successful CREATE leaves (rules R34, R112): cells of channels not asked for are
unchanged. -/
def Regs.created (channels : Int) (rate : Nat) (r : Regs) : Regs where
  life := .ready
  nch := BitVec.ofInt 16 channels
  rate := if rate = 44100 then .hz44100 else .hz48000
  pos := 0#4
  hist := r.hist.clearBelow (12 * channels.toNat)
  max := r.max.clearBelow channels.toNat

/-- CREATE on a block of capacity `cap` (rules R111, R112). -/
def State.create (cap : Nat) (channels : Int) (rate : Nat) (s : State) : State :=
  match createStatus cap channels rate s.regs with
  | .ok => s.conclude .ok 0#64 0 (s.regs.created channels rate)
  | e => s.raise e 0

/-- CREATE (rule R112). -/
def execCreate (channels : Int) (rate : Nat) (s : State) : Host.Outcome State Fault Refusal :=
  .next (s.create Config.nchMax channels rate)

end Sys2Proof.Machine
end

