-- ==== Sys2Proof/Machine/Destroy.lean ====
section
/-! DEFINITION. DESTROY (43_destroy.md rules R155 to R159). -/

namespace Sys2Proof.Machine

/-- DESTROY (rules R156, R157): only `LIFE` changes, and only from Ready; the storage keeps its cells
(rule R38 leaves that open; log entry 12). -/
def State.destroy (s : State) : State :=
  match s.regs.life with
  | .destroyed => s.raise .invalidState 0
  | .uninitialized => s.conclude .ok 0#64 0 s.regs
  | .ready => s.conclude .ok 0#64 0 { s.regs with life := .destroyed }

/-- DESTROY (rule R156). -/
def execDestroy (s : State) : Host.Outcome State Fault Refusal :=
  .next s.destroy

end Sys2Proof.Machine
end

