-- ==== Sys2Proof/Machine/Float.lean ====
section
/-! DEFINITION. The arithmetic primitives of 00_scope.md rule R14 on IEEE 754 bit patterns.

A finite binary64 value is an integer multiple of 2^-1074, the least subnormal; `F64.value` is that
integer. Every operation computes its exact result as a fraction in that unit and rounds once, to
nearest with ties to even. -/

namespace Sys2Proof.Machine

/-- The sign bit 63. -/
def F64.sign (a : F64) : Bool := a.msb

/-- Bits 62:0, the magnitude pattern: magnitudes are ordered as these numbers are. -/
def F64.mag (a : F64) : Nat := a.toNat % 2 ^ 63

/-- The magnitude pattern of an infinity. -/
def F64.infMag : Nat := 0x7FF0000000000000

/-- A NaN: exponent all ones and a nonzero fraction. -/
def F64.isNaN (a : F64) : Bool := decide (F64.infMag < F64.mag a)

/-- An infinity of either sign. -/
def F64.isInf (a : F64) : Bool := decide (F64.mag a = F64.infMag)

/-- Neither NaN nor infinite. -/
def F64.isFinite (a : F64) : Bool := decide (F64.mag a < F64.infMag)

/-- +0.0 or −0.0. -/
def F64.isZero (a : F64) : Bool := decide (F64.mag a = 0)

/-- The pattern with sign bit `neg` and magnitude pattern `m`. -/
def F64.pack (neg : Bool) (m : Nat) : F64 := BitVec.ofNat 64 ((if neg then 2 ^ 63 else 0) + m)

/-- The magnitude a finite magnitude pattern denotes, in units of 2^-1074: a subnormal pattern is its
own magnitude, and a normal one has the leading 1 of its significand added and is scaled by its
exponent. -/
def F64.units (m : Nat) : Nat :=
  if m < 2 ^ 52 then m else (2 ^ 52 + m % 2 ^ 52) * 2 ^ (m / 2 ^ 52 - 1)

/-- The value of a finite pattern, in units of 2^-1074. -/
def F64.value (a : F64) : Int :=
  if F64.sign a then -(F64.units (F64.mag a) : Int) else (F64.units (F64.mag a) : Int)

/-- The integer nearest to `n / d`, ties to even. -/
def F64.nearestEven (n d : Nat) : Nat :=
  let q := n / d
  let r := n % d
  if d < 2 * r ∨ (2 * r = d ∧ q % 2 = 1) then q + 1 else q

/-- The magnitude pattern nearest to `n / d` units, ties to even (rule R14): with `shift` binary places
dropped, 53 significant bits remain, or fewer below 2^53 units, where nothing is dropped (gradual
underflow, rule R137). A result beyond the largest finite value is an infinity (rule R134). -/
def F64.roundMag (n d : Nat) : Nat :=
  let shift := Nat.log2 (n / d) - 52
  min (shift * 2 ^ 52 + F64.nearestEven n (d * 2 ^ shift)) F64.infMag

/-- The NaN with payload `raw`: the sign of `raw`, an exponent of all ones, and one of the 2^52 - 1
nonzero fractions. Every NaN is the NaN of some payload. -/
def F64.nanOf (raw : F64) : F64 :=
  F64.pack (F64.sign raw) (F64.infMag + 1 + raw.toNat % (2 ^ 52 - 1))

/-- `f64_mul(a, b)` (rule R14). -/
def f64Mul (a b : F64) : F64 :=
  let neg := F64.sign a != F64.sign b
  if F64.isNaN a || F64.isNaN b then F64.nanOf (Config.nanMul a b)
  else if F64.isInf a || F64.isInf b then
    if F64.isZero a || F64.isZero b then F64.nanOf (Config.nanMul a b)
    else F64.pack neg F64.infMag
  else F64.pack neg
    (F64.roundMag (F64.units (F64.mag a) * F64.units (F64.mag b)) (2 ^ 1074))

/-- `f64_add(a, b)` (rule R14). An exact sum of zero is +0.0, but −0.0 where both operands are
negative. -/
def f64Add (a b : F64) : F64 :=
  if F64.isNaN a || F64.isNaN b then F64.nanOf (Config.nanAdd a b)
  else if F64.isInf a then
    if F64.isInf b && F64.sign a != F64.sign b then F64.nanOf (Config.nanAdd a b) else a
  else if F64.isInf b then b
  else
    let v := F64.value a + F64.value b
    if v = 0 then F64.pack (F64.sign a && F64.sign b) 0
    else F64.pack (decide (v < 0)) (F64.roundMag v.natAbs 1)

/-- `f64_div(a, b)` (rule R14). -/
def f64Div (a b : F64) : F64 :=
  let neg := F64.sign a != F64.sign b
  if F64.isNaN a || F64.isNaN b then F64.nanOf (Config.nanDiv a b)
  else if F64.isInf a then
    if F64.isInf b then F64.nanOf (Config.nanDiv a b) else F64.pack neg F64.infMag
  else if F64.isInf b then F64.pack neg 0
  else if F64.isZero b then
    if F64.isZero a then F64.nanOf (Config.nanDiv a b) else F64.pack neg F64.infMag
  else F64.pack neg
    (F64.roundMag (F64.units (F64.mag a) * 2 ^ 1074) (F64.units (F64.mag b)))

/-- `f64_abs(a)`: bit 63 cleared (rule R14). -/
def f64Abs (a : F64) : F64 := a &&& 0x7FFFFFFFFFFFFFFF#64

/-- The place of a non-NaN pattern in the order of values: +0.0 and −0.0 have the same place. -/
def F64.key (a : F64) : Int :=
  if F64.sign a then -(F64.mag a : Int) else (F64.mag a : Int)

/-- `f64_gt(a, b)`: quiet comparison, false on a NaN (rule R14). -/
def f64Gt (a b : F64) : Bool :=
  !F64.isNaN a && !F64.isNaN b && decide (F64.key b < F64.key a)

/-- Bits 30:0 of a binary32 pattern, its magnitude pattern. -/
def F32.mag (s : F32) : Nat := s.toNat % 2 ^ 31

/-- The magnitude pattern of a binary32 infinity. -/
def F32.infMag : Nat := 0x7F800000

/-- The magnitude a finite binary32 magnitude pattern denotes, in units of 2^-149. -/
def F32.units (m : Nat) : Nat :=
  if m < 2 ^ 23 then m else (2 ^ 23 + m % 2 ^ 23) * 2 ^ (m / 2 ^ 23 - 1)

/-- The binary32 magnitude pattern nearest to `n / d` units, ties to even: how a decimal becomes a binary32
element (log entry 18). -/
def F32.roundMag (n d : Nat) : Nat :=
  let shift := Nat.log2 (n / d) - 23
  min (shift * 2 ^ 23 + F64.nearestEven n (d * 2 ^ shift)) F32.infMag

/-- `f32_to_f64(s)`: exact widening; infinities to infinities, NaN to NaN (rule R14). A unit of binary32
is 2^925 units of binary64. -/
def f32ToF64 (s : F32) : F64 :=
  if F32.infMag < F32.mag s then F64.nanOf (Config.nanWiden s)
  else if F32.mag s = F32.infMag then F64.pack s.msb F64.infMag
  else F64.pack s.msb (F64.roundMag (F32.units (F32.mag s) * 2 ^ 925) 1)

/-- `i32_to_f64(n)`: exact conversion of a 32-bit two's-complement integer (rule R14). -/
def i32ToF64 (n : BitVec 32) : F64 :=
  F64.pack n.msb (F64.roundMag (n.toInt.natAbs * 2 ^ 1074) 1)

end Sys2Proof.Machine
end

