-- ==== Sys2Proof/Machine/Operands.lean ====
section
/-! DEFINITION. The operand forms: the three representations of a sample element (30_encoding.md rule
R93, 41_push.md rule R122), the elements of a PUSH (20_memory.md rule R51), and how many beats a
command takes (30_encoding.md rule R92). -/

namespace Sys2Proof.Machine

/-- `I32DIV`, 2147483647, the divisor that normalises integer samples (rule R8). -/
def i32Div : Nat := 2147483647

/-- 2147483647.0 as binary64 (rule R122). -/
def i32DivF64 : F64 := 0x41DFFFFFFFC00000#64

/-- Bits [31:0] of a beat; the others are ignored (rule R93). -/
def beatLow (b : Beat) : BitVec 32 := b.extractLsb' 0 32

/-- `norm_F64(b)`: the beat is the value, bit for bit (rule R122). -/
def normF64 (b : Beat) : F64 := b

/-- `norm_F32(b)`: exact widening of bits [31:0] (rule R122). -/
def normF32 (b : Beat) : F64 := f32ToF64 (beatLow b)

/-- `norm_I32(b)`: one division by 2147483647.0 of the integer in bits [31:0] (rule R122). -/
def normI32 (b : Beat) : F64 := f64Div (i32ToF64 (beatLow b)) i32DivF64

/-- The elements of a PUSH in increasing `e` (rules R51, R92): the first `count` beats, normalised. -/
def elements (norm : Beat → F64) (count : Nat) (samp : List Beat) : List F64 :=
  (samp.take count).map norm

/-- The beats a command takes from SAMP (rule R92): `avail` for a PUSH, none for any other. -/
def beatsOf : Instr → Nat
  | .create _ _ => 0
  | .pushF64 _ avail => avail
  | .pushF32 _ avail => avail
  | .pushI32 _ avail => avail
  | .readmax _ => 0
  | .destroy => 0

end Sys2Proof.Machine
end

