-- ==== Sys2Proof/Machine/Coef.lean ====
section
/-! DEFINITION. The coefficient store (10_state.md rule R27): two read-only tables of 4 phases of 12
taps, made from the open parameters of Config.lean so that every constraint the spec puts on them
(00_scope.md rules R9 and R10) holds whatever the parameters are (log entry 2). -/

namespace Sys2Proof.Machine

/-- A coefficient table: phase 0 to 3, tap 0 to 11 (rule R27). No field of `State` has this type. -/
abbrev CoefTable := Nat → Nat → F64

/-- A finite pattern (rule R10: "Every coefficient is a finite binary64 value"): a raw pattern that is
not finite has its exponent cleared. Every finite pattern is its own. -/
def finiteOf (raw : F64) : F64 :=
  if F64.isFinite raw then raw else F64.pack (F64.sign raw) (F64.mag raw % 2 ^ 52)

/-- The symmetry law of rule R10: phase 2 is phase 1 reversed, phase 3 is phase 0 reversed. -/
def symmetricTable (half : Nat → Nat → F64) : CoefTable
  | 0, i => half 0 i
  | 1, i => half 1 i
  | 2, i => half 1 (11 - i)
  | _, i => half 0 (11 - i)

/-- The 24 determining values agree (rule R10). -/
def halvesAgree (h h' : Nat → Nat → F64) : Bool :=
  (List.range 2).all fun p => (List.range 12).all fun i => h p i == h' p i

/-- Values that differ from `h` (rule R9: "different from `COEF_44100`"): `h'` itself where it differs,
else `h'` with the last fraction bit of phase 0, tap 0 inverted, which keeps it finite. -/
def distinctFrom (h h' : Nat → Nat → F64) : Nat → Nat → F64 := fun p i =>
  if halvesAgree h h' && p == 0 && i == 0 then h' p i ^^^ 1#64 else h' p i

/-- `COEF_44100` (rules R9, R10, R27). -/
def coef44100 : CoefTable :=
  symmetricTable fun p i => finiteOf (Config.rawCoef44100 p i)

/-- `COEF_48000` (rules R9, R10, R27). -/
def coef48000 : CoefTable :=
  symmetricTable (distinctFrom (fun p i => finiteOf (Config.rawCoef44100 p i))
    (fun p i => finiteOf (Config.rawCoef48000 p i)))

/-- `COEF`, the table `RATE` selects (rule R23). -/
def coefOf : Rate → CoefTable
  | .hz44100 => coef44100
  | .hz48000 => coef48000

end Sys2Proof.Machine
end

