-- ==== Sys2Proof/Machine/Pipeline.lean ====
section
/-! DEFINITION. The common pipeline of the PUSH commands (41_push.md rules R123 to R127). -/

namespace Sys2Proof.Machine

/-- The dot product of 12 coefficients with 12 history values (rule R125): the accumulator starts at
+0.0, and the taps are multiplied and added in the order 0 to 11, each product and each sum rounded. -/
def dot12 (coef w : Nat → F64) : F64 :=
  (List.range 12).foldl (fun acc i => f64Add acc (f64Mul (coef i) (w i))) 0#64

/-- The history values of channel `c` as the taps meet them: tap `i` meets the sample `i` frames back
(rules R52 (b), R125). -/
def Regs.window (r : Regs) (c : Nat) : Nat → F64 := fun i => r.histAt c (r.tapSlot i)

/-- Step 2 for phase `p` of channel `c` (rule R125): `y[p]`. -/
def Regs.phaseResult (tbl : CoefTable) (r : Regs) (c p : Nat) : F64 := dot12 (tbl p) (r.window c)

/-- Step 3 for one result (rule R126): its absolute value becomes the maximum if it exceeds it. -/
def Regs.raiseMax (c : Nat) (r : Regs) (y : F64) : Regs :=
  if f64Gt (f64Abs y) (r.maxAt c) then r.setMax c (f64Abs y) else r

/-- Steps 1 to 3 for one channel of one frame (rules R124 to R126). -/
def Regs.pushSample (tbl : CoefTable) (c : Nat) (v : F64) (r : Regs) : Regs :=
  let r1 := r.setHist c r.writeSlot v
  let ys := (List.range 4).map fun p => r1.phaseResult tbl c p
  ys.foldl (Regs.raiseMax c) r1

/-- The channels of one frame from channel `c` on, in index order, one element each (rule R123). -/
def Regs.pushChannels (tbl : CoefTable) : Nat → List F64 → Regs → Regs
  | _, [], r => r
  | c, v :: vs, r => Regs.pushChannels tbl (c + 1) vs (r.pushSample tbl c v)

/-- One frame: every channel, then step 4 (rules R123, R127). -/
def Regs.pushFrame (tbl : CoefTable) (frame : List F64) (r : Regs) : Regs :=
  (Regs.pushChannels tbl 0 frame r).advance

/-- `frameCount` frames in submission order, each taking the next `NCH` elements (rules R51, R123). -/
def Regs.pushFrames (tbl : CoefTable) : Nat → List F64 → Regs → Regs
  | 0, _, r => r
  | n + 1, es, r =>
    Regs.pushFrames tbl n (es.drop r.nch.toNat) (r.pushFrame tbl (es.take r.nch.toNat))

end Sys2Proof.Machine
end

