-- ==== Sys2Proof/Machine/Push.lean ====
section
/-! DEFINITION. PUSH.F64, PUSH.F32 and PUSH.I32 (41_push.md rules R120 to R141): one routine over how a
beat becomes an element, and one definition per command. -/

namespace Sys2Proof.Machine

/-- The checks of rule R121 in their order. The product is a mathematical integer (rule R88). -/
def pushStatus (frameCount avail : Nat) (r : Regs) : Status :=
  if r.life ≠ .ready then .invalidState
  else if 0 < frameCount ∧ avail < r.nch.toNat * frameCount then .invalidArgument
  else .ok

/-- A PUSH whose beats `norm` reads, with the coefficient table `tbl` (rules R92, R121, R123, R131,
R132). While fewer than `avail` beats are on SAMP the block waits, and the state stays as it is (rule
R216 (a); log entry 5). Else `avail` beats are taken, whatever the status. -/
def State.push (norm : Beat → F64) (tbl : CoefTable) (frameCount avail : Nat) (s : State) : State :=
  if s.samp.length < avail then s
  else match pushStatus frameCount avail s.regs with
    | .ok => s.conclude .ok 0#64 avail
        (s.regs.pushFrames tbl frameCount
          (elements norm (s.regs.nch.toNat * frameCount) s.samp))
    | e => s.raise e avail

/-- PUSH.F64 (rule R128). -/
def execPushF64 (frameCount avail : Nat) (s : State) : Host.Outcome State Fault Refusal :=
  .next (s.push normF64 (coefOf s.regs.rate) frameCount avail)

/-- PUSH.F32 (rule R129). -/
def execPushF32 (frameCount avail : Nat) (s : State) : Host.Outcome State Fault Refusal :=
  .next (s.push normF32 (coefOf s.regs.rate) frameCount avail)

/-- PUSH.I32 (rule R130). -/
def execPushI32 (frameCount avail : Nat) (s : State) : Host.Outcome State Fault Refusal :=
  .next (s.push normI32 (coefOf s.regs.rate) frameCount avail)

end Sys2Proof.Machine
end

