-- ==== Sys2Proof/Machine/Readmax.lean ====
section
/-! DEFINITION. READMAX (42_readmax.md rules R150 to R154). -/

namespace Sys2Proof.Machine

/-- The checks of rule R151 in their order. -/
def readmaxStatus (channel : Int) (r : Regs) : Status :=
  if r.life ≠ .ready then .invalidState
  else if channel < 0 ∨ (r.nch.toNat : Int) ≤ channel then .invalidArgument
  else .ok

/-- READMAX (rule R151): a pure read of the 64 bits of `MAX[channel]`. -/
def State.readmax (channel : Int) (s : State) : State :=
  match readmaxStatus channel s.regs with
  | .ok => s.conclude .ok (s.regs.maxAt channel.toNat) 0 s.regs
  | e => s.raise e 0

/-- READMAX (rule R151). -/
def execReadmax (channel : Int) (s : State) : Host.Outcome State Fault Refusal :=
  .next (s.readmax channel)

end Sys2Proof.Machine
end

