-- ==== Sys2Proof/Machine/Dispatch.lean ====
section
/-! DEFINITION. What each command does: one arm per constructor, each a call of its meaning. -/

namespace Sys2Proof.Machine

-- The command of rule R81 (3), executed atomically (rule R15).
def exec (i : Instr) (s : State) : Host.Outcome State Fault Refusal :=
  match i with
  | .create channels rate => Sys2Proof.Machine.execCreate channels rate s
  | .pushF64 frameCount avail => Sys2Proof.Machine.execPushF64 frameCount avail s
  | .pushF32 frameCount avail => Sys2Proof.Machine.execPushF32 frameCount avail s
  | .pushI32 frameCount avail => Sys2Proof.Machine.execPushI32 frameCount avail s
  | .readmax channel => Sys2Proof.Machine.execReadmax channel s
  | .destroy => Sys2Proof.Machine.execDestroy s

end Sys2Proof.Machine
end

