-- ==== Sys2Proof/Machine/Step.lean ====
section
/-! DEFINITION. One step of the block (30_encoding.md rule R81): reset, or the transfer of a held
response, or one command. -/

namespace Sys2Proof.Machine

/-- One step (rules R81, R210, R218). With `rst` = 1 the block is reset. A held response is transferred
when the host is ready, and else the block waits; no command starts before. With no response held and
a word on CMD, the word is decoded and its command executed; with none the block idles (rule R199).
Waiting and idling leave the state as it is (log entry 5). -/
def step (s : State) : Host.Outcome State Fault Refusal :=
  if s.rst then .next s.hardReset
  else match s.rsp with
    | _ :: _ => if s.rspReady then .next s.transferResponse else .next s
    | [] => match s.cmd with
      | [] => .next s
      | cw :: _ => match decode cw with
        | .error _ => .next s.illegal
        | .ok i => exec i s

/-- The beats a command word takes (rule R92); none for an ILLEGAL word. -/
def wordBeats (cw : Word) : Nat :=
  match decode cw with
  | .ok i => beatsOf i
  | .error _ => 0

/-- The state in which the very next step runs the word of `nbits` bits `w`: the word stands first on
CMD, `rst` is 0, a held response has been taken by the host, and SAMP holds the beats the word takes,
padded with beats of zeros where there are fewer (log entry 9). -/
def State.withFetchWord (s : State) (nbits w : Nat) : State :=
  match tableWord nbits w with
  | none => s
  | some cw =>
    { s with
      cmd := cw :: s.cmd
      samp := s.samp ++ List.replicate (wordBeats cw - s.samp.length) 0#64
      rsp := []
      out := s.out ++ s.rsp
      rst := false }

end Sys2Proof.Machine
end

