-- ==== Sys2Proof/Machine/Assembly.lean ====
section
/-! DEFINITION. The textual form of the commands (30_encoding.md rule R98): one command a line, operands
decimal or 0x hexadecimal, a semicolon starting a comment, and the sample beats of a PUSH as a list in
braces after it. Text is a list of characters, a program a list of lines (log entry 18). -/

namespace Sys2Proof.Machine

/-- The name a command has in text (rules R87, R98). -/
def mnemonicChars : Instr → List Char
  | .create _ _ => ['C', 'R', 'E', 'A', 'T', 'E']
  | .pushF64 _ _ => ['P', 'U', 'S', 'H', '.', 'F', '6', '4']
  | .pushF32 _ _ => ['P', 'U', 'S', 'H', '.', 'F', '3', '2']
  | .pushI32 _ _ => ['P', 'U', 'S', 'H', '.', 'I', '3', '2']
  | .readmax _ => ['R', 'E', 'A', 'D', 'M', 'A', 'X']
  | .destroy => ['D', 'E', 'S', 'T', 'R', 'O', 'Y']

/-- A decimal integer, with a leading minus for a negative (rule R98). -/
def decimalChars : Int → List Char
  | .ofNat n => Nat.toDigits 10 n
  | .negSucc n => '-' :: Nat.toDigits 10 (n + 1)

/-- The operands of a command in the order of rule R98's table. -/
def operandList : Instr → List Int
  | .create channels rate => [channels, rate]
  | .pushF64 frameCount avail => [frameCount, avail]
  | .pushF32 frameCount avail => [frameCount, avail]
  | .pushI32 frameCount avail => [frameCount, avail]
  | .readmax channel => [channel]
  | .destroy => []

/-- Operands separated by a comma and a space. -/
def joinOperands : List Int → List Char
  | [] => []
  | [v] => decimalChars v
  | v :: vs => decimalChars v ++ [',', ' '] ++ joinOperands vs

/-- The line that denotes a command (rule R98). -/
def printLine (i : Instr) : List Char :=
  match operandList i with
  | [] => mnemonicChars i
  | vs => mnemonicChars i ++ [' '] ++ joinOperands vs

/-- The value of a digit in the given base. -/
def digitValue (base : Nat) (c : Char) : Option Nat :=
  let v := if '0' ≤ c ∧ c ≤ '9' then c.toNat - '0'.toNat
    else if 'a' ≤ c ∧ c ≤ 'f' then c.toNat - 'a'.toNat + 10
    else if 'A' ≤ c ∧ c ≤ 'F' then c.toNat - 'A'.toNat + 10
    else base
  if v < base then some v else none

/-- The number that digits denote, most significant first, `acc` being what stands before them. -/
def digitsValue (base : Nat) : Nat → List Char → Option Nat
  | acc, [] => some acc
  | acc, c :: cs => match digitValue base c with
    | some v => digitsValue base (acc * base + v) cs
    | none => none

/-- A natural operand: decimal, or 0x and hexadecimal digits with optional separators (rules R11, R98).
Leading zeros, separators in any place, and 0x with separators alone, read as 0, are the model's
(DESIGN CHOICE, log entry 18). -/
def parseNat : List Char → Option Nat
  | [] => none
  | '0' :: 'x' :: c :: cs => digitsValue 16 0 ((c :: cs).filter (· != '_'))
  | cs => digitsValue 10 0 cs

/-- An operand, negative with a leading minus (rule R98, which gives the minus to decimals). That a minus
before a 0x operand negates it too is the model's (DESIGN CHOICE, log entry 18). -/
def parseInt : List Char → Option Int
  | '-' :: cs => (parseNat cs).map fun n => -(n : Int)
  | cs => (parseNat cs).map fun n => (n : Int)

/-- The pieces of a text between separators. -/
def splitAt (sep : Char) : List Char → List (List Char)
  | [] => [[]]
  | c :: cs => match splitAt sep cs with
    | [] => [[]]
    | p :: ps => if c = sep then [] :: p :: ps else (c :: p) :: ps

/-- A text without spaces at its ends. -/
def trimSpaces (cs : List Char) : List Char :=
  ((cs.dropWhile (· == ' ')).reverse.dropWhile (· == ' ')).reverse

/-- Every operand of the text after the mnemonic; a blank text has none. -/
def parseOperands (cs : List Char) : Option (List Int) :=
  if trimSpaces cs = [] then some []
  else (splitAt ',' cs).mapM fun p => parseInt (trimSpaces p)

/-- The command with a mnemonic and operands of the right number and sign. -/
def commandOf (m : List Char) (ops : List Int) : Option Instr :=
  match ops with
  | [] => if m = mnemonicChars .destroy then some .destroy else none
  | [a] => if m = mnemonicChars (.readmax a) then some (.readmax a) else none
  | [a, b] =>
    if m = mnemonicChars (.create a 0) then
      if 0 ≤ b then some (.create a b.toNat) else none
    else if a < 0 ∨ b < 0 then none
    else if m = mnemonicChars (.pushF64 0 0) then some (.pushF64 a.toNat b.toNat)
    else if m = mnemonicChars (.pushF32 0 0) then some (.pushF32 a.toNat b.toNat)
    else if m = mnemonicChars (.pushI32 0 0) then some (.pushI32 a.toNat b.toNat)
    else none
  | _ => none

/-- The command a line denotes: its comment dropped, its mnemonic known, its operands in the ranges of
rule R98's table. -/
def parseLine (line : List Char) : Option Instr :=
  let text := trimSpaces (line.takeWhile (· != ';'))
  let m := text.takeWhile (· != ' ')
  match parseOperands (text.dropWhile (· != ' ')) with
  | none => none
  | some ops => match commandOf m ops with
    | some i => if i.wellFormed then some i else none
    | none => none

/-- The command word of a line (rules R98, R99). -/
def assemble (line : List Char) : Option Word := (parseLine line).map encode

/-- The opening brace of a list of beats. -/
def openBrace : Char := Char.ofNat 123

/-- The closing brace of a list of beats. -/
def closeBrace : Char := Char.ofNat 125

/-- A decimal numeral: its sign, its digits as a number, and how many of them stand behind the point.
That the point may be missing, or have no digit on one side, is the model's (DESIGN CHOICE, log
entry 18). -/
def parseDecimal (cs : List Char) : Option (Bool × Nat × Nat) :=
  let neg := cs.head? == some '-'
  let body := if neg then cs.drop 1 else cs
  let fraction := (body.dropWhile (· != '.')).drop 1
  if fraction.contains '.' then none
  else match body.filter (· != '.') with
    | [] => none
    | digits => (digitsValue 10 0 digits).map fun n => (neg, n, fraction.length)

/-- A `0x` bit pattern of at most `width` bits. -/
def parsePattern (width : Nat) : List Char → Option Nat
  | '0' :: 'x' :: cs => match parseNat ('0' :: 'x' :: cs) with
    | some n => if n < 2 ^ width then some n else none
    | none => none
  | _ => none

/-- An element of PUSH.F64: a bit pattern, or a decimal rounded to nearest (log entry 18). -/
def parseF64 (cs : List Char) : Option Beat :=
  match parsePattern 64 cs with
  | some n => some (BitVec.ofNat 64 n)
  | none => (parseDecimal cs).map fun (neg, n, k) =>
    F64.pack neg (F64.roundMag (n * 2 ^ 1074) (10 ^ k))

/-- An element of PUSH.F32: a bit pattern of a whole beat, whose bits [63:32] are ignored (rule R93), or a
decimal rounded to nearest (log entry 18). -/
def parseF32 (cs : List Char) : Option Beat :=
  match parsePattern 64 cs with
  | some n => some (BitVec.ofNat 64 n)
  | none => (parseDecimal cs).map fun (neg, n, k) =>
    BitVec.ofNat 64 ((if neg then 2 ^ 31 else 0) + F32.roundMag (n * 2 ^ 149) (10 ^ k))

/-- An element of PUSH.I32: a decimal integer, or a bit pattern of a whole beat (rule R98; log entry
18). -/
def parseI32 (cs : List Char) : Option Beat :=
  match parsePattern 64 cs with
  | some n => some (BitVec.ofNat 64 n)
  | none => match parseInt cs with
    | some v => if -2147483648 ≤ v ∧ v ≤ 2147483647 then some ((BitVec.ofInt 32 v).setWidth 64) else none
    | none => none

/-- How many beats a command's list has, and how an element of it is read; none for a command without a
list. -/
def listForm : Instr → Option (Nat × (List Char → Option Beat))
  | .create _ _ => none
  | .pushF64 _ avail => some (avail, parseF64)
  | .pushF32 _ avail => some (avail, parseF32)
  | .pushI32 _ avail => some (avail, parseI32)
  | .readmax _ => none
  | .destroy => none

/-- The beats of a list in braces, which must be exactly as many as the command says (rule R98). No list
stands for an empty one, and braces are dropped wherever they stand in the text of the list, so that
elements after the closing brace on its line, and those of a further list on that line, are entries too
(DESIGN CHOICE, log entry 18). -/
def parseBeats (i : Instr) (text : List Char) : Option (List Beat) :=
  let body := trimSpaces (text.filter fun c => c != openBrace && c != closeBrace)
  match listForm i with
  | none => if text = [] then some [] else none
  | some (avail, element) =>
    let pieces := if body = [] then [] else splitAt ',' body
    match pieces.mapM fun p => element (trimSpaces p) with
    | some beats => if beats.length = avail then some beats else none
    | none => none

/-- The commands of a program with the text of their lists: `pending` is a command whose list is not yet
closed and the text of it so far. -/
def parseLines : Option (Instr × List Char) → List (List Char) → Option (List (Instr × List Char))
  | none, [] => some []
  | some (i, text), [] => if text = [] then some [(i, [])] else none
  | pending, line :: lines =>
    let text := trimSpaces (line.takeWhile (· != ';'))
    let start := fun (_ : Unit) =>
      match parseLine (text.takeWhile (· != openBrace)) with
      | none => none
      | some i =>
        let body := text.dropWhile (· != openBrace)
        if listForm i = none ∨ body.contains closeBrace then
          (parseLines none lines).map fun rest => (i, body) :: rest
        else parseLines (some (i, body)) lines
    if text = [] then parseLines pending lines
    else match pending with
      | none => start ()
      | some (i, sofar) =>
        if sofar = [] ∧ text.head? ≠ some openBrace then (start ()).map fun rest => (i, []) :: rest
        else if text.contains closeBrace then
          (parseLines none lines).map fun rest => (i, sofar ++ [' '] ++ text) :: rest
        else parseLines (some (i, sofar ++ [' '] ++ text)) lines

/-- What the commands of a program put on CMD and on SAMP. -/
def portsOf : List (Instr × List Char) → Option (List Word × List Beat)
  | [] => some ([], [])
  | (i, text) :: rest => match parseBeats i text, portsOf rest with
    | some beats, some (words, more) => some (encode i :: words, beats ++ more)
    | _, _ => none

/-- What a program puts on CMD and on SAMP (rule R98). -/
def assembleProgram (lines : List (List Char)) : Option (List Word × List Beat) :=
  match parseLines none lines with
  | some commands => portsOf commands
  | none => none

end Sys2Proof.Machine
end

