-- ==== Sys2Proof/Machine/HostPort.lean ====
section
/-! DEFINITION. What the host may do to the block between two steps (70_reset_and_hazards.md rule R219,
30_encoding.md rule R80). It is the environment of `step`, no part of it. -/

namespace Sys2Proof.Machine

/-- One action of the host (rules R80, R210, R218, R219). -/
inductive HostAction where
  /-- Drive the reset input. -/
  | setReset (level : Bool)
  /-- Put one command word on CMD. -/
  | sendCommand (cw : Word)
  /-- Put one beat on SAMP, before, while or after its PUSH word is on CMD (rule R216 (c)). -/
  | sendBeat (b : Beat)
  /-- Drive `rsp_ready`. -/
  | setRspReady (level : Bool)
deriving DecidableEq, Repr

/-- The state after a host action. While `rst` = 1 the block accepts nothing (rule R210), so a word or
beat put on a port then is not transferred. -/
def State.host (a : HostAction) (s : State) : State :=
  match a with
  | .setReset level => { s with rst := level }
  | .sendCommand cw => if s.rst then s else { s with cmd := s.cmd ++ [cw] }
  | .sendBeat b => if s.rst then s else { s with samp := s.samp ++ [b] }
  | .setRspReady level => { s with rspReady := level }

end Sys2Proof.Machine
end

