-- ==== Sys2Proof/Safety.lean ====
section
/-! DEFINITION. The terms claims are made in: the invariant of the block, the host's beat accounting, the
end of a run, and the states a run reaches. -/

namespace Sys2Proof.Machine

/-- Every listed cell of a register file lies below index `n`. -/
def Memory.below (m : Memory) (n : Nat) : Prop := ∀ kv ∈ m, kv.1 < n

/-- A value `MAX[c]` may hold while Ready (rules R20, R35 (c)): sign bit 0, and finite or +infinity. -/
def F64.isMagnitude (a : F64) : Prop := F64.sign a = false ∧ F64.mag a ≤ F64.infMag

/-- What rule R35 says of the Ready state: (a), (b) and (c). -/
structure Regs.ReadyInv (r : Regs) : Prop where
  nch_pos : 1 ≤ r.nch.toNat
  nch_le : r.nch.toNat ≤ Config.nchMax
  pos_lt : r.pos.toNat < 12
  max_ok : ∀ c, c < r.nch.toNat → F64.isMagnitude (r.maxAt c)

/-- The invariant of the block: rule R35 while Ready, the canonical form of both register files with
cells only for the channels the block is built for (rules R25, R26, R53), and at most one response
held (rules R81, R218). -/
structure State.Inv (s : State) : Prop where
  ready : s.regs.life = .ready → s.regs.ReadyInv
  hist_wf : s.regs.hist.wf = true
  max_wf : s.regs.max.wf = true
  hist_below : s.regs.hist.below (12 * Config.nchMax)
  max_below : s.regs.max.below Config.nchMax
  rsp_le : s.rsp.length ≤ 1

/-- The beats that the command words on CMD take in all (rules R92, R216). -/
def State.beatsOwed (s : State) : Nat := (s.cmd.map wordBeats).sum

/-- Exact beat accounting (rule R216): SAMP holds exactly the beats of the words on CMD. -/
def State.beatsExact (s : State) : Prop := s.samp.length = s.beatsOwed

/-- The run has ended (rule R220): every command word has produced its response and the host has taken
it. -/
def State.runEnded (s : State) : Prop := s.cmd = [] ∧ s.rsp = []

/-- The state after a command that took `beats` beats and answered with status `st` and data `d`, leaving
the architectural state `r`: the word is gone from CMD, the beats from SAMP, one response word is on
RSP (rules R81, R95), and nothing else has changed. -/
def State.answered (s : State) (beats : Nat) (st : Status) (d : F64) (r : Regs) : State where
  regs := r
  cmd := s.cmd.drop 1
  samp := s.samp.drop beats
  rsp := s.rsp ++ [st.code ++ d]
  out := s.out
  rst := s.rst
  rspReady := s.rspReady

/-- The three PUSH commands with how each reads a beat (rules R122, R128 to R130). -/
def pushForms : List ((Nat → Nat → Instr) × (Beat → F64)) :=
  [(.pushF64, normF64), (.pushF32, normF32), (.pushI32, normI32)]

/-- The legality matrix of rule R184. -/
def allowedIn : Instr → Life → Bool
  | .create _ _, life => life == .uninitialized
  | .pushF64 _ _, life => life == .ready
  | .pushF32 _ _, life => life == .ready
  | .pushI32 _ _, life => life == .ready
  | .readmax _, life => life == .ready
  | .destroy, life => life != .destroyed

/-- The complete list of causes of InvalidArgument (rule R182). -/
def invalidArgumentCause (r : Regs) : Instr → Prop
  | .create channels rate => channels ≤ 0 ∨ ¬(rate = 44100 ∨ rate = 48000)
  | .pushF64 n avail => 0 < n ∧ avail < r.nch.toNat * n
  | .pushF32 n avail => 0 < n ∧ avail < r.nch.toNat * n
  | .pushI32 n avail => 0 < n ∧ avail < r.nch.toNat * n
  | .readmax channel => channel < 0 ∨ (r.nch.toNat : Int) ≤ channel
  | .destroy => False

/-- The complete list of causes of AllocationFailure (rule R186). -/
def allocationCause : Instr → Prop
  | .create channels _ => (Config.nchMax : Int) < channels
  | .pushF64 _ _ => False
  | .pushF32 _ _ => False
  | .pushI32 _ _ => False
  | .readmax _ => False
  | .destroy => False

/-- A Ready block to which only zeros have been pushed (rules R135, R163): every ring slot of every
channel holds +0.0 or −0.0, and every maximum is +0.0. -/
def Regs.silent (r : Regs) : Prop :=
  r.life = .ready ∧ ∀ c, c < r.nch.toNat →
    (∀ k, k < 12 → F64.isZero (r.histAt c k) = true) ∧ r.maxAt c = 0#64

/-- What the cursor and the rings hold after `frames` frames of a session, `sample j c` being the element of
frame `j` and channel `c` (rules R24 and R36, (a) to (d)). -/
def Regs.holdsFrames (r : Regs) (frames : Nat) (sample : Nat → Nat → F64) : Prop :=
  r.pos.toNat = frames % 12 ∧ ∀ c, c < r.nch.toNat →
    (∀ j, j < min frames 12 → r.histAt c ((r.pos.toNat + 11 - j) % 12) = sample (frames - 1 - j) c) ∧
    (frames < 12 → ∀ k, frames ≤ k → k < 12 → r.histAt c k = 0#64) ∧
    (12 ≤ frames → r.histAt c r.pos.toNat = sample (frames - 12) c)

/-- `m` is the largest of the absolute values of the coefficients `tbl p i`, p in 0..3 and i in 0..`n`
(rules R164, R165). -/
def isLargestCoef (tbl : CoefTable) (n : Nat) (m : F64) : Prop :=
  (∃ p i, p < 4 ∧ i ≤ n ∧ m = f64Abs (tbl p i)) ∧
  ∀ p i, p < 4 → i ≤ n → f64Gt (f64Abs (tbl p i)) m = false

/-- The states that runs of the block reach from reset, whatever the host does between steps (rules
R210, R219). -/
inductive Reachable : State → Prop where
  | reset : Reachable State.reset
  | step {s t : State} : Reachable s → step s = .next t → Reachable t
  | host {s : State} (a : HostAction) : Reachable s → Reachable (s.host a)

end Sys2Proof.Machine
end

