-- ==== Sys2Proof/Certificates/Slice0/Obligations.lean ====
section
/-! DEFINITION. The statements for the provers, from the numbered rules of spec/. -/

open Sys2Proof Sys2Proof.Machine

/-! ### Encoding -/

/-- Rules R83 to R86: a well-formed command is what its word decodes to, with every operand. -/
def Obligations.DecodeAfterEncode : Prop :=
  ∀ i : Instr, i.wellFormed = true → decode (encode i) = .ok i

/-- Rules R83 to R86: a word that decodes is the word of the command it decodes to, which is well formed;
so no bit of a legal word is dropped and each legal word has one meaning. -/
def Obligations.EncodeAfterDecode : Prop :=
  ∀ (cw : Word) (i : Instr), decode cw = .ok i → i.wellFormed = true ∧ encode i = cw

/-- Rule R87: a word decodes to the row of the table it matches under the row's mask, rows exclude each
other, and a word that matches no row is ILLEGAL. -/
def Obligations.DecodeFollowsOpcodeTable : Prop :=
  (∀ (cw : Word) (i : Instr), decode cw = .ok i →
    (i.rowMatch, i.rowMask) ∈ opcodeTable ∧ cw &&& i.rowMask = i.rowMatch) ∧
  (∀ (cw : Word), ∀ row ∈ opcodeTable, cw &&& row.2 = row.1 →
    ∃ i, decode cw = .ok i ∧ (i.rowMatch, i.rowMask) = row) ∧
  (∀ (cw : Word), ∀ row ∈ opcodeTable, ∀ row' ∈ opcodeTable,
    cw &&& row.2 = row.1 → cw &&& row'.2 = row'.1 → row = row') ∧
  (∀ (cw : Word), (∃ e, decode cw = .error e) ↔ ∀ row ∈ opcodeTable, cw &&& row.2 ≠ row.1)

/-- Rule R89: which words are ILLEGAL, and what the block does with one that is next on CMD: no state
changes, no beat is taken, the response is IllegalCommand with data 0. -/
def Obligations.IllegalWordsAreAnsweredOnly : Prop :=
  (∀ cw : Word, (∃ e, decode cw = .error e) ↔
    (∀ op ∈ [0x01#8, 0x10#8, 0x11#8, 0x12#8, 0x20#8, 0x30#8], cw >>> 56 ≠ op.setWidth 64) ∨
    (cw >>> 56 = 0x01#64 ∧ cw &&& 0x000000FF00000000#64 ≠ 0#64) ∨
    (cw >>> 56 = 0x20#64 ∧ cw &&& 0x000000FFFFFFFFFF#64 ≠ 0#64) ∨
    (cw >>> 56 = 0x30#64 ∧ cw &&& 0x00FFFFFFFFFFFFFF#64 ≠ 0#64)) ∧
  (∃ e, decode 0x0000000000000000#64 = .error e) ∧
  (∃ e, decode 0xFFFFFFFFFFFFFFFF#64 = .error e) ∧
  (∀ (s : State) (cw : Word) (rest : List Word) (e : Illegal), s.rst = false → s.rsp = [] →
    s.cmd = cw :: rest → decode cw = .error e →
    step s = .next { s with cmd := rest, rsp := [0x040000000000000000#72] })

/-- Rule R99: the worked encodings, both ways, and the illegal examples. -/
def Obligations.WorkedEncodingsDecode : Prop :=
  (∀ x ∈ ([(.create 1 48000, 0x010001000000BB80#64), (.create 2 44100, 0x010002000000AC44#64),
      (.create 0 48000, 0x010000000000BB80#64), (.create (-1) 48000, 0x01FFFF000000BB80#64),
      (.pushF64 3 6, 0x1000000300000006#64), (.pushF32 0 0, 0x1100000000000000#64),
      (.pushI32 16777215 4294967295, 0x12FFFFFFFFFFFFFF#64), (.readmax 0, 0x2000000000000000#64),
      (.readmax 1, 0x2000010000000000#64), (.readmax (-1), 0x20FFFF0000000000#64),
      (.destroy, 0x3000000000000000#64)] : List (Instr × Word)),
    encode x.1 = x.2 ∧ (decode x.2).toOption = some x.1) ∧
  [0x0000000000000000#64, 0x010001010000BB80#64, 0x2000000000000001#64, 0x3000000000000001#64,
      0x1300000000000000#64].all (fun cw => (decode cw).toOption.isNone) = true

/-- Rules R83, R84, R85, R88: the operands are the numbers their fields denote, unscaled and unshifted,
two's complement where signed. -/
def Obligations.OperandsAreTheirFields : Prop :=
  ∀ cw : Word,
    let high : Nat := cw.toNat / 2 ^ 40 % 2 ^ 16
    let signed : Int := if high < 2 ^ 15 then (high : Int) else (high : Int) - 2 ^ 16
    let count : Nat := cw.toNat / 2 ^ 32 % 2 ^ 24
    let low : Nat := cw.toNat % 2 ^ 32
    ∀ i, decode cw = .ok i → i = match i with
      | .create _ _ => .create signed low
      | .pushF64 _ _ => .pushF64 count low
      | .pushF32 _ _ => .pushF32 count low
      | .pushI32 _ _ => .pushI32 count low
      | .readmax _ => .readmax signed
      | .destroy => .destroy

/-- Rule R55: a byte-serial transport sends bits [7:0] first, and eight bytes in that order give the word
back. -/
def Obligations.LittleEndianTransport : Prop :=
  ∀ (w : Word) (rest : List Byte), wordOfBytes (bytesOf 8 w ++ rest) = some (w, rest) ∧
    (bytesOf 8 w).head? = some (BitVec.ofNat 8 w.toNat)

/-- Rules R98, R99: the lines of the worked encodings assemble to their words, and rule R98's list of beats
after a PUSH to its beats. -/
def Obligations.AssembledExamples : Prop :=
  (∀ x ∈ ([(.create 1 48000, 0x010001000000BB80#64), (.create (-1) 48000, 0x01FFFF000000BB80#64),
      (.pushF64 3 6, 0x1000000300000006#64), (.pushF32 0 0, 0x1100000000000000#64),
      (.pushI32 16777215 4294967295, 0x12FFFFFFFFFFFFFF#64), (.readmax (-1), 0x20FFFF0000000000#64),
      (.destroy, 0x3000000000000000#64)] : List (Instr × Word)),
    assemble (printLine x.1) = some x.2) ∧
  assembleProgram [printLine (.pushF64 1 3),
      [openBrace, ' ', '1', '.', '0', ',', ' ', '0', '.', '0', ',', ' ', '-', '0', '.', '5', ' ', closeBrace],
      printLine .destroy] =
    some ([0x1000000100000003#64, 0x3000000000000000#64],
      [0x3FF0000000000000#64, 0x0000000000000000#64, 0xBFE0000000000000#64])

/-! ### The command loop, reset and the host -/

/-- Rule R81: with `rst` = 0, no response held and a word on CMD that decodes to `i`, a step is exactly
the execution of `i`; the step adds nothing around it. -/
def Obligations.StepExecutesTheDecodedCommand : Prop :=
  ∀ (s : State) (cw : Word) (rest : List Word) (i : Instr), s.rst = false → s.rsp = [] →
    s.cmd = cw :: rest → decode cw = .ok i → step s = exec i s

/-- Rules R80, R81, R199, R218: with `rst` = 0 and a response held, a step transfers it if the host is
ready and does nothing if not; with nothing held and nothing on CMD it does nothing. (That a wait is a
step that changes nothing and a transfer a step of its own is the model's, log entries 5 and 8.) -/
def Obligations.StepServesTheHost : Prop :=
  ∀ s : State, s.rst = false →
    (∀ rw rest, s.rsp = rw :: rest → s.rspReady = true →
      step s = .next { s with rsp := rest, out := s.out ++ [rw] }) ∧
    (s.rsp ≠ [] → s.rspReady = false → step s = .next s) ∧
    (s.rsp = [] → s.cmd = [] → step s = .next s)

/-- Rules R81, R218: without a reset no step drops, overwrites or reorders a response: those taken and
held stay, in their order, and new ones come after them. -/
def Obligations.ResponsesAreNeverLost : Prop :=
  ∀ s t : State, s.rst = false → step s = .next t → (s.out ++ s.rsp) <+: (t.out ++ t.rsp)

/-- Rules R33, R210: a step with `rst` = 1 leaves `LIFE` Uninitialized and the three queues empty, and
while `rst` = 1 no word and no beat is accepted; the state after reset is one such. (That what the host
has taken and the input levels stay is the model's choice, log entry 19.) -/
def Obligations.ResetInputClearsTheBlock : Prop :=
  (∀ s : State, s.rst = true → ∃ r : Regs, r.life = .uninitialized ∧
    step s = .next { s with regs := r, cmd := [], samp := [], rsp := [] }) ∧
  (∀ (s : State) (w : Word), s.rst = true →
    s.host (.sendCommand w) = s ∧ s.host (.sendBeat w) = s) ∧
  (State.reset.regs.life = .uninitialized ∧ State.reset.cmd = [] ∧ State.reset.samp = [] ∧
    State.reset.rsp = [])

/-- Rules R33, R38: what the other registers hold while Uninitialized or Destroyed is unobservable: from any
two values of them every command gives the same response, takes the same beats, and leaves the same
`LIFE`, and a command that makes the block Ready leaves every register and every reachable cell the
same. (So the reset values the model chose, log entry 4, and what it keeps after DESTROY, log entry 12,
show nowhere. That a PUSH whose beats are missing answers the state as it is is log entry 5's.) -/
def Obligations.RegistersOutsideReadyAreUnobservable : Prop :=
  ∀ (i : Instr) (s : State) (r' : Regs), s.regs.life ≠ .ready → r'.life = s.regs.life →
    ∃ t t' : State, exec i s = .next t ∧ exec i { s with regs := r' } = .next t' ∧
      t.cmd = t'.cmd ∧ t.samp = t'.samp ∧ t.rsp = t'.rsp ∧ t.regs.life = t'.regs.life ∧
      (t.regs.life = .ready → t.regs.nch = t'.regs.nch ∧ t.regs.rate = t'.regs.rate ∧
        t.regs.pos = t'.regs.pos ∧ ∀ c k, c < t.regs.nch.toNat → k < 12 →
          t.regs.histAt c k = t'.regs.histAt c k ∧ t.regs.maxAt c = t'.regs.maxAt c)

/-- Rules R25, R26, R34, R53: in Ready no command reads a cell of a channel from `NCH` on: from two states
that differ in such cells alone every command gives the same response, takes the same beats, and leaves
states that differ in such cells alone. (That DESTROY keeps the registers is the model's choice, log
entry 12; that a PUSH whose beats are missing answers the state as it is is log entry 5's.) -/
def Obligations.CellsBeyondTheChannelsAreNeverRead : Prop :=
  ∀ (i : Instr) (s : State) (r' : Regs), s.regs.life = .ready → r'.life = .ready →
    r'.nch = s.regs.nch → r'.rate = s.regs.rate → r'.pos = s.regs.pos →
    (∀ c k, c < s.regs.nch.toNat → k < 12 →
      r'.histAt c k = s.regs.histAt c k ∧ r'.maxAt c = s.regs.maxAt c) →
    ∃ t t' : State, exec i s = .next t ∧ exec i { s with regs := r' } = .next t' ∧
      t.cmd = t'.cmd ∧ t.samp = t'.samp ∧ t.rsp = t'.rsp ∧ t.regs.life = t'.regs.life ∧
      t.regs.nch = t'.regs.nch ∧ t.regs.rate = t'.regs.rate ∧ t.regs.pos = t'.regs.pos ∧
      ∀ c k, c < s.regs.nch.toNat → k < 12 →
        t.regs.histAt c k = t'.regs.histAt c k ∧ t.regs.maxAt c = t'.regs.maxAt c

/-- Rules R92, R216: what a step takes from SAMP for the word on CMD: the 32 low bits of a PUSH word, and
none for any other word, whatever the response; and while fewer are there, the step does nothing. (That
waiting is a step that changes nothing is the model's, log entry 5: rule R216 (a) says that a model gives
the block no step.) -/
def Obligations.BeatConsumption : Prop :=
  ∀ (s : State) (cw : Word) (rest : List Word), s.rst = false → s.rsp = [] → s.cmd = cw :: rest →
    let beats := if cw >>> 56 = 0x10#64 ∨ cw >>> 56 = 0x11#64 ∨ cw >>> 56 = 0x12#64
      then cw.toNat % 2 ^ 32 else 0
    (s.samp.length < beats → step s = .next s) ∧
    (beats ≤ s.samp.length → ∃ t, step s = .next t ∧ t.cmd = rest ∧ t.samp = s.samp.drop beats)

/-- Rule R216: where SAMP holds exactly the beats of the words on CMD, it does so after every step, and no
command waits for beats. -/
def Obligations.StepKeepsBeatAccounting : Prop :=
  ∀ s t : State, s.beatsExact → step s = .next t → t.beatsExact ∧
    (s.rst = false → s.rsp = [] → ∀ cw rest, s.cmd = cw :: rest → t.cmd = rest)

/-- Rules R95, R96: the word next on CMD, once its beats are there, is answered by exactly one response
word; its status is one of the five codes, and its data is `MAX[channel]` for a READMAX that ends OK
and 0 for every other. -/
def Obligations.EveryCommandAnswersOnce : Prop :=
  ∀ (s : State) (cw : Word) (rest : List Word), s.rst = false → s.rsp = [] → s.cmd = cw :: rest →
    wordBeats cw ≤ s.samp.length →
    ∃ (st : BitVec 8) (d : F64) (t : State), step s = .next t ∧ t.cmd = rest ∧
      t.rsp = [st ++ d] ∧ st.toNat ≤ 4 ∧
      (∀ channel, decode cw = .ok (.readmax channel) → st = 0#8 →
        d = s.regs.maxAt channel.toNat) ∧
      ((st ≠ 0#8 ∨ ∀ channel, decode cw ≠ .ok (.readmax channel)) → d = 0#64)

/-- Rules R182 to R186: the response reports the first error that applies in the order IllegalCommand,
InvalidState, InvalidArgument, AllocationFailure, with exactly the causes listed, and OK if none does.
(On a block of 32767 channels no command word asks for more, so there the fourth clause has no word.) -/
def Obligations.ErrorPriority : Prop :=
  ∀ (s : State) (cw : Word) (rest : List Word), s.rst = false → s.rsp = [] → s.cmd = cw :: rest →
    wordBeats cw ≤ s.samp.length →
    ∃ (st : BitVec 8) (d : F64) (t : State), step s = .next t ∧ t.rsp = [st ++ d] ∧
      ((∃ e, decode cw = .error e) → st = 0x04#8) ∧
      (∀ i, decode cw = .ok i → allowedIn i s.regs.life = false → st = 0x03#8) ∧
      (∀ i, decode cw = .ok i → allowedIn i s.regs.life = true → invalidArgumentCause s.regs i →
        st = 0x01#8) ∧
      (∀ i, decode cw = .ok i → allowedIn i s.regs.life = true → ¬invalidArgumentCause s.regs i →
        allocationCause i → st = 0x02#8) ∧
      (∀ i, decode cw = .ok i → allowedIn i s.regs.life = true → ¬invalidArgumentCause s.regs i →
        ¬allocationCause i → st = 0x00#8)

/-- Rules R21, R211: reset is the only transition into Uninitialized and the only way out of Destroyed,
and without a reset `LIFE` changes only from Uninitialized to Ready by a CREATE and from Ready to
Destroyed by a DESTROY. -/
def Obligations.LifecycleTransitions : Prop :=
  ∀ s t : State, step s = .next t →
    (s.regs.life ≠ .uninitialized → t.regs.life = .uninitialized → s.rst = true) ∧
    (s.regs.life = .destroyed → t.regs.life ≠ .destroyed → s.rst = true) ∧
    (s.rst = false → t.regs.life ≠ s.regs.life → ∃ cw rest, s.cmd = cw :: rest ∧
      ((s.regs.life = .uninitialized ∧ t.regs.life = .ready ∧
          ∃ channels rate, decode cw = .ok (.create channels rate)) ∨
       (s.regs.life = .ready ∧ t.regs.life = .destroyed ∧ decode cw = .ok .destroy)))

/-- Rule R184: a command that has its beats is answered InvalidState exactly where the legality matrix
says so. -/
def Obligations.LegalityMatrix : Prop :=
  ∀ (i : Instr) (s : State), beatsOf i ≤ s.samp.length →
    ∃ (st : Status) (d : F64) (r : Regs), exec i s = .next (s.answered (beatsOf i) st d r) ∧
      (st = .invalidState ↔ allowedIn i s.regs.life = false)

/-- Rule R171: a command that ends with a status other than OK leaves the architectural state as it was,
and its data is 0; so does a word that is no command. -/
def Obligations.FailureLeavesTheStateAlone : Prop :=
  (∀ (i : Instr) (s : State), beatsOf i ≤ s.samp.length →
    ∃ (st : Status) (d : F64) (r : Regs), exec i s = .next (s.answered (beatsOf i) st d r) ∧
      (st ≠ .ok → r = s.regs ∧ d = 0#64)) ∧
  (∀ (s t : State) (cw : Word) (rest : List Word) (e : Illegal), s.rst = false → s.rsp = [] →
    s.cmd = cw :: rest → decode cw = .error e → step s = .next t → t.regs = s.regs)

/-- Rule R37: what each command leaves alone when it answers: READMAX every register; DESTROY all but
`LIFE`; a PUSH `LIFE`, `NCH`, `RATE` and every cell of a channel from `NCH` on; CREATE every cell of a
channel not asked for; and each of them what the host has taken and the levels it drives. (That the
storage keeps its cells after a DESTROY is the model's choice, log entry 12.) -/
def Obligations.WriteSetsOfTheCommands : Prop :=
  ∀ (i : Instr) (s t : State), exec i s = .next t →
    t.out = s.out ∧ t.rst = s.rst ∧ t.rspReady = s.rspReady ∧
    match i with
    | .create channels _ => ∀ c k, channels.toNat ≤ c → k < 12 →
        t.regs.histAt c k = s.regs.histAt c k ∧ t.regs.maxAt c = s.regs.maxAt c
    | .readmax _ => t.regs = s.regs
    | .destroy => t.regs = { s.regs with life := t.regs.life }
    | .pushF64 _ _ | .pushF32 _ _ | .pushI32 _ _ =>
        t.regs.life = s.regs.life ∧ t.regs.nch = s.regs.nch ∧ t.regs.rate = s.regs.rate ∧
        ∀ c k, s.regs.nch.toNat ≤ c → k < 12 →
          t.regs.histAt c k = s.regs.histAt c k ∧ t.regs.maxAt c = s.regs.maxAt c

/-- Rule R160: the response and the architectural state a command leaves are functions of the
architectural state, the command and the beats it takes: later words, later beats, what the host has
taken and the levels it drives have no part in them. -/
def Obligations.CommandsIgnoreWhatFollows : Prop :=
  ∀ (i : Instr) (s s' : State), s.regs = s'.regs → beatsOf i ≤ s.samp.length →
    beatsOf i ≤ s'.samp.length → s.samp.take (beatsOf i) = s'.samp.take (beatsOf i) →
    ∃ (st : Status) (d : F64) (r : Regs), exec i s = .next (s.answered (beatsOf i) st d r) ∧
      exec i s' = .next (s'.answered (beatsOf i) st d r)

/-! ### The invariant -/

/-- Rule R35 and the forms the model keeps: every step from a state that meets the invariant gives a state
that meets it. -/
def Obligations.StepKeepsTheInvariant : Prop :=
  ∀ s t : State, s.Inv → step s = .next t → t.Inv

/-- The state after reset meets the invariant (it rests on the reset values the model chose, log entry
4). -/
def Obligations.ResetMeetsTheInvariant : Prop := State.reset.Inv

/-- Whatever the host does between steps keeps the invariant. -/
def Obligations.HostActionsKeepTheInvariant : Prop :=
  ∀ (s : State) (a : HostAction), s.Inv → (s.host a).Inv

/-! ### CREATE -/

/-- Rule R34: a CREATE in the Uninitialized state with 1 to `NCH_MAX` channels and a supported rate
succeeds and leaves the state of the rule's table. -/
def Obligations.CreateStartsASession : Prop :=
  ∀ (s : State) (channels : Int) (rate : Nat), s.regs.life = .uninitialized → 1 ≤ channels →
    channels ≤ Config.nchMax → rate = 44100 ∨ rate = 48000 →
    ∃ r : Regs, exec (.create channels rate) s = .next (s.answered 0 .ok 0#64 r) ∧
      r.life = .ready ∧ (r.nch.toNat : Int) = channels ∧
      r.rate = (if rate = 44100 then .hz44100 else .hz48000) ∧ r.pos = 0#4 ∧
      (∀ c k : Nat, (c : Int) < channels → k < 12 → r.histAt c k = 0#64 ∧ r.maxAt c = 0#64) ∧
      (∀ c k : Nat, channels ≤ c → k < 12 →
        r.histAt c k = s.regs.histAt c k ∧ r.maxAt c = s.regs.maxAt c)

/-- Rule R111: the errors of CREATE in their order, each leaving the state unchanged. -/
def Obligations.CreateChecksInOrder : Prop :=
  ∀ (s : State) (channels : Int) (rate : Nat),
    (s.regs.life ≠ .uninitialized →
      exec (.create channels rate) s = .next (s.answered 0 .invalidState 0#64 s.regs)) ∧
    (s.regs.life = .uninitialized → channels ≤ 0 ∨ (rate ≠ 44100 ∧ rate ≠ 48000) →
      exec (.create channels rate) s = .next (s.answered 0 .invalidArgument 0#64 s.regs)) ∧
    (s.regs.life = .uninitialized → 1 ≤ channels → rate = 44100 ∨ rate = 48000 →
      Config.nchMax < channels →
      exec (.create channels rate) s = .next (s.answered 0 .allocationFailure 0#64 s.regs))

/-! ### PUSH -/

/-- Rule R216 (a): a PUSH whose beats are missing does nothing (that waiting is a step that changes nothing
is the model's, log entry 5). -/
def Obligations.PushWaitsForItsBeats : Prop :=
  ∀ f ∈ pushForms, ∀ (n avail : Nat) (s : State), s.samp.length < avail →
    exec (f.1 n avail) s = .next s

/-- Rule R121: the errors of a PUSH in their order, each leaving the state unchanged and taking the
beats; where neither applies the PUSH succeeds, whatever the samples are. -/
def Obligations.PushChecksInOrder : Prop :=
  ∀ f ∈ pushForms, ∀ (n avail : Nat) (s : State), avail ≤ s.samp.length →
    (s.regs.life ≠ .ready →
      exec (f.1 n avail) s = .next (s.answered avail .invalidState 0#64 s.regs)) ∧
    (s.regs.life = .ready → 0 < n → avail < s.regs.nch.toNat * n →
      exec (f.1 n avail) s = .next (s.answered avail .invalidArgument 0#64 s.regs)) ∧
    (s.regs.life = .ready → n = 0 ∨ s.regs.nch.toNat * n ≤ avail →
      ∃ r : Regs, exec (f.1 n avail) s = .next (s.answered avail .ok 0#64 r))

/-- Rule R131: a PUSH of no frames in Ready succeeds, changes no register and drops its beats, whatever
their number; outside Ready it is an InvalidState. -/
def Obligations.PushOfNoFrames : Prop :=
  ∀ f ∈ pushForms, ∀ (avail : Nat) (s : State), avail ≤ s.samp.length →
    (s.regs.life = .ready → exec (f.1 0 avail) s = .next (s.answered avail .ok 0#64 s.regs)) ∧
    (s.regs.life ≠ .ready →
      exec (f.1 0 avail) s = .next (s.answered avail .invalidState 0#64 s.regs))

/-- Rules R24, R123, R127, R132: a PUSH in Ready whose beats are there and suffice succeeds; the cursor
has moved once a frame; `LIFE`, `NCH` and `RATE` are unchanged, and so is every cell of a channel from
`NCH` on. -/
def Obligations.PushAppliesItsFrames : Prop :=
  ∀ f ∈ pushForms, ∀ (n avail : Nat) (s : State), s.regs.life = .ready →
    avail ≤ s.samp.length → s.regs.nch.toNat * n ≤ avail →
    ∃ r : Regs, exec (f.1 n avail) s = .next (s.answered avail .ok 0#64 r) ∧
      r.life = .ready ∧ r.nch = s.regs.nch ∧ r.rate = s.regs.rate ∧
      r.pos.toNat = (if n = 0 then s.regs.pos.toNat else (s.regs.pos.toNat + n) % 12) ∧
      ∀ c k, s.regs.nch.toNat ≤ c → k < 12 →
        r.histAt c k = s.regs.histAt c k ∧ r.maxAt c = s.regs.maxAt c

/-- Rules R36, R51, R124: after a PUSH of `n` frames the ring of channel `c` holds, at the slot `j` behind
the newest, the element of frame n-1-j and channel `c`, read as its command reads it; slots older than
the pushed frames are unchanged. -/
def Obligations.PushFillsTheRing : Prop :=
  ∀ f ∈ pushForms, ∀ (n avail : Nat) (s : State), s.regs.life = .ready →
    avail ≤ s.samp.length → s.regs.nch.toNat * n ≤ avail →
    ∃ r : Regs, exec (f.1 n avail) s = .next (s.answered avail .ok 0#64 r) ∧
      ∀ c j, c < s.regs.nch.toNat → j < 12 →
        r.histAt c ((s.regs.pos.toNat + n + 11 - j) % 12) =
          if j < n then f.2 (s.samp.getD (s.regs.nch.toNat * (n - 1 - j) + c) 0#64)
          else s.regs.histAt c ((s.regs.pos.toNat + n + 11 - j) % 12)

/-- Rule R124: a PUSH of one frame writes, in the ring of each channel, the slot at the cursor and no
other history cell. -/
def Obligations.FrameWritesOneSlotPerChannel : Prop :=
  ∀ f ∈ pushForms, ∀ (avail : Nat) (s : State), s.regs.life = .ready → s.regs.pos.toNat < 12 →
    avail ≤ s.samp.length → s.regs.nch.toNat ≤ avail →
    ∃ r : Regs, exec (f.1 1 avail) s = .next (s.answered avail .ok 0#64 r) ∧
      ∀ c k, k < 12 → r.histAt c k = if c < s.regs.nch.toNat ∧ k = s.regs.pos.toNat
        then f.2 (s.samp.getD c 0#64) else s.regs.histAt c k

/-- Rules R24, R36: the cursor and the rings hold the frames of the session: after CREATE those of no
frame; after a PUSH that succeeds with its frames added, each element in its place of the sample buffer
(rule R51); and as before after every command that is no PUSH and no DESTROY. -/
def Obligations.RingHoldsTheNewestFrames : Prop :=
  (∀ (s : State) (channels : Int) (rate : Nat) (sample : Nat → Nat → F64),
    s.regs.life = .uninitialized → 1 ≤ channels → channels ≤ Config.nchMax →
    rate = 44100 ∨ rate = 48000 →
    ∃ r : Regs, exec (.create channels rate) s = .next (s.answered 0 .ok 0#64 r) ∧
      r.holdsFrames 0 sample) ∧
  (∀ f ∈ pushForms, ∀ (n avail frames : Nat) (s : State) (sample : Nat → Nat → F64),
    s.regs.life = .ready → avail ≤ s.samp.length → s.regs.nch.toNat * n ≤ avail →
    s.regs.holdsFrames frames sample →
    ∃ r : Regs, exec (f.1 n avail) s = .next (s.answered avail .ok 0#64 r) ∧
      r.holdsFrames (frames + n) fun j c => if j < frames then sample j c
        else f.2 (s.samp.getD (s.regs.nch.toNat * (j - frames) + c) 0#64)) ∧
  (∀ (i : Instr) (frames : Nat) (s t : State) (sample : Nat → Nat → F64), s.regs.life = .ready →
    s.regs.holdsFrames frames sample → (∀ f ∈ pushForms, ∀ n avail, i ≠ f.1 n avail) →
    i ≠ .destroy → exec i s = .next t → t.regs.holdsFrames frames sample)

/-- Rules R125, R126: in a PUSH of one frame, `acc p i` is the accumulator of phase `p` before tap `i`: it
starts at +0.0, and the taps 0 to 11 follow in that order, each adding one rounded product of its
coefficient and the sample `i` frames back in one rounded sum. After the frame the maximum of channel
`c` has been compared with the absolute values of the four results in order; it is the old one or one
of those that is no NaN, and neither the old one nor any of those exceeds it. A maximum of a channel
from `NCH` on is not touched. -/
def Obligations.OneFrameRaisesTheMaxima : Prop :=
  ∀ f ∈ pushForms, ∀ (avail : Nat) (s : State), s.regs.life = .ready →
    avail ≤ s.samp.length → s.regs.nch.toNat ≤ avail →
    ∃ r : Regs, exec (f.1 1 avail) s = .next (s.answered avail .ok 0#64 r) ∧
      (∀ c, s.regs.nch.toNat ≤ c → r.maxAt c = s.regs.maxAt c) ∧
      ∀ c, c < s.regs.nch.toNat → ∃ acc : Nat → Nat → F64,
        (∀ p, p < 4 → acc p 0 = 0#64) ∧
        (∀ p i, p < 4 → i < 12 → acc p (i + 1) = f64Add (acc p i)
          (f64Mul (coefOf s.regs.rate p i) (r.histAt c ((s.regs.pos.toNat + 12 - i) % 12)))) ∧
        let y := fun p => acc p 12
        let larger := fun (m v : F64) => if f64Gt (f64Abs v) m then f64Abs v else m
        r.maxAt c = larger (larger (larger (larger (s.regs.maxAt c) (y 0)) (y 1)) (y 2)) (y 3) ∧
        (r.maxAt c = s.regs.maxAt c ∨
          ∃ p, p < 4 ∧ F64.isNaN (y p) = false ∧ r.maxAt c = f64Abs (y p)) ∧
        f64Gt (s.regs.maxAt c) (r.maxAt c) = false ∧
        ∀ p, p < 4 → f64Gt (f64Abs (y p)) (r.maxAt c) = false

/-- Rule R161: pushing frames in two PUSH commands gives the state that pushing them in one gives, also
where each chunk, and the whole, comes in a representation of its own of the same values. -/
def Obligations.ChunkingInvariance : Prop :=
  ∀ f ∈ pushForms, ∀ g ∈ pushForms, ∀ h ∈ pushForms,
    ∀ (s : State) (n m : Nat) (e1 e1' e2 e2' rest : List Beat),
    s.regs.life = .ready → e1.length = s.regs.nch.toNat * n → e2.length = s.regs.nch.toNat * m →
    e1.map f.2 = e1'.map h.2 → e2.map g.2 = e2'.map h.2 →
    ∃ t1 t2 t : State,
      exec (f.1 n e1.length) { s with samp := e1 ++ (e2 ++ rest) } = .next t1 ∧
      exec (g.1 m e2.length) t1 = .next t2 ∧
      exec (h.1 (n + m) (e1.length + e2.length)) { s with samp := e1' ++ (e2' ++ rest) } = .next t ∧
      t2.regs = t.regs ∧ t2.samp = t.samp

/-- Rule R167: pushes whose elements normalise to the same values give the same state, whatever the
representation; in particular a binary32 is its widened value, and 2147483647, −2147483647 and 0 are
1.0, −1.0 and +0.0, as the binary32 numbers 1.0, −1.0 and +0.0 are. -/
def Obligations.EqualElementsGiveEqualStates : Prop :=
  (∀ f ∈ pushForms, ∀ g ∈ pushForms, ∀ (n a a' : Nat) (s s' : State), s.regs = s'.regs →
    s.regs.life = .ready → a ≤ s.samp.length → a' ≤ s'.samp.length →
    s.regs.nch.toNat * n ≤ a → s.regs.nch.toNat * n ≤ a' →
    (∀ e, e < s.regs.nch.toNat * n → f.2 (s.samp.getD e 0#64) = g.2 (s'.samp.getD e 0#64)) →
    ∃ r : Regs, exec (f.1 n a) s = .next (s.answered a .ok 0#64 r) ∧
      exec (g.1 n a') s' = .next (s'.answered a' .ok 0#64 r)) ∧
  (∀ b : Beat, normF32 b = normF64 (f32ToF64 (BitVec.ofNat 32 b.toNat))) ∧
  (∀ hi : BitVec 32, normI32 (hi ++ 0x7FFFFFFF#32) = 0x3FF0000000000000#64 ∧
    normI32 (hi ++ 0x80000001#32) = 0xBFF0000000000000#64 ∧ normI32 (hi ++ 0#32) = 0#64 ∧
    normF32 (hi ++ 0x3F800000#32) = 0x3FF0000000000000#64 ∧
    normF32 (hi ++ 0xBF800000#32) = 0xBFF0000000000000#64 ∧ normF32 (hi ++ 0#32) = 0#64)

/-- Rules R93, R122: how a beat becomes an element: a PUSH.F64 takes it bit for bit, a PUSH.F32 widens its
low 32 bits, a PUSH.I32 divides the integer in its low 32 bits by 2147483647.0. -/
def Obligations.BeatsAreNormalised : Prop :=
  (∀ b : Beat, normF64 b = b) ∧
  (∀ (hi : BitVec 32) (lo : F32), normF32 (hi ++ lo) = f32ToF64 lo) ∧
  (∀ hi lo : BitVec 32, normI32 (hi ++ lo) = f64Div (i32ToF64 lo) 0x41DFFFFFFFC00000#64) ∧
  F64.isFinite 0x41DFFFFFFFC00000#64 = true ∧
  F64.value 0x41DFFFFFFFC00000#64 = 2147483647 * ((2 ^ 1074 : Nat) : Int)

/-- Rule R138: the corner values of the integer normalisation, whatever the ignored bits. -/
def Obligations.IntegerNormalisationCorners : Prop :=
  ∀ x ∈ [(0x7FFFFFFF#32, 0x3FF0000000000000#64), (0x80000001#32, 0xBFF0000000000000#64),
      (0x80000000#32, 0xBFF0000000200000#64), (0x00000000#32, 0x0000000000000000#64),
      (0x00000001#32, 0x3E00000000200000#64), (0xFFFFFFFF#32, 0xBE00000000200000#64),
      (0x40000000#32, 0x3FE0000000200000#64)],
    ∀ hi : BitVec 32, normI32 (hi ++ x.1) = x.2

/-- Rule R162: no command executed in a Ready state lowers a maximum, and no maximum is a NaN before or
after. -/
def Obligations.MaximaNeverDecrease : Prop :=
  ∀ (i : Instr) (s t : State), s.Inv → s.regs.life = .ready → exec i s = .next t →
    ∀ c, c < s.regs.nch.toNat → F64.isNaN (s.regs.maxAt c) = false ∧
      F64.isNaN (t.regs.maxAt c) = false ∧ f64Gt (s.regs.maxAt c) (t.regs.maxAt c) = false

/-- Rule R168: what a PUSH does to a channel depends on the rate, the cursor, that channel's own cells and
its own elements alone: two blocks, of any channel counts, and channels of theirs, that agree in these
agree in that channel's ring and maximum afterwards. -/
def Obligations.ChannelsAreIndependent : Prop :=
  ∀ f ∈ pushForms, ∀ g ∈ pushForms, ∀ (n a a' c c' : Nat) (s s' : State),
    s.regs.life = .ready → s'.regs.life = .ready → s.regs.rate = s'.regs.rate →
    s.regs.pos = s'.regs.pos → a ≤ s.samp.length → a' ≤ s'.samp.length →
    s.regs.nch.toNat * n ≤ a → s'.regs.nch.toNat * n ≤ a' →
    c < s.regs.nch.toNat → c' < s'.regs.nch.toNat →
    (∀ k, k < 12 → s.regs.histAt c k = s'.regs.histAt c' k) →
    s.regs.maxAt c = s'.regs.maxAt c' →
    (∀ j, j < n → f.2 (s.samp.getD (s.regs.nch.toNat * j + c) 0#64) =
      g.2 (s'.samp.getD (s'.regs.nch.toNat * j + c') 0#64)) →
    ∃ r r' : Regs, exec (f.1 n a) s = .next (s.answered a .ok 0#64 r) ∧
      exec (g.1 n a') s' = .next (s'.answered a' .ok 0#64 r') ∧ r.pos = r'.pos ∧
      (∀ k, k < 12 → r.histAt c k = r'.histAt c' k) ∧ r.maxAt c = r'.maxAt c'

/-- Rule R163: a fresh session is silent; pushing only zeros to a silent block leaves it silent, and so does
every command that is no PUSH and no DESTROY; READMAX of any channel of a silent block returns 0. -/
def Obligations.ZeroInputKeepsZeroMaxima : Prop :=
  (∀ (s : State) (channels : Int) (rate : Nat), s.regs.life = .uninitialized → 1 ≤ channels →
    channels ≤ Config.nchMax → rate = 44100 ∨ rate = 48000 →
    ∃ r : Regs, exec (.create channels rate) s = .next (s.answered 0 .ok 0#64 r) ∧ r.silent) ∧
  (∀ f ∈ pushForms, ∀ (n avail : Nat) (s : State), s.regs.silent → avail ≤ s.samp.length →
    s.regs.nch.toNat * n ≤ avail →
    (∀ e, e < s.regs.nch.toNat * n → F64.isZero (f.2 (s.samp.getD e 0#64)) = true) →
    ∃ r : Regs, exec (f.1 n avail) s = .next (s.answered avail .ok 0#64 r) ∧ r.silent) ∧
  (∀ (i : Instr) (s t : State), s.regs.silent → (∀ f ∈ pushForms, ∀ n avail, i ≠ f.1 n avail) →
    i ≠ .destroy → exec i s = .next t → t.regs.silent) ∧
  (∀ (s : State) (channel : Int), s.regs.silent → 0 ≤ channel → channel < s.regs.nch.toNat →
    exec (.readmax channel) s = .next (s.answered 0 .ok 0#64 s.regs))

/-- Rule R164: the first frame of a one-channel session being 1.0, the maximum is the largest of the four
|`COEF_r[p][0]`|, which is the largest of the four |`COEF_r[p][11]`|. -/
def Obligations.ImpulseFirstFrame : Prop :=
  ∀ f ∈ pushForms, ∀ (s : State) (rate : Nat) (b : Beat) (rest : List Beat),
    s.regs.life = .uninitialized → rate = 44100 ∨ rate = 48000 → s.samp = b :: rest →
    f.2 b = 0x3FF0000000000000#64 →
    ∃ t1 t2 : State, exec (.create 1 rate) s = .next t1 ∧ exec (f.1 1 1) t1 = .next t2 ∧
      let tbl := if rate = 44100 then coef44100 else coef48000
      isLargestCoef (fun p _ => tbl p 0) 0 (t2.regs.maxAt 0) ∧
      isLargestCoef (fun p _ => tbl p 11) 0 (t2.regs.maxAt 0)

/-- Rule R165: an impulse of 1.0 followed by `k` zero frames: the maximum is the largest |`COEF_r[p][i]`|
over all phases and the taps 0 to min(k, 11). -/
def Obligations.ImpulseFlushedThroughTheRing : Prop :=
  ∀ f ∈ pushForms, ∀ (s : State) (rate k : Nat) (b : Beat) (zeros rest : List Beat),
    s.regs.life = .uninitialized → rate = 44100 ∨ rate = 48000 →
    s.samp = b :: (zeros ++ rest) → zeros.length = k → f.2 b = 0x3FF0000000000000#64 →
    (∀ z ∈ zeros, F64.isZero (f.2 z) = true) →
    ∃ t1 t2 : State, exec (.create 1 rate) s = .next t1 ∧
      exec (f.1 (k + 1) (k + 1)) t1 = .next t2 ∧
      isLargestCoef (if rate = 44100 then coef44100 else coef48000) (min k 11) (t2.regs.maxAt 0)

/-- Rule R133: while a NaN is in a channel's ring after step 1 of a frame, the frame leaves that channel's
maximum as it was. -/
def Obligations.NaNHoldsTheMaximum : Prop :=
  ∀ f ∈ pushForms, ∀ (avail : Nat) (s : State), s.regs.life = .ready →
    avail ≤ s.samp.length → s.regs.nch.toNat ≤ avail →
    ∃ r : Regs, exec (f.1 1 avail) s = .next (s.answered avail .ok 0#64 r) ∧
      ∀ c, c < s.regs.nch.toNat → (∃ k, k < 12 ∧ F64.isNaN (r.histAt c k) = true) →
        r.maxAt c = s.regs.maxAt c

/-- Rule R134: a maximum of +infinity stays for the rest of the session. (That it also stays after the
DESTROY that ends the session is the model's choice, log entry 12.) -/
def Obligations.InfinityStays : Prop :=
  ∀ (i : Instr) (s t : State) (c : Nat), s.regs.life = .ready → exec i s = .next t →
    s.regs.maxAt c = 0x7FF0000000000000#64 → t.regs.maxAt c = 0x7FF0000000000000#64

/-- Rule R136: pairing tap i with the sample 11-i frames back makes phase p compute what phase 3-p
computes, and the maximum after the four comparisons is the same. -/
def Obligations.ReversedPairingGivesTheSameMaxima : Prop :=
  ∀ (rate : Rate) (w : Nat → F64) (m : F64),
    let y := fun p => dot12 (coefOf rate p) w
    let y' := fun p => dot12 (fun i => coefOf rate p (11 - i)) w
    let larger := fun (m v : F64) => if f64Gt (f64Abs v) m then f64Abs v else m
    (∀ p, p < 4 → y' p = y (3 - p)) ∧
    larger (larger (larger (larger m (y' 0)) (y' 1)) (y' 2)) (y' 3) =
      larger (larger (larger (larger m (y 0)) (y 1)) (y 2)) (y 3)

/-- Rule R52: in a frame the write goes to slot `POS` and tap i reads slot (POS - i) mod 12, never
negative; tap 0 reads the slot written, tap 11 the slot after it. -/
def Obligations.RingSlotsWrapAround : Prop :=
  ∀ r : Regs, r.pos.toNat < 12 →
    (∀ (tbl : CoefTable) (c : Nat) (v : F64), (r.pushSample tbl c v).histAt c r.pos.toNat = v) ∧
    (∀ (tbl : CoefTable) (c p : Nat),
      r.phaseResult tbl c p = dot12 (tbl p) fun i => r.histAt c (r.tapSlot i)) ∧
    (∀ i : Nat, i < 12 → (r.tapSlot i : Int) = ((r.pos.toNat : Int) - i) % 12) ∧
    r.tapSlot 0 = r.pos.toNat ∧ r.tapSlot 11 = (r.pos.toNat + 1) % 12 ∧
    (r.pos = 3#4 → (List.range 12).map r.tapSlot = [3, 2, 1, 0, 11, 10, 9, 8, 7, 6, 5, 4])

/-! ### The coefficient store -/

/-- Rules R9, R10: both tables obey the symmetry law, every coefficient is finite, and the tables differ.
(The model makes them so from its open parameters, log entry 2.) -/
def Obligations.CoefficientTablesObeyTheirConstraints : Prop :=
  (∀ (rate : Rate) (i : Nat), i < 12 → coefOf rate 2 i = coefOf rate 1 (11 - i) ∧
    coefOf rate 3 i = coefOf rate 0 (11 - i)) ∧
  (∀ (rate : Rate) (p i : Nat), F64.isFinite (coefOf rate p i) = true) ∧
  (∃ p i, p < 4 ∧ i < 12 ∧ coefOf .hz44100 p i ≠ coefOf .hz48000 p i)

/-! ### Arithmetic -/

/-- Rule R14: widening a binary32 and converting a 32-bit integer are exact. Values are in units of
2^-1074, a unit of binary32 being 2^925 of them; a finite binary32 keeps its sign, an infinity becomes
the infinity of its sign, a NaN a NaN. -/
def Obligations.ConversionsAreExact : Prop :=
  (∀ s : F32, s.toNat % 2 ^ 31 < 0x7F800000 → F64.isFinite (f32ToF64 s) = true ∧
    F64.sign (f32ToF64 s) = s.msb ∧
    F64.value (f32ToF64 s) =
      (if s.msb then -1 else 1) * ((F32.units (s.toNat % 2 ^ 31) * 2 ^ 925 : Nat) : Int)) ∧
  (f32ToF64 0x7F800000#32 = 0x7FF0000000000000#64 ∧ f32ToF64 0xFF800000#32 = 0xFFF0000000000000#64) ∧
  (∀ s : F32, 0x7F800000 < s.toNat % 2 ^ 31 → F64.isNaN (f32ToF64 s) = true) ∧
  (∀ n : BitVec 32, F64.isFinite (i32ToF64 n) = true ∧
    F64.value (i32ToF64 n) = n.toInt * ((2 ^ 1074 : Nat) : Int))

/-- Rule R14: of finite operands the product, the sum and the quotient (of a divisor that is no zero),
where finite, are the values nearest to the exact ones, and where another value is as near the last bit
of the result is 0. Values are in units of 2^-1074; the exact product is in units of 2^-2148 and the
quotient is compared after multiplication by the divisor. -/
def Obligations.ArithmeticRoundsToNearestEven : Prop :=
  ∀ a b x : F64, F64.isFinite a = true → F64.isFinite b = true → F64.isFinite x = true →
    let unit : Int := ((2 ^ 1074 : Nat) : Int)
    let va := F64.value a
    let vb := F64.value b
    let vx := F64.value x
    (F64.isFinite (f64Mul a b) = true →
      |va * vb - unit * F64.value (f64Mul a b)| ≤ |va * vb - unit * vx| ∧
      (|va * vb - unit * F64.value (f64Mul a b)| = |va * vb - unit * vx| →
        vx ≠ F64.value (f64Mul a b) → (f64Mul a b).getLsbD 0 = false)) ∧
    (F64.isFinite (f64Add a b) = true →
      |va + vb - F64.value (f64Add a b)| ≤ |va + vb - vx| ∧
      (|va + vb - F64.value (f64Add a b)| = |va + vb - vx| →
        vx ≠ F64.value (f64Add a b) → (f64Add a b).getLsbD 0 = false)) ∧
    (F64.isZero b = false → F64.isFinite (f64Div a b) = true →
      |va * unit - vb * F64.value (f64Div a b)| ≤ |va * unit - vb * vx| ∧
      (|va * unit - vb * F64.value (f64Div a b)| = |va * unit - vb * vx| →
        vx ≠ F64.value (f64Div a b) → (f64Div a b).getLsbD 0 = false))

/-- Rules R14, R134: a product or sum of finite operands is never a NaN, and it is an infinity exactly
where the exact value is at least halfway from the largest finite value to 2^1024. -/
def Obligations.OverflowGoesToInfinity : Prop :=
  ∀ a b : F64, F64.isFinite a = true → F64.isFinite b = true →
    let limit : Nat := (2 ^ 54 - 1) * 2 ^ 2044
    F64.isNaN (f64Mul a b) = false ∧ F64.isNaN (f64Add a b) = false ∧
    (F64.isInf (f64Mul a b) = true ↔
      limit * 2 ^ 1074 ≤ (F64.value a * F64.value b).natAbs) ∧
    (F64.isInf (f64Add a b) = true ↔ limit ≤ (F64.value a + F64.value b).natAbs)

/-- Rule R14: the comparison is that of the values: the zeros are equal, +infinity is above and -infinity
below every other value, and a NaN makes it false; the absolute value clears bit 63. -/
def Obligations.ComparisonFollowsTheValues : Prop :=
  (∀ a b : F64, F64.isFinite a = true → F64.isFinite b = true →
    (f64Gt a b = true ↔ F64.value b < F64.value a)) ∧
  (∀ a b : F64, F64.isNaN a = true ∨ F64.isNaN b = true → f64Gt a b = false) ∧
  (∀ b : F64, F64.isNaN b = false →
    (f64Gt 0x7FF0000000000000#64 b = true ↔ b ≠ 0x7FF0000000000000#64) ∧
    (f64Gt b 0xFFF0000000000000#64 = true ↔ b ≠ 0xFFF0000000000000#64) ∧
    f64Gt b 0x7FF0000000000000#64 = false ∧ f64Gt 0xFFF0000000000000#64 b = false) ∧
  (∀ a : F64, (f64Abs a).toNat = a.toNat % 2 ^ 63)

/-- Rules R14, R133, R134: a NaN operand gives a NaN; an infinity times a value that is no zero is an
infinity of the product's sign, times a zero a NaN; infinities of opposite signs add to a NaN, and an
infinity and any other value to that infinity. -/
def Obligations.SpecialOperandsFollowIEEE : Prop :=
  ∀ a b : F64,
    (F64.isNaN a = true ∨ F64.isNaN b = true → F64.isNaN (f64Mul a b) = true ∧
      F64.isNaN (f64Add a b) = true ∧ F64.isNaN (f64Div a b) = true ∧
      F64.isNaN (f64Abs a) = F64.isNaN a) ∧
    (F64.isInf a = true → F64.isNaN b = false → F64.isZero b = false →
      F64.isInf (f64Mul a b) = true ∧ F64.sign (f64Mul a b) = (F64.sign a != F64.sign b) ∧
      f64Mul b a = f64Mul a b) ∧
    (F64.isInf a = true → F64.isZero b = true →
      F64.isNaN (f64Mul a b) = true ∧ F64.isNaN (f64Mul b a) = true) ∧
    (F64.isInf a = true → F64.isInf b = true → F64.sign a ≠ F64.sign b →
      F64.isNaN (f64Add a b) = true) ∧
    (F64.isInf a = true → F64.isNaN b = false → F64.isInf b = false ∨ F64.sign a = F64.sign b →
      f64Add a b = a ∧ f64Add b a = a)

/-! ### READMAX and DESTROY -/

/-- Rule R151: READMAX outside Ready is an InvalidState, of a channel out of range an InvalidArgument, and
else returns the 64 bits of `MAX[channel]`; no register changes in any case. -/
def Obligations.ReadmaxReturnsTheMaximum : Prop :=
  ∀ (s : State) (channel : Int),
    (s.regs.life ≠ .ready →
      exec (.readmax channel) s = .next (s.answered 0 .invalidState 0#64 s.regs)) ∧
    (s.regs.life = .ready → channel < 0 ∨ (s.regs.nch.toNat : Int) ≤ channel →
      exec (.readmax channel) s = .next (s.answered 0 .invalidArgument 0#64 s.regs)) ∧
    (s.regs.life = .ready → 0 ≤ channel → channel < s.regs.nch.toNat →
      exec (.readmax channel) s =
        .next (s.answered 0 .ok (s.regs.maxAt channel.toNat) s.regs))

/-- Rule R156: DESTROY of a Destroyed block is an InvalidState; of an Uninitialized one it succeeds and
changes nothing; of a Ready one it succeeds and makes `LIFE` Destroyed. -/
def Obligations.DestroyEndsTheSession : Prop :=
  ∀ s : State,
    (s.regs.life = .destroyed →
      exec .destroy s = .next (s.answered 0 .invalidState 0#64 s.regs)) ∧
    (s.regs.life = .uninitialized →
      exec .destroy s = .next (s.answered 0 .ok 0#64 s.regs)) ∧
    (s.regs.life = .ready →
      ∃ r : Regs, exec .destroy s = .next (s.answered 0 .ok 0#64 r) ∧ r.life = .destroyed)
end

