-- ==== Sys2Proof/Laws/Decode.lean ====
section
/-! SUPPORT. The fields of a command word as numbers, what a word is made of, and what the decoder can
answer, said once. -/

namespace Sys2Proof

/-- A concatenation as a number. -/
theorem append_toNat {n m : Nat} (a : BitVec n) (b : BitVec m) :
    (a ++ b).toNat = a.toNat * 2 ^ m + b.toNat := by
  rw [BitVec.toNat_append, Nat.shiftLeft_eq, ← Nat.shiftLeft_eq,
      Nat.shiftLeft_add_eq_or_of_lt b.isLt]

/-- Equal concatenations have equal parts. -/
theorem append_eq_append_iff {n m : Nat} {a a' : BitVec n} {b b' : BitVec m} :
    a ++ b = a' ++ b' ↔ a = a' ∧ b = b' := by
  constructor
  · intro h
    have := congrArg BitVec.toNat h
    rw [append_toNat, append_toNat] at this
    have h1 := b.isLt; have h2 := b'.isLt
    have hp : 0 < 2^m := by positivity
    constructor <;> apply BitVec.eq_of_toNat_eq
    · have e := congrArg (· / 2^m) this
      simp only [Nat.mul_comm _ (2^m), Nat.mul_add_div hp, Nat.div_eq_of_lt h1,
          Nat.div_eq_of_lt h2] at e
      simpa using e
    · have e := congrArg (· % 2^m) this
      simpa [Nat.mul_comm _ (2^m), Nat.mul_add_mod, Nat.mod_eq_of_lt h1,
          Nat.mod_eq_of_lt h2] using e
  · rintro ⟨rfl, rfl⟩; rfl

theorem opcodeField_toNat (cw : Word) : (opcodeField cw).toNat = cw.toNat / 2^56 % 2^8 := by
  simp [opcodeField, BitVec.extractLsb'_toNat, Nat.shiftRight_eq_div_pow]

theorem signedField_toNat (cw : Word) : (signedField cw).toNat = cw.toNat / 2^40 % 2^16 := by
  simp [signedField, BitVec.extractLsb'_toNat, Nat.shiftRight_eq_div_pow]

theorem frameCountField_toNat (cw : Word) : (frameCountField cw).toNat = cw.toNat / 2^32 % 2^24 :=
    by
  simp [frameCountField, BitVec.extractLsb'_toNat, Nat.shiftRight_eq_div_pow]

theorem lowField_toNat (cw : Word) : (lowField cw).toNat = cw.toNat % 2^32 := by
  simp [lowField, BitVec.extractLsb'_toNat, Nat.shiftRight_eq_div_pow]

theorem mbzC_toNat (cw : Word) : (mbzC cw).toNat = cw.toNat / 2^32 % 2^8 := by
  simp [mbzC, BitVec.extractLsb'_toNat, Nat.shiftRight_eq_div_pow]

theorem mbzR_toNat (cw : Word) : (mbzR cw).toNat = cw.toNat % 2^40 := by
  simp [mbzR, BitVec.extractLsb'_toNat, Nat.shiftRight_eq_div_pow]

theorem mbzZ_toNat (cw : Word) : (mbzZ cw).toNat = cw.toNat % 2^56 := by
  simp [mbzZ, BitVec.extractLsb'_toNat, Nat.shiftRight_eq_div_pow]

/-- A word is its opcode, its signed field, the must-be-zero field of format C and its low field. -/
theorem word_eq_fields (cw : Word) : cw = opcodeField cw ++
    (signedField cw ++ (mbzC cw ++ lowField cw)) := by
  apply BitVec.eq_of_toNat_eq
  erw [append_toNat, append_toNat, append_toNat]
  rw [opcodeField_toNat, signedField_toNat, mbzC_toNat, lowField_toNat]
  have := cw.isLt
  omega

theorem encodeP_toNat (op : BitVec 8) {n a : Nat} (hn : n < 2^24) (ha : a < 2^32) :
    (encodeP op n a).toNat = op.toNat * 2^56 + n * 2^32 + a := by
  unfold encodeP
  erw [append_toNat, append_toNat]
  simp only [BitVec.toNat_ofNat]; omega

/-- Everything the decoder can answer (rules R83 to R87). -/
theorem decode_cases {cw : Word} {i : Instr} (h : decode cw = .ok i) :
    (opcodeField cw = 1#8 ∧ mbzC cw = 0 ∧ i = .create (signedField cw).toInt (lowField cw).toNat) ∨
    (opcodeField cw = 0x10#8 ∧ i = .pushF64 (frameCountField cw).toNat (lowField cw).toNat) ∨
    (opcodeField cw = 0x11#8 ∧ i = .pushF32 (frameCountField cw).toNat (lowField cw).toNat) ∨
    (opcodeField cw = 0x12#8 ∧ i = .pushI32 (frameCountField cw).toNat (lowField cw).toNat) ∨
    (opcodeField cw = 0x20#8 ∧ mbzR cw = 0 ∧ i = .readmax (signedField cw).toInt) ∨
    (opcodeField cw = 0x30#8 ∧ mbzZ cw = 0 ∧ i = .destroy) := by
  unfold decode at h
  simp only at h
  split at h
  · split at h
    · cases h; simp_all
    · cases h
  split at h
  · cases h; simp_all
  split at h
  · cases h; simp_all
  split at h
  · cases h; simp_all
  split at h
  · split at h
    · cases h; simp_all
    · cases h
  split at h
  · split at h
    · cases h; simp_all
    · cases h
  · cases h

end Sys2Proof
end

