-- ==== Sys2Proof/Laws/Float.lean ====
section
/-! SUPPORT. What the arithmetic primitives of 00_scope.md rule R14 do: packing, the one rounding, the
special cases, and the order of comparison. -/

namespace Sys2Proof.Machine

/-! ### Patterns -/

theorem F64.mag_lt (a : F64) : F64.mag a < 2 ^ 63 := Nat.mod_lt _ (by decide)

theorem F64.toNat_pack {m : Nat} (neg : Bool) (h : m < 2 ^ 63) :
    (F64.pack neg m).toNat = (if neg then 2 ^ 63 else 0) + m := by
  unfold F64.pack
  rw [BitVec.toNat_ofNat, Nat.mod_eq_of_lt]
  split <;> omega

theorem F64.mag_pack {m : Nat} (neg : Bool) (h : m < 2 ^ 63) : F64.mag (F64.pack neg m) = m := by
  unfold F64.mag
  rw [F64.toNat_pack neg h]
  split <;> omega

theorem F64.sign_pack {m : Nat} (neg : Bool) (h : m < 2 ^ 63) : F64.sign (F64.pack neg m) = neg := by
  unfold F64.sign
  rw [BitVec.msb_eq_decide, F64.toNat_pack neg h]
  cases neg
  · simp; omega
  · simp

/-- A pattern is its sign and its magnitude. -/
theorem F64.pack_sign_mag (a : F64) : F64.pack (F64.sign a) (F64.mag a) = a := by
  apply BitVec.eq_of_toNat_eq
  rw [F64.toNat_pack _ (F64.mag_lt a)]
  unfold F64.sign F64.mag
  rw [BitVec.msb_eq_decide]
  have := a.isLt
  by_cases h : 2 ^ 63 ≤ a.toNat
  · simp only [h, decide_true, if_true]; omega
  · simp only [show (2 ^ (64 - 1) : Nat) = 2 ^ 63 from rfl, h, decide_false]; simp; omega

theorem F64.ext {a b : F64} (hs : F64.sign a = F64.sign b) (hm : F64.mag a = F64.mag b) : a = b := by
  rw [← F64.pack_sign_mag a, ← F64.pack_sign_mag b, hs, hm]

theorem F64.infMag_lt : F64.infMag < 2 ^ 63 := by decide

theorem f64Abs_toNat (a : F64) : (f64Abs a).toNat = F64.mag a := by
  unfold f64Abs F64.mag
  rw [BitVec.toNat_and, show (0x7FFFFFFFFFFFFFFF#64).toNat = 2 ^ 63 - 1 from rfl,
    Nat.and_two_pow_sub_one_eq_mod]

@[simp] theorem f64Abs_mag (a : F64) : F64.mag (f64Abs a) = F64.mag a := by
  have := F64.mag_lt a
  conv_lhs => unfold F64.mag
  rw [f64Abs_toNat]; omega

@[simp] theorem f64Abs_sign (a : F64) : F64.sign (f64Abs a) = false := by
  have := F64.mag_lt a
  unfold F64.sign
  rw [BitVec.msb_eq_decide, f64Abs_toNat]
  simp; omega

theorem f64Abs_eq_pack (a : F64) : f64Abs a = F64.pack false (F64.mag a) := by
  apply F64.ext <;> simp [F64.sign_pack _ (F64.mag_lt a), F64.mag_pack _ (F64.mag_lt a)]

theorem f64Abs_pack {m : Nat} (neg : Bool) (h : m < 2 ^ 63) :
    f64Abs (F64.pack neg m) = F64.pack false m := by
  rw [f64Abs_eq_pack, F64.mag_pack neg h]

@[simp] theorem f64Abs_isNaN (a : F64) : F64.isNaN (f64Abs a) = F64.isNaN a := by
  simp [F64.isNaN]

/-- A zero is +0.0 or −0.0. -/
theorem F64.isZero_iff (a : F64) : F64.isZero a = true ↔ a = 0#64 ∨ a = 0x8000000000000000#64 := by
  simp only [F64.isZero, decide_eq_true_eq]
  constructor
  · intro h
    rw [← F64.pack_sign_mag a, h]
    cases F64.sign a
    · exact Or.inl rfl
    · exact Or.inr rfl
  · rintro (rfl | rfl) <;> rfl

theorem F64.abs_of_isZero {a : F64} (h : F64.isZero a = true) : f64Abs a = 0#64 := by
  rcases (F64.isZero_iff a).1 h with rfl | rfl <;> rfl

/-- Each pattern is exactly one of finite, infinite, NaN. -/
theorem F64.isFinite_eq (a : F64) : F64.isFinite a = (!F64.isNaN a && !F64.isInf a) := by
  simp only [F64.isFinite, F64.isNaN, F64.isInf]
  rw [Bool.eq_iff_iff]; simp; omega

theorem F64.isNaN_of_finite {a : F64} (h : F64.isFinite a = true) : F64.isNaN a = false := by
  simp only [F64.isFinite, F64.isNaN, decide_eq_true_eq, decide_eq_false_iff_not] at *; omega

theorem F64.isInf_of_finite {a : F64} (h : F64.isFinite a = true) : F64.isInf a = false := by
  simp only [F64.isFinite, F64.isInf, decide_eq_true_eq, decide_eq_false_iff_not] at *; omega

theorem F64.finite_of_isZero {a : F64} (h : F64.isZero a = true) : F64.isFinite a = true := by
  simp only [F64.isFinite, F64.isZero, decide_eq_true_eq] at *
  rw [h]; decide

/-- Whatever the payload, it is a NaN. -/
theorem F64.isNaN_nanOf (raw : F64) : F64.isNaN (F64.nanOf raw) = true := by
  have h := Nat.mod_lt raw.toNat (show 2 ^ 52 - 1 > 0 by decide)
  have hm : F64.infMag + 1 + raw.toNat % (2 ^ 52 - 1) < 2 ^ 63 := by
    simp only [F64.infMag]; omega
  simp only [F64.isNaN, F64.nanOf, F64.mag_pack _ hm, decide_eq_true_eq]
  omega

/-! ### Units and the one rounding -/

/-- A magnitude pattern is `shift` binades and a significand. -/
theorem F64.units_shift {s M : Nat} (hM : M ≤ 2 ^ 53) (hs : s = 0 ∨ 2 ^ 52 ≤ M) :
    F64.units (s * 2 ^ 52 + M) = M * 2 ^ s := by
  unfold F64.units
  rcases Nat.lt_or_ge M (2 ^ 52) with hlt | hge
  · obtain rfl : s = 0 := by omega
    rw [if_pos (by omega)]; simp
  rcases Nat.lt_or_ge M (2 ^ 53) with hlt53 | hge53
  · rw [if_neg (by omega), show (s * 2 ^ 52 + M) / 2 ^ 52 - 1 = s by omega,
      show 2 ^ 52 + (s * 2 ^ 52 + M) % 2 ^ 52 = M by omega]
  · obtain rfl : M = 2 ^ 53 := by omega
    rw [if_neg (by omega), show (s * 2 ^ 52 + 2 ^ 53) / 2 ^ 52 - 1 = s + 1 by omega,
      show 2 ^ 52 + (s * 2 ^ 52 + 2 ^ 53) % 2 ^ 52 = 2 ^ 52 by omega, pow_succ]
    rw [show (2 : Nat) ^ 53 = 2 ^ 52 * 2 from rfl]; ring

/-- Every magnitude pattern is of that form. -/
theorem F64.exists_shift (m : Nat) :
    ∃ s M, m = s * 2 ^ 52 + M ∧ M < 2 ^ 53 ∧ (s = 0 ∨ 2 ^ 52 ≤ M) := by
  rcases Nat.lt_or_ge m (2 ^ 53) with h | h
  · exact ⟨0, m, by omega, h, Or.inl rfl⟩
  · exact ⟨m / 2 ^ 52 - 1, 2 ^ 52 + m % 2 ^ 52, by omega, by omega, Or.inr (by omega)⟩

/-- The binades `roundMag` drops for a significand in range. -/
theorem F64.log2_sub {s M : Nat} (hM : M < 2 ^ 53) (hs : s = 0 ∨ 2 ^ 52 ≤ M) :
    Nat.log2 (M * 2 ^ s) - 52 = s := by
  rcases Nat.eq_zero_or_pos M with rfl | hpos
  · rcases hs with rfl | hs
    · simp
    · omega
  have hne : M * 2 ^ s ≠ 0 := by positivity
  have hlt : Nat.log2 (M * 2 ^ s) < 53 + s := by
    rw [Nat.log2_lt hne, pow_add]
    exact Nat.mul_lt_mul_of_pos_right hM (by positivity)
  rcases hs with rfl | hs
  · omega
  · have hle : 52 + s ≤ Nat.log2 (M * 2 ^ s) := by
      rw [Nat.le_log2 hne, pow_add]
      exact Nat.mul_le_mul_right _ hs
    omega

theorem F64.nearestEven_mul {d : Nat} (q : Nat) (hd : 0 < d) : F64.nearestEven (q * d) d = q := by
  unfold F64.nearestEven
  simp only [Nat.mul_mod_left, Nat.mul_div_cancel _ hd]
  rw [if_neg (by omega)]

/-- A magnitude that is representable is not changed by rounding. -/
theorem F64.roundMag_units {m : Nat} (h : m ≤ F64.infMag) : F64.roundMag (F64.units m) 1 = m := by
  obtain ⟨s, M, rfl, hM, hs⟩ := F64.exists_shift m
  rw [F64.units_shift hM.le hs]
  unfold F64.roundMag
  simp only [Nat.div_one, F64.log2_sub hM hs, Nat.one_mul]
  rw [F64.nearestEven_mul M (by positivity)]
  exact min_eq_left h

theorem F64.nearestEven_scale (n d : Nat) {k : Nat} (hk : 0 < k) :
    F64.nearestEven (n * k) (d * k) = F64.nearestEven n d := by
  unfold F64.nearestEven
  simp only [Nat.mul_div_mul_right _ _ hk, Nat.mul_mod_mul_right]
  have h1 : d * k < 2 * (n % d * k) ↔ d < 2 * (n % d) := by
    rw [← Nat.mul_assoc]; exact Nat.mul_lt_mul_right hk
  have h2 : 2 * (n % d * k) = d * k ↔ 2 * (n % d) = d := by
    rw [← Nat.mul_assoc]; exact Nat.mul_left_inj hk.ne'
  simp only [h1, h2]

/-- Rounding depends on the fraction alone, not on its terms. -/
theorem F64.roundMag_scale (n d : Nat) {k : Nat} (hk : 0 < k) :
    F64.roundMag (n * k) (d * k) = F64.roundMag n d := by
  unfold F64.roundMag
  simp only [Nat.mul_div_mul_right _ _ hk]
  rw [show ∀ t, d * k * t = d * t * k from fun t => by ring, F64.nearestEven_scale _ _ hk]

theorem F64.roundMag_le (n d : Nat) : F64.roundMag n d ≤ F64.infMag := min_le_right _ _

theorem F64.roundMag_lt (n d : Nat) : F64.roundMag n d < 2 ^ 63 :=
  lt_of_le_of_lt (F64.roundMag_le n d) F64.infMag_lt

theorem F64.roundMag_zero (d : Nat) : F64.roundMag 0 d = 0 := by
  simp [F64.roundMag, F64.nearestEven, show Nat.log2 0 = 0 by decide]

/-- The integer `nearestEven` gives is nearest, and even where another is as near. -/
theorem F64.nearestEven_spec (n : Nat) {d : Nat} (hd : 0 < d) (k : Nat) :
    |(n : Int) - d * F64.nearestEven n d| ≤ |(n : Int) - d * k| ∧
    (|(n : Int) - d * F64.nearestEven n d| = |(n : Int) - d * k| → k ≠ F64.nearestEven n d →
      F64.nearestEven n d % 2 = 0) := by
  have hn : (n : Int) = d * (n / d : Nat) + (n % d : Nat) := by
    exact_mod_cast (Nat.div_add_mod n d).symm
  have hr : n % d < d := Nat.mod_lt _ hd
  unfold F64.nearestEven
  simp only
  generalize n / d = q at *
  generalize n % d = r at *
  have hk : (k : Int) ≤ q - 1 ∨ k = q ∨ k = q + 1 ∨ (q : Int) + 2 ≤ k := by omega
  have hdi : (0 : Int) < d := by exact_mod_cast hd
  have hri : (r : Int) < d := by exact_mod_cast hr
  have hri0 : (0 : Int) ≤ r := by positivity
  have hfar : ∀ x : Int, (k : Int) ≤ q - 1 → |(n : Int) - d * k| ≥ r + d := by
    intro _ h
    rw [hn, ge_iff_le, le_abs]; left; nlinarith
  have hfar' : (q : Int) + 2 ≤ k → |(n : Int) - d * k| ≥ 2 * d - r := by
    intro h
    rw [hn, ge_iff_le, le_abs]; right; nlinarith
  have hq : |(n : Int) - d * q| = r := by
    rw [hn]; rw [show (d : Int) * q + r - d * q = r by ring]; exact abs_of_nonneg hri0
  have hq1 : |(n : Int) - d * ((q + 1 : Nat) : Int)| = d - r := by
    rw [hn]; push_cast
    rw [show (d : Int) * q + r - d * (q + 1) = -(d - r) by ring, abs_neg]
    exact abs_of_nonneg (by omega)
  split
  · rename_i hc
    rw [hq1]
    rcases hk with h | rfl | rfl | h
    · have := hfar 0 h; constructor <;> intros <;> omega
    · rw [hq]; constructor <;> intros <;> omega
    · rw [hq1]; constructor <;> intros <;> omega
    · have := hfar' h; constructor <;> intros <;> omega
  · rename_i hc
    rw [hq]
    rcases hk with h | rfl | rfl | h
    · have := hfar 0 h; constructor <;> intros <;> omega
    · rw [hq]; constructor <;> intros <;> omega
    · rw [hq1]; constructor <;> intros <;> omega
    · have := hfar' h; constructor <;> intros <;> omega

/-- What the unrounded-up part of `roundMag` is: a significand of at most 53 bits over dropped binades. -/
theorem F64.significand_bounds (n : Nat) {d : Nat} (hd : 0 < d) :
    let s := Nat.log2 (n / d) - 52
    let M := F64.nearestEven n (d * 2 ^ s)
    M ≤ 2 ^ 53 ∧ (s = 0 ∨ 2 ^ 52 ≤ M) ∧ (s = 0 ∨ 2 ^ 52 * (d * 2 ^ s) ≤ n) := by
  intro s M
  have hQ : n / (d * 2 ^ s) = n / d / 2 ^ s := (Nat.div_div_eq_div_mul n d (2 ^ s)).symm
  have hMQ : n / (d * 2 ^ s) ≤ M ∧ M ≤ n / (d * 2 ^ s) + 1 := by
    show _ ≤ F64.nearestEven _ _ ∧ F64.nearestEven _ _ ≤ _
    unfold F64.nearestEven
    simp only
    split <;> omega
  have hup : n / d / 2 ^ s < 2 ^ 53 := by
    rw [Nat.div_lt_iff_lt_mul (by positivity), ← pow_add]
    rcases Nat.eq_zero_or_pos (n / d) with h0 | h0
    · rw [h0]; positivity
    · rw [← Nat.log2_lt h0.ne']; omega
  have hlow : s = 0 ∨ 2 ^ 52 ≤ n / d / 2 ^ s := by
    rcases Nat.eq_zero_or_pos s with h | h
    · exact Or.inl h
    · right
      have h0 : n / d ≠ 0 := by
        intro h0
        have : s = 0 := by show Nat.log2 (n / d) - 52 = 0; rw [h0]; rfl
        omega
      rw [Nat.le_div_iff_mul_le (by positivity), ← pow_add, ← Nat.le_log2 h0]
      omega
  refine ⟨by omega, by omega, ?_⟩
  rcases hlow with h | h
  · exact Or.inl h
  · right
    rw [← hQ, Nat.le_div_iff_mul_le (by positivity)] at h
    exact h

/-- The one rounding is to nearest (rule R14): no finite magnitude is nearer to `n / d` than the result,
and where another is as near the result is even. -/
theorem F64.roundMag_nearest (n : Nat) {d : Nat} (hd : 0 < d)
    (hfin : F64.roundMag n d < F64.infMag) (m : Nat) :
    |(n : Int) - d * F64.units (F64.roundMag n d)| ≤ |(n : Int) - d * F64.units m| ∧
    (|(n : Int) - d * F64.units (F64.roundMag n d)| = |(n : Int) - d * F64.units m| →
      F64.units m ≠ F64.units (F64.roundMag n d) → F64.roundMag n d % 2 = 0) := by
  obtain ⟨hM, hs, hlow⟩ := F64.significand_bounds n hd
  have hr : F64.roundMag n d = (Nat.log2 (n / d) - 52) * 2 ^ 52
      + F64.nearestEven n (d * 2 ^ (Nat.log2 (n / d) - 52)) := by
    unfold F64.roundMag at hfin ⊢
    simp only at hfin ⊢
    omega
  rw [hr, F64.units_shift hM hs]
  generalize Nat.log2 (n / d) - 52 = s at *
  have hD : 0 < d * 2 ^ s := by positivity
  have hspec := F64.nearestEven_spec n hD
  generalize F64.nearestEven n (d * 2 ^ s) = M at *
  have heven : M % 2 = 0 → (s * 2 ^ 52 + M) % 2 = 0 := by omega
  have hcast : ∀ a b c : Nat, (d : Int) * ((a * (b * c) : Nat) : Int)
      = ((d * c : Nat) : Int) * ((a * b : Nat) : Int) := by intros; push_cast; ring
  have hcastM := hcast M 1 (2 ^ s)
  rw [Nat.one_mul, Nat.mul_one] at hcastM
  rw [hcastM]
  obtain ⟨s', M', rfl, hM', hs'⟩ := F64.exists_shift m
  rw [F64.units_shift hM'.le hs']
  rcases Nat.lt_or_ge s' s with hlt | hge
  · -- a magnitude of a lower binade is below 2^52 of this binade's units
    have h52 : 2 ^ 52 * (d * 2 ^ s) ≤ n := by
      rcases hlow with h | h
      · omega
      · exact h
    have hsmall : d * (M' * 2 ^ s') < 2 ^ 52 * (d * 2 ^ s) := by
      calc d * (M' * 2 ^ s') < d * (2 ^ 53 * 2 ^ s') :=
            Nat.mul_lt_mul_of_pos_left (Nat.mul_lt_mul_of_pos_right hM' (by positivity)) hd
        _ = d * (2 ^ 52 * 2 ^ (s' + 1)) := by ring
        _ ≤ d * (2 ^ 52 * 2 ^ s) :=
            Nat.mul_le_mul_left _ (Nat.mul_le_mul_left _ (Nat.pow_le_pow_right (by decide) hlt))
        _ = 2 ^ 52 * (d * 2 ^ s) := by ring
    have h1 := (hspec (2 ^ 52)).1
    generalize (2 : Nat) ^ 52 = B at h52 hsmall h1
    have h2 : |(n : Int) - ((d * 2 ^ s : Nat) : Int) * (B : Int)| = n - ((B * (d * 2 ^ s) : Nat) : Int) := by
      rw [Nat.cast_mul B, mul_comm (B : Int), abs_of_nonneg]
      have : ((B * (d * 2 ^ s) : Nat) : Int) ≤ n := by exact_mod_cast h52
      rw [Nat.cast_mul B, mul_comm (B : Int)] at this
      omega
    have h3 : (n : Int) - ((B * (d * 2 ^ s) : Nat) : Int)
        < |(n : Int) - d * ((M' * 2 ^ s' : Nat) : Int)| := by
      refine lt_of_lt_of_le ?_ (le_abs_self _)
      have : ((d * (M' * 2 ^ s') : Nat) : Int) < ((B * (d * 2 ^ s) : Nat) : Int) :=
        Int.ofNat_lt.2 hsmall
      rw [Nat.cast_mul d] at this
      omega
    rw [h2] at h1
    exact ⟨by omega, fun h => by omega⟩
  · -- a magnitude of this binade or a higher one is a whole number of this binade's units
    obtain ⟨j, rfl⟩ := Nat.exists_eq_add_of_le hge
    have hj : M' * 2 ^ (s + j) = M' * (2 ^ j * 2 ^ s) := by ring
    rw [hj, hcast M' (2 ^ j) (2 ^ s)]
    obtain ⟨hle, htie⟩ := hspec (M' * 2 ^ j)
    refine ⟨hle, fun he hne => heven (htie he fun h => hne ?_)⟩
    rw [← h]; ring

/-! ### Special cases of the operations -/

theorem f64Mul_nan_left {a : F64} (b : F64) (h : F64.isNaN a = true) :
    F64.isNaN (f64Mul a b) = true := by
  simp [f64Mul, h, F64.isNaN_nanOf]

theorem f64Mul_nan_right (a : F64) {b : F64} (h : F64.isNaN b = true) :
    F64.isNaN (f64Mul a b) = true := by
  simp [f64Mul, h, F64.isNaN_nanOf]

theorem f64Add_nan_left {a : F64} (b : F64) (h : F64.isNaN a = true) :
    F64.isNaN (f64Add a b) = true := by
  simp [f64Add, h, F64.isNaN_nanOf]

theorem f64Add_nan_right (a : F64) {b : F64} (h : F64.isNaN b = true) :
    F64.isNaN (f64Add a b) = true := by
  simp [f64Add, h, F64.isNaN_nanOf]

/-- The product of finite operands. -/
theorem f64Mul_finite {a b : F64} (ha : F64.isFinite a = true) (hb : F64.isFinite b = true) :
    f64Mul a b = F64.pack (F64.sign a != F64.sign b)
      (F64.roundMag (F64.units (F64.mag a) * F64.units (F64.mag b)) (2 ^ 1074)) := by
  unfold f64Mul
  rw [F64.isNaN_of_finite ha, F64.isNaN_of_finite hb, F64.isInf_of_finite ha,
    F64.isInf_of_finite hb]
  rfl

theorem F64.units_zero : F64.units 0 = 0 := rfl

/-- A finite value times a zero is a zero. -/
theorem f64Mul_zero {a b : F64} (ha : F64.isFinite a = true) (hb : F64.isZero b = true) :
    F64.isZero (f64Mul a b) = true := by
  rw [f64Mul_finite ha (F64.finite_of_isZero hb)]
  simp only [F64.isZero, decide_eq_true_eq] at hb ⊢
  rw [hb, F64.units_zero, Nat.mul_zero, F64.roundMag_zero, F64.mag_pack _ (by decide)]

/-- 1.0 is 2^1074 units. -/
theorem F64.units_one : F64.units (F64.mag 0x3FF0000000000000#64) = 2 ^ 1074 := by
  rw [show F64.mag 0x3FF0000000000000#64 = 1022 * 2 ^ 52 + 2 ^ 52 from by decide,
    F64.units_shift (by decide) (Or.inr le_rfl), ← pow_add]

/-- Multiplying by 1.0 changes nothing. -/
theorem f64Mul_one {a : F64} (ha : F64.isFinite a = true) : f64Mul a 0x3FF0000000000000#64 = a := by
  rw [f64Mul_finite ha (by decide), F64.units_one]
  have h1 := F64.roundMag_scale (F64.units (F64.mag a)) 1 (k := 2 ^ 1074) (by positivity)
  rw [Nat.one_mul] at h1
  rw [h1, F64.roundMag_units (by simp [F64.isFinite] at ha; omega),
    show F64.sign 0x3FF0000000000000#64 = false from by decide, Bool.bne_false]
  exact F64.pack_sign_mag a

/-- The sum of finite operands. -/
theorem f64Add_finite {a b : F64} (ha : F64.isFinite a = true) (hb : F64.isFinite b = true) :
    f64Add a b = if F64.value a + F64.value b = 0
      then F64.pack (F64.sign a && F64.sign b) 0
      else F64.pack (decide (F64.value a + F64.value b < 0))
        (F64.roundMag (F64.value a + F64.value b).natAbs 1) := by
  simp [f64Add, F64.isNaN_of_finite ha, F64.isNaN_of_finite hb, F64.isInf_of_finite ha,
    F64.isInf_of_finite hb]

theorem F64.value_natAbs (a : F64) : (F64.value a).natAbs = F64.units (F64.mag a) := by
  unfold F64.value; split <;> simp

theorem F64.units_eq_zero {m : Nat} : F64.units m = 0 ↔ m = 0 := by
  unfold F64.units
  split
  · exact Iff.rfl
  · have h2 : 0 < (2 ^ 52 + m % 2 ^ 52) * 2 ^ (m / 2 ^ 52 - 1) := by positivity
    omega

theorem F64.value_eq_zero {a : F64} : F64.value a = 0 ↔ F64.isZero a = true := by
  rw [← Int.natAbs_eq_zero, F64.value_natAbs, F64.units_eq_zero]; simp [F64.isZero]

/-- Packing the sign and the rounded magnitude of a nonzero value gives the value back. -/
theorem F64.pack_value {a : F64} (ha : F64.isFinite a = true) (hz : F64.isZero a = false) :
    F64.pack (decide (F64.value a < 0)) (F64.roundMag (F64.value a).natAbs 1) = a := by
  rw [F64.value_natAbs, F64.roundMag_units (by simp [F64.isFinite] at ha; omega)]
  have hu : 0 < F64.units (F64.mag a) := by
    rcases Nat.eq_zero_or_pos (F64.units (F64.mag a)) with h | h
    · rw [F64.units_eq_zero] at h; simp [F64.isZero, h] at hz
    · exact h
  have hs : decide (F64.value a < 0) = F64.sign a := by
    unfold F64.value
    cases F64.sign a
    · simp
    · simp only [if_true]; rw [decide_eq_true_eq]; omega
  rw [hs, F64.pack_sign_mag]

/-- A zero added to a nonzero finite value changes nothing. -/
theorem f64Add_zero {a z : F64} (ha : F64.isFinite a = true) (hn : F64.isZero a = false)
    (hz : F64.isZero z = true) : f64Add a z = a ∧ f64Add z a = a := by
  have hv : F64.value z = 0 := F64.value_eq_zero.2 hz
  have hva : F64.value a ≠ 0 := fun h => by rw [F64.value_eq_zero.1 h] at hn; cases hn
  have hf := F64.finite_of_isZero hz
  constructor
  · rw [f64Add_finite ha hf, hv, Int.add_zero, if_neg hva, F64.pack_value ha hn]
  · rw [f64Add_finite hf ha, hv, Int.zero_add, if_neg hva, F64.pack_value ha hn]

/-- Zeros add to a zero. -/
theorem f64Add_zeros {a b : F64} (ha : F64.isZero a = true) (hb : F64.isZero b = true) :
    F64.isZero (f64Add a b) = true := by
  rw [f64Add_finite (F64.finite_of_isZero ha) (F64.finite_of_isZero hb),
    F64.value_eq_zero.2 ha, F64.value_eq_zero.2 hb, if_pos (Int.add_zero 0)]
  simp [F64.isZero, F64.mag_pack]

/-- The first product added to the accumulator's +0.0, or a zero added: the magnitude is that of the
other operand. -/
theorem f64Add_zero_mag {a z : F64} (ha : F64.isFinite a = true) (hz : F64.isZero z = true) :
    F64.mag (f64Add a z) = F64.mag a ∧ F64.mag (f64Add z a) = F64.mag a := by
  rcases h : F64.isZero a with _ | _
  · rw [(f64Add_zero ha h hz).1, (f64Add_zero ha h hz).2]; exact ⟨rfl, rfl⟩
  · have h1 := f64Add_zeros h hz
    have h2 := f64Add_zeros hz h
    simp only [F64.isZero, decide_eq_true_eq] at h h1 h2
    exact ⟨h1.trans h.symm, h2.trans h.symm⟩

/-! ### Comparison -/

theorem f64Gt_iff (a b : F64) : f64Gt a b = true ↔
    F64.isNaN a = false ∧ F64.isNaN b = false ∧ F64.key b < F64.key a := by
  simp [f64Gt, and_assoc]

theorem f64Gt_nan_left {a : F64} (b : F64) (h : F64.isNaN a = true) : f64Gt a b = false := by
  simp [f64Gt, h]

theorem f64Gt_irrefl (a : F64) : f64Gt a a = false := by simp [f64Gt]

theorem f64Gt_trans {a b c : F64} (h : f64Gt a b = true) (h' : f64Gt b c = true) :
    f64Gt a c = true := by
  rw [f64Gt_iff] at *; exact ⟨h.1, h'.2.1, by omega⟩

/-- The place of a pattern with sign bit 0 is its magnitude pattern. -/
theorem F64.key_of_sign {a : F64} (h : F64.sign a = false) : F64.key a = F64.mag a := by
  simp [F64.key, h]

@[simp] theorem F64.key_abs (a : F64) : F64.key (f64Abs a) = F64.mag a := by
  rw [F64.key_of_sign (f64Abs_sign a), f64Abs_mag]

/-- +0.0 exceeds no absolute value, and a zero's absolute value exceeds no magnitude. -/
theorem f64Gt_abs_zero {a : F64} (b : F64) (ha : F64.isZero a = true) (hb : F64.sign b = false) :
    f64Gt (f64Abs a) b = false := by
  rw [Bool.eq_false_iff, ne_eq, f64Gt_iff]
  rintro ⟨-, -, h⟩
  rw [F64.key_abs, F64.key_of_sign hb] at h
  simp only [F64.isZero, decide_eq_true_eq] at ha
  omega

/-- The absolute value of a value that is no NaN is a magnitude `MAX` may hold. -/
theorem f64Abs_isMagnitude {a : F64} (h : F64.isNaN a = false) : F64.isMagnitude (f64Abs a) := by
  refine ⟨f64Abs_sign a, ?_⟩
  simp only [F64.isNaN, decide_eq_false_iff_not, not_lt] at h
  simpa using h

theorem F64.isMagnitude_zero : F64.isMagnitude 0#64 := by
  unfold F64.isMagnitude; decide

theorem F64.isNaN_of_isMagnitude {a : F64} (h : F64.isMagnitude a) : F64.isNaN a = false := by
  have := h.2
  simp only [F64.isNaN, decide_eq_false_iff_not]; omega

end Sys2Proof.Machine
end

