-- ==== Sys2Proof/Laws/State.lean ====
section
/-! SUPPORT. One lemma per field per update of the state and of the architectural state. -/

namespace Sys2Proof.Machine

section Conclude
variable (st : Status) (d : F64) (n : Nat) (r : Regs) (s : State)

@[simp] theorem State.conclude_regs : (s.conclude st d n r).regs = r := rfl
@[simp] theorem State.conclude_cmd : (s.conclude st d n r).cmd = s.cmd.drop 1 := rfl
@[simp] theorem State.conclude_samp : (s.conclude st d n r).samp = s.samp.drop n := rfl
@[simp] theorem State.conclude_rsp : (s.conclude st d n r).rsp = s.rsp ++ [respWord st d] := rfl
@[simp] theorem State.conclude_out : (s.conclude st d n r).out = s.out := rfl
@[simp] theorem State.conclude_rst : (s.conclude st d n r).rst = s.rst := rfl
@[simp] theorem State.conclude_rspReady : (s.conclude st d n r).rspReady = s.rspReady := rfl

@[simp] theorem State.raise_regs : (s.raise st n).regs = s.regs := rfl
@[simp] theorem State.raise_cmd : (s.raise st n).cmd = s.cmd.drop 1 := rfl
@[simp] theorem State.raise_samp : (s.raise st n).samp = s.samp.drop n := rfl
@[simp] theorem State.raise_rsp : (s.raise st n).rsp = s.rsp ++ [respWord st 0] := rfl
@[simp] theorem State.raise_out : (s.raise st n).out = s.out := rfl
@[simp] theorem State.raise_rst : (s.raise st n).rst = s.rst := rfl
@[simp] theorem State.raise_rspReady : (s.raise st n).rspReady = s.rspReady := rfl

@[simp] theorem State.illegal_regs : s.illegal.regs = s.regs := rfl
@[simp] theorem State.illegal_cmd : s.illegal.cmd = s.cmd.drop 1 := rfl
@[simp] theorem State.illegal_samp : s.illegal.samp = s.samp := rfl
@[simp] theorem State.illegal_rsp : s.illegal.rsp = s.rsp ++ [respWord .illegalCommand 0] := rfl
@[simp] theorem State.illegal_out : s.illegal.out = s.out := rfl
@[simp] theorem State.illegal_rst : s.illegal.rst = s.rst := rfl
@[simp] theorem State.illegal_rspReady : s.illegal.rspReady = s.rspReady := rfl

@[simp] theorem State.hardReset_regs : s.hardReset.regs = Regs.reset := rfl
@[simp] theorem State.hardReset_cmd : s.hardReset.cmd = [] := rfl
@[simp] theorem State.hardReset_samp : s.hardReset.samp = [] := rfl
@[simp] theorem State.hardReset_rsp : s.hardReset.rsp = [] := rfl
@[simp] theorem State.hardReset_out : s.hardReset.out = s.out := rfl
@[simp] theorem State.hardReset_rst : s.hardReset.rst = s.rst := rfl
@[simp] theorem State.hardReset_rspReady : s.hardReset.rspReady = s.rspReady := rfl

@[simp] theorem State.transferResponse_regs : s.transferResponse.regs = s.regs := rfl
@[simp] theorem State.transferResponse_cmd : s.transferResponse.cmd = s.cmd := rfl
@[simp] theorem State.transferResponse_samp : s.transferResponse.samp = s.samp := rfl
@[simp] theorem State.transferResponse_rsp : s.transferResponse.rsp = s.rsp.drop 1 := rfl
@[simp] theorem State.transferResponse_out :
    s.transferResponse.out = s.out ++ s.rsp.take 1 := rfl
@[simp] theorem State.transferResponse_rst : s.transferResponse.rst = s.rst := rfl
@[simp] theorem State.transferResponse_rspReady : s.transferResponse.rspReady = s.rspReady := rfl

end Conclude

section Cells
variable (r : Regs) (c k : Nat) (v : F64)

@[simp] theorem Regs.setHist_life : (r.setHist c k v).life = r.life := rfl
@[simp] theorem Regs.setHist_nch : (r.setHist c k v).nch = r.nch := rfl
@[simp] theorem Regs.setHist_rate : (r.setHist c k v).rate = r.rate := rfl
@[simp] theorem Regs.setHist_pos : (r.setHist c k v).pos = r.pos := rfl
@[simp] theorem Regs.setHist_hist : (r.setHist c k v).hist = r.hist.write (histIndex c k) v := rfl
@[simp] theorem Regs.setHist_max : (r.setHist c k v).max = r.max := rfl

@[simp] theorem Regs.setMax_life : (r.setMax c v).life = r.life := rfl
@[simp] theorem Regs.setMax_nch : (r.setMax c v).nch = r.nch := rfl
@[simp] theorem Regs.setMax_rate : (r.setMax c v).rate = r.rate := rfl
@[simp] theorem Regs.setMax_pos : (r.setMax c v).pos = r.pos := rfl
@[simp] theorem Regs.setMax_hist : (r.setMax c v).hist = r.hist := rfl
@[simp] theorem Regs.setMax_max : (r.setMax c v).max = r.max.write c v := rfl

@[simp] theorem Regs.advance_life : r.advance.life = r.life := rfl
@[simp] theorem Regs.advance_nch : r.advance.nch = r.nch := rfl
@[simp] theorem Regs.advance_rate : r.advance.rate = r.rate := rfl
@[simp] theorem Regs.advance_hist : r.advance.hist = r.hist := rfl
@[simp] theorem Regs.advance_max : r.advance.max = r.max := rfl

/-- `POS` after step 4 (rule R127), as a number. -/
@[simp] theorem Regs.advance_pos_toNat : r.advance.pos.toNat = (r.pos.toNat + 1) % 12 := by
  simp only [Regs.advance, BitVec.toNat_ofNat]
  omega

end Cells

section Created
variable (channels : Int) (rate : Nat) (r : Regs)

@[simp] theorem Regs.created_life : (r.created channels rate).life = .ready := rfl
@[simp] theorem Regs.created_nch : (r.created channels rate).nch = BitVec.ofInt 16 channels := rfl
@[simp] theorem Regs.created_rate :
    (r.created channels rate).rate = if rate = 44100 then .hz44100 else .hz48000 := rfl
@[simp] theorem Regs.created_pos : (r.created channels rate).pos = 0#4 := rfl
@[simp] theorem Regs.created_hist :
    (r.created channels rate).hist = r.hist.clearBelow (12 * channels.toNat) := rfl
@[simp] theorem Regs.created_max :
    (r.created channels rate).max = r.max.clearBelow channels.toNat := rfl

end Created

@[simp] theorem Regs.reset_life : Regs.reset.life = .uninitialized := rfl
@[simp] theorem Regs.reset_hist : Regs.reset.hist = [] := rfl
@[simp] theorem Regs.reset_max : Regs.reset.max = [] := rfl

end Sys2Proof.Machine
end

