-- ==== Sys2Proof/Laws/Memory.lean ====
section
/-! SUPPORT. The laws of register files: a cell reads back what was written, a write leaves every other
cell alone, and every operation keeps the canonical form and the bound on its indices. -/

namespace Sys2Proof.Machine

@[simp] theorem Memory.read_nil (a : Nat) : Memory.read [] a = 0#64 := rfl

theorem Memory.read_cons (k : Nat) (v : F64) (m : Memory) (a : Nat) :
    Memory.read ((k, v) :: m) a = if k = a then v else m.read a := rfl

/-- A filter that keeps index `a` keeps its cell. -/
theorem Memory.read_filter_keep (m : Memory) (a : Nat) (p : Nat × F64 → Bool)
    (h : ∀ v, p (a, v) = true) : Memory.read (m.filter p) a = m.read a := by
  induction m with
  | nil => rfl
  | cons kv m ih =>
    obtain ⟨k, v⟩ := kv
    by_cases hk : k = a
    · subst hk; simp [h, Memory.read_cons]
    · by_cases hp : p (k, v) = true
      · simp [hp, Memory.read_cons, hk, ih]
      · simp [hp, Memory.read_cons, hk, ih]

/-- A filter that drops index `a` makes it read as +0.0. -/
theorem Memory.read_filter_drop (m : Memory) (a : Nat) (p : Nat × F64 → Bool)
    (h : ∀ v, p (a, v) = false) : Memory.read (m.filter p) a = 0#64 := by
  induction m with
  | nil => rfl
  | cons kv m ih =>
    obtain ⟨k, v⟩ := kv
    by_cases hp : p (k, v) = true
    · have hk : k ≠ a := by rintro rfl; simp [h] at hp
      simp [hp, Memory.read_cons, hk, ih]
    · simp [hp, ih]

theorem Memory.read_erase_same (m : Memory) (a : Nat) : (m.erase a).read a = 0#64 :=
  Memory.read_filter_drop m a _ (by simp)

theorem Memory.read_erase_other (m : Memory) {a b : Nat} (h : b ≠ a) :
    (m.erase a).read b = m.read b :=
  Memory.read_filter_keep m b _ (by simp [h])

theorem Memory.read_insert_other (m : Memory) {a b : Nat} (v : F64) (h : b ≠ a) :
    (m.insert a v).read b = m.read b := by
  induction m with
  | nil => simp [Memory.insert, Memory.read_cons, h.symm]
  | cons kv m ih =>
    obtain ⟨k, x⟩ := kv
    simp only [Memory.insert]
    split
    · simp [Memory.read_cons, h.symm]
    · simp [Memory.read_cons, ih]

/-- An inserted cell reads back where its index was not listed. -/
theorem Memory.read_insert_same (m : Memory) (a : Nat) (v : F64) (h : ∀ kv ∈ m, kv.1 ≠ a) :
    (m.insert a v).read a = v := by
  induction m with
  | nil => simp [Memory.insert, Memory.read_cons]
  | cons kv m ih =>
    obtain ⟨k, x⟩ := kv
    have hk : k ≠ a := h (k, x) (by simp)
    simp only [Memory.insert]
    split
    · simp [Memory.read_cons]
    · simp [Memory.read_cons, hk, ih fun kv hkv => h kv (by simp [hkv])]

/-- A cell reads back what was written to it. -/
theorem Memory.read_write_same (m : Memory) (a : Nat) (v : F64) : (m.write a v).read a = v := by
  unfold Memory.write
  split
  · simp_all [Memory.read_erase_same]
  · exact Memory.read_insert_same _ _ _ (by simp [Memory.erase])

/-- A write leaves every other cell alone. -/
theorem Memory.read_write_other (m : Memory) {a b : Nat} (v : F64) (h : b ≠ a) :
    (m.write a v).read b = m.read b := by
  unfold Memory.write
  split
  · exact Memory.read_erase_other m h
  · rw [Memory.read_insert_other _ _ h, Memory.read_erase_other m h]

theorem Memory.read_write (m : Memory) (a b : Nat) (v : F64) :
    (m.write a v).read b = if b = a then v else m.read b := by
  split
  · subst b; exact Memory.read_write_same m a v
  · exact Memory.read_write_other m v ‹_›

/-- What `clearBelow` does: +0.0 below the index, nothing else changed. -/
theorem Memory.read_clearBelow (m : Memory) (n a : Nat) :
    (m.clearBelow n).read a = if a < n then 0#64 else m.read a := by
  split
  · exact Memory.read_filter_drop m a _ (by simpa using ‹a < n›)
  · exact Memory.read_filter_keep m a _ (by simpa using ‹¬a < n›)

/-- The canonical form: no +0.0 listed, and indices strictly rising. -/
theorem Memory.wf_iff (m : Memory) :
    m.wf = true ↔ (∀ kv ∈ m, kv.2 ≠ 0#64) ∧ m.Pairwise (fun x y => x.1 < y.1) := by
  induction m with
  | nil => simp [Memory.wf]
  | cons kv m ih =>
    obtain ⟨k, v⟩ := kv
    cases m with
    | nil => simp [Memory.wf]
    | cons kv' m =>
      obtain ⟨k', v'⟩ := kv'
      simp only [Memory.wf, Bool.and_eq_true, ih, bne_iff_ne, decide_eq_true_eq]
      constructor
      · rintro ⟨⟨hv, hk⟩, hnz, hp⟩
        refine ⟨?_, ?_⟩
        · intro x hx
          rcases List.mem_cons.1 hx with rfl | hx
          · exact hv
          · exact hnz x hx
        · refine List.Pairwise.cons ?_ hp
          intro x hx
          rcases List.mem_cons.1 hx with rfl | hx'
          · exact hk
          · exact lt_trans hk ((List.pairwise_cons.1 hp).1 x hx')
      · rintro ⟨hnz, hp⟩
        rw [List.pairwise_cons] at hp
        exact ⟨⟨hnz (k, v) (by simp), hp.1 (k', v') (by simp)⟩,
          fun x hx => hnz x (by simp [hx]), hp.2⟩

theorem Memory.wf_filter {m : Memory} (p : Nat × F64 → Bool) (h : m.wf = true) :
    Memory.wf (m.filter p) = true := by
  rw [Memory.wf_iff] at *
  exact ⟨fun kv hkv => h.1 kv (List.mem_filter.1 hkv).1, h.2.filter p⟩

theorem Memory.mem_insert {m : Memory} {a : Nat} {v : F64} {kv : Nat × F64} :
    kv ∈ m.insert a v ↔ kv = (a, v) ∨ kv ∈ m := by
  induction m with
  | nil => simp [Memory.insert]
  | cons x m ih =>
    obtain ⟨k, x⟩ := x
    simp only [Memory.insert]
    split
    · simp
    · simp only [List.mem_cons, ih]; tauto

theorem Memory.pairwise_insert {m : Memory} {a : Nat} (v : F64) (hne : ∀ kv ∈ m, kv.1 ≠ a)
    (h : m.Pairwise fun x y => x.1 < y.1) : (m.insert a v).Pairwise fun x y => x.1 < y.1 := by
  induction m with
  | nil => simp [Memory.insert]
  | cons x m ih =>
    obtain ⟨k, x⟩ := x
    rw [List.pairwise_cons] at h
    have hk : k ≠ a := hne (k, x) (by simp)
    simp only [Memory.insert]
    split
    · rename_i hlt
      refine List.Pairwise.cons ?_ (List.pairwise_cons.2 h)
      intro y hy
      rcases List.mem_cons.1 hy with rfl | hy
      · exact hlt
      · exact lt_trans hlt (h.1 y hy)
    · rename_i hlt
      refine List.Pairwise.cons ?_ (ih (fun kv hkv => hne kv (by simp [hkv])) h.2)
      intro y hy
      rcases Memory.mem_insert.1 hy with rfl | hy
      · exact lt_of_le_of_ne (not_lt.1 hlt) hk
      · exact h.1 y hy

/-- A write keeps the canonical form. -/
theorem Memory.wf_write {m : Memory} (a : Nat) (v : F64) (h : m.wf = true) :
    (m.write a v).wf = true := by
  unfold Memory.write
  split
  · exact Memory.wf_filter _ h
  · rename_i hv
    have he := (Memory.wf_iff _).1 (Memory.wf_filter (fun kv => kv.1 != a) h)
    rw [Memory.wf_iff]
    refine ⟨fun kv hkv => ?_, Memory.pairwise_insert v (by simp [Memory.erase]) he.2⟩
    rcases Memory.mem_insert.1 hkv with rfl | hkv
    · exact hv
    · exact he.1 kv hkv

/-- Clearing cells keeps the canonical form. -/
theorem Memory.wf_clearBelow {m : Memory} (n : Nat) (h : m.wf = true) :
    (m.clearBelow n).wf = true := Memory.wf_filter _ h

theorem Memory.below_write {m : Memory} {a n : Nat} (v : F64) (h : m.below n) (ha : a < n) :
    (m.write a v).below n := by
  intro kv hkv
  unfold Memory.write at hkv
  split at hkv
  · exact h kv (List.mem_filter.1 hkv).1
  · rcases Memory.mem_insert.1 hkv with rfl | hkv
    · exact ha
    · exact h kv (List.mem_filter.1 hkv).1

theorem Memory.below_clearBelow {m : Memory} {n : Nat} (k : Nat) (h : m.below n) :
    (m.clearBelow k).below n := fun kv hkv => h kv (List.mem_filter.1 hkv).1

/-- An index below every listed one reads as +0.0. -/
theorem Memory.read_eq_zero {m : Memory} {a : Nat} (h : ∀ kv ∈ m, kv.1 ≠ a) : m.read a = 0#64 := by
  have hm : m.erase a = m := List.filter_eq_self.2 fun kv hkv => by simpa using h kv hkv
  rw [← hm]; exact Memory.read_erase_same m a

/-- What the canonical form says of a nonempty list. -/
theorem Memory.wf_cons {k : Nat} {v : F64} {m : Memory} (h : Memory.wf ((k, v) :: m) = true) :
    v ≠ 0#64 ∧ m.wf = true ∧ ∀ a ≤ k, m.read a = 0#64 := by
  rw [Memory.wf_iff, List.pairwise_cons] at h
  refine ⟨h.1 (k, v) (by simp), (Memory.wf_iff m).2 ⟨fun x hx => h.1 x (by simp [hx]), h.2.2⟩, ?_⟩
  intro a ha
  exact Memory.read_eq_zero fun kv hkv => by have := h.2.1 kv hkv; simp at this; omega

/-- Register files in canonical form that hold the same cells are the same data. -/
theorem Memory.ext_of_read {m m' : Memory} (h : m.wf = true) (h' : m'.wf = true)
    (he : ∀ a, m.read a = m'.read a) : m = m' := by
  induction m generalizing m' with
  | nil =>
    cases m' with
    | nil => rfl
    | cons kv m' =>
      obtain ⟨k, v⟩ := kv
      exact absurd (he k).symm (by simpa [Memory.read_cons] using (Memory.wf_cons h').1)
  | cons kv m ih =>
    obtain ⟨k, v⟩ := kv
    obtain ⟨hv, hm, hk⟩ := Memory.wf_cons h
    cases m' with
    | nil => exact absurd (he k) (by simpa [Memory.read_cons] using hv)
    | cons kv' m' =>
      obtain ⟨k', v'⟩ := kv'
      obtain ⟨hv', hm', hk'⟩ := Memory.wf_cons h'
      have hkk : k = k' := by
        have h1 := he k
        have h2 := he k'
        simp only [Memory.read_cons, if_true] at h1 h2
        by_contra hne
        rw [if_neg (Ne.symm hne)] at h1
        rw [if_neg hne] at h2
        rcases Nat.lt_or_gt_of_ne hne with hlt | hgt
        · exact hv (h1.trans (hk' k hlt.le))
        · exact hv' (h2.symm.trans (hk k' hgt.le))
      subst hkk
      have hvv : v = v' := by simpa [Memory.read_cons] using he k
      subst hvv
      refine congrArg _ (ih hm hm' fun a => ?_)
      rcases eq_or_ne k a with rfl | hne
      · rw [hk k le_rfl, hk' k le_rfl]
      · simpa [Memory.read_cons, hne] using he a

/-- Cells of different channels, or of different slots, have different indices. -/
theorem histIndex_inj {c k c' k' : Nat} (hk : k < 12) (hk' : k' < 12) :
    histIndex c k = histIndex c' k' ↔ c = c' ∧ k = k' := by
  unfold histIndex; omega

theorem Regs.histAt_setHist (r : Regs) {c k c' k' : Nat} (v : F64) (hk : k < 12) (hk' : k' < 12) :
    (r.setHist c k v).histAt c' k' = if c' = c ∧ k' = k then v else r.histAt c' k' := by
  simp only [Regs.histAt, Regs.setHist_hist, Memory.read_write, histIndex_inj hk' hk]

theorem Regs.maxAt_setMax (r : Regs) (c c' : Nat) (v : F64) :
    (r.setMax c v).maxAt c' = if c' = c then v else r.maxAt c' := by
  simp only [Regs.maxAt, Regs.setMax_max, Memory.read_write]

@[simp] theorem Regs.histAt_setMax (r : Regs) (c c' k : Nat) (v : F64) :
    (r.setMax c v).histAt c' k = r.histAt c' k := rfl

@[simp] theorem Regs.maxAt_setHist (r : Regs) (c k c' : Nat) (v : F64) :
    (r.setHist c k v).maxAt c' = r.maxAt c' := rfl

@[simp] theorem Regs.histAt_advance (r : Regs) (c k : Nat) : r.advance.histAt c k = r.histAt c k := rfl

@[simp] theorem Regs.maxAt_advance (r : Regs) (c : Nat) : r.advance.maxAt c = r.maxAt c := rfl

/-- `HIST` after CREATE (rule R34). -/
theorem Regs.histAt_created (r : Regs) (channels : Int) (rate c : Nat) {k : Nat} (hk : k < 12) :
    (r.created channels rate).histAt c k = if c < channels.toNat then 0#64 else r.histAt c k := by
  simp only [Regs.histAt, Regs.created_hist, Memory.read_clearBelow, histIndex]
  have : 12 * c + k < 12 * channels.toNat ↔ c < channels.toNat := by omega
  simp only [this]

/-- `MAX` after CREATE (rule R34). -/
theorem Regs.maxAt_created (r : Regs) (channels : Int) (rate c : Nat) :
    (r.created channels rate).maxAt c = if c < channels.toNat then 0#64 else r.maxAt c := by
  simp only [Regs.maxAt, Regs.created_max, Memory.read_clearBelow]

theorem Regs.writeSlot_lt (r : Regs) : r.writeSlot < 12 := Nat.mod_lt _ (by decide)

theorem Regs.tapSlot_lt (r : Regs) (i : Nat) : r.tapSlot i < 12 := Nat.mod_lt _ (by decide)

/-- Tap 0 reads the slot step 1 writes (rule R52 (b)). -/
theorem Regs.tapSlot_zero (r : Regs) : r.tapSlot 0 = r.writeSlot := by
  unfold Regs.tapSlot Regs.writeSlot; omega

end Sys2Proof.Machine
end

