-- ==== Sys2Proof/Laws/Pipeline.lean ====
section
/-! SUPPORT. What the PUSH pipeline does (41_push.md rules R123 to R127): the registers it leaves alone,
the cells of one channel after one sample, and, for a whole PUSH, each channel as a run of its own
(`chanRun`), which reads no other channel. -/

namespace Sys2Proof.Machine

/-! ### One result, one sample -/

/-- Step 3 on the value of a maximum (rule R126). -/
def runningMax (m y : F64) : F64 := if f64Gt (f64Abs y) m then f64Abs y else m

section RaiseMax
variable (c : Nat) (r : Regs) (y : F64)

@[simp] theorem Regs.raiseMax_life : (r.raiseMax c y).life = r.life := by
  unfold Regs.raiseMax; split <;> rfl

@[simp] theorem Regs.raiseMax_nch : (r.raiseMax c y).nch = r.nch := by
  unfold Regs.raiseMax; split <;> rfl

@[simp] theorem Regs.raiseMax_rate : (r.raiseMax c y).rate = r.rate := by
  unfold Regs.raiseMax; split <;> rfl

@[simp] theorem Regs.raiseMax_pos : (r.raiseMax c y).pos = r.pos := by
  unfold Regs.raiseMax; split <;> rfl

@[simp] theorem Regs.raiseMax_hist : (r.raiseMax c y).hist = r.hist := by
  unfold Regs.raiseMax; split <;> rfl

theorem Regs.raiseMax_maxAt (c' : Nat) :
    (r.raiseMax c y).maxAt c' = if c' = c then runningMax (r.maxAt c) y else r.maxAt c' := by
  unfold Regs.raiseMax runningMax
  split
  · rw [Regs.maxAt_setMax]
  · split
    · subst c'; rfl
    · rfl

theorem Regs.raiseMax_max_wf (h : r.max.wf = true) : (r.raiseMax c y).max.wf = true := by
  unfold Regs.raiseMax
  split
  · exact Memory.wf_write c _ h
  · exact h

theorem Regs.raiseMax_max_below {n : Nat} (h : r.max.below n) (hc : c < n) :
    (r.raiseMax c y).max.below n := by
  unfold Regs.raiseMax
  split
  · exact Memory.below_write _ h hc
  · exact h

end RaiseMax

/-- What is true of a register after each single result is true after all of them. -/
theorem Regs.foldl_raiseMax {α : Type} (f : Regs → α) (c : Nat) (ys : List F64) (r : Regs)
    (h : ∀ r y, f (Regs.raiseMax c r y) = f r) : f (ys.foldl (Regs.raiseMax c) r) = f r := by
  induction ys generalizing r with
  | nil => rfl
  | cons y ys ih => rw [List.foldl_cons, ih, h]

/-- A property of the maxima that each single result keeps is kept by all of them. -/
theorem Regs.foldl_raiseMax_keeps {P : Regs → Prop} (c : Nat) (ys : List F64) (r : Regs) (hr : P r)
    (h : ∀ r y, P r → P (Regs.raiseMax c r y)) : P (ys.foldl (Regs.raiseMax c) r) := by
  induction ys generalizing r with
  | nil => exact hr
  | cons y ys ih => exact ih _ (h r y hr)

theorem Regs.foldl_raiseMax_maxAt (c c' : Nat) (ys : List F64) (r : Regs) :
    (ys.foldl (Regs.raiseMax c) r).maxAt c'
      = if c' = c then ys.foldl runningMax (r.maxAt c) else r.maxAt c' := by
  induction ys generalizing r with
  | nil => simp only [List.foldl_nil]; split <;> simp_all
  | cons y ys ih =>
    rw [List.foldl_cons, ih, List.foldl_cons, Regs.raiseMax_maxAt, Regs.raiseMax_maxAt, if_pos rfl]
    split <;> rfl

section PushSample
variable (tbl : CoefTable) (c : Nat) (v : F64) (r : Regs)

@[simp] theorem Regs.pushSample_life : (r.pushSample tbl c v).life = r.life :=
  Regs.foldl_raiseMax Regs.life c _ _ fun _ _ => by simp

@[simp] theorem Regs.pushSample_nch : (r.pushSample tbl c v).nch = r.nch :=
  Regs.foldl_raiseMax Regs.nch c _ _ fun _ _ => by simp

@[simp] theorem Regs.pushSample_rate : (r.pushSample tbl c v).rate = r.rate :=
  Regs.foldl_raiseMax Regs.rate c _ _ fun _ _ => by simp

@[simp] theorem Regs.pushSample_pos : (r.pushSample tbl c v).pos = r.pos :=
  Regs.foldl_raiseMax Regs.pos c _ _ fun _ _ => by simp

theorem Regs.pushSample_hist :
    (r.pushSample tbl c v).hist = (r.setHist c r.writeSlot v).hist :=
  Regs.foldl_raiseMax Regs.hist c _ _ fun _ _ => by simp

/-- Step 1 writes one cell and no other (rule R124). -/
theorem Regs.pushSample_histAt (c' : Nat) {k : Nat} (hk : k < 12) :
    (r.pushSample tbl c v).histAt c' k
      = if c' = c ∧ k = r.writeSlot then v else r.histAt c' k := by
  unfold Regs.histAt
  rw [Regs.pushSample_hist]
  exact Regs.histAt_setHist r v r.writeSlot_lt hk

/-- Steps 2 and 3 change the maximum of their channel alone (rule R126). -/
theorem Regs.pushSample_maxAt (c' : Nat) :
    (r.pushSample tbl c v).maxAt c' = if c' = c
      then ((List.range 4).map fun p => (r.setHist c r.writeSlot v).phaseResult tbl c p).foldl
        runningMax (r.maxAt c)
      else r.maxAt c' := by
  unfold Regs.pushSample
  rw [Regs.foldl_raiseMax_maxAt]
  rfl

theorem Regs.pushSample_wf (hh : r.hist.wf = true) (hm : r.max.wf = true) :
    (r.pushSample tbl c v).hist.wf = true ∧ (r.pushSample tbl c v).max.wf = true := by
  refine ⟨?_, ?_⟩
  · rw [Regs.pushSample_hist]; exact Memory.wf_write _ _ hh
  · exact Regs.foldl_raiseMax_keeps (P := fun r => r.max.wf = true) c _ _ hm
      fun r y h => Regs.raiseMax_max_wf c r y h

theorem Regs.pushSample_below {n : Nat} (hc : c < n) (hh : r.hist.below (12 * n))
    (hm : r.max.below n) :
    (r.pushSample tbl c v).hist.below (12 * n) ∧ (r.pushSample tbl c v).max.below n := by
  refine ⟨?_, ?_⟩
  · rw [Regs.pushSample_hist]
    refine Memory.below_write _ hh ?_
    have := r.writeSlot_lt
    unfold histIndex; omega
  · exact Regs.foldl_raiseMax_keeps (P := fun r => r.max.below n) c _ _ hm
      fun r y h => Regs.raiseMax_max_below c r y h hc

end PushSample

/-! ### One frame, a whole PUSH: the registers -/

theorem Regs.pushChannels_keeps {α : Type} (f : Regs → α) (tbl : CoefTable) (c : Nat)
    (vs : List F64) (r : Regs) (h : ∀ c v r, f (Regs.pushSample tbl c v r) = f r) :
    f (r.pushChannels tbl c vs) = f r := by
  induction vs generalizing c r with
  | nil => rfl
  | cons v vs ih => rw [Regs.pushChannels, ih, h]

@[simp] theorem Regs.pushChannels_pos (tbl : CoefTable) (c : Nat) (vs : List F64) (r : Regs) :
    (r.pushChannels tbl c vs).pos = r.pos :=
  Regs.pushChannels_keeps Regs.pos tbl c vs r fun _ _ _ => by simp

section Frames
variable (tbl : CoefTable) (frame : List F64) (n : Nat) (es : List F64) (r : Regs)

@[simp] theorem Regs.pushFrame_life : (r.pushFrame tbl frame).life = r.life :=
  Regs.pushChannels_keeps Regs.life tbl 0 frame r fun _ _ _ => by simp

@[simp] theorem Regs.pushFrame_nch : (r.pushFrame tbl frame).nch = r.nch :=
  Regs.pushChannels_keeps Regs.nch tbl 0 frame r fun _ _ _ => by simp

@[simp] theorem Regs.pushFrame_rate : (r.pushFrame tbl frame).rate = r.rate :=
  Regs.pushChannels_keeps Regs.rate tbl 0 frame r fun _ _ _ => by simp

/-- Step 4 (rule R127): the cursor moves once a frame. -/
theorem Regs.pushFrame_pos :
    (r.pushFrame tbl frame).pos.toNat = (r.pos.toNat + 1) % 12 := by
  simp [Regs.pushFrame]

@[simp] theorem Regs.pushFrames_zero : r.pushFrames tbl 0 es = r := rfl

theorem Regs.pushFrames_succ : r.pushFrames tbl (n + 1) es
    = (r.pushFrame tbl (es.take r.nch.toNat)).pushFrames tbl n (es.drop r.nch.toNat) := rfl

@[simp] theorem Regs.pushFrames_life : (r.pushFrames tbl n es).life = r.life := by
  induction n generalizing es r with
  | zero => rfl
  | succ n ih => rw [Regs.pushFrames_succ, ih, Regs.pushFrame_life]

@[simp] theorem Regs.pushFrames_nch : (r.pushFrames tbl n es).nch = r.nch := by
  induction n generalizing es r with
  | zero => rfl
  | succ n ih => rw [Regs.pushFrames_succ, ih, Regs.pushFrame_nch]

@[simp] theorem Regs.pushFrames_rate : (r.pushFrames tbl n es).rate = r.rate := by
  induction n generalizing es r with
  | zero => rfl
  | succ n ih => rw [Regs.pushFrames_succ, ih, Regs.pushFrame_rate]

/-- The cursor after `n` frames (rule R24). -/
theorem Regs.pushFrames_pos : (r.pushFrames tbl n es).pos.toNat
    = if n = 0 then r.pos.toNat else (r.pos.toNat + n) % 12 := by
  induction n generalizing es r with
  | zero => rfl
  | succ n ih =>
    rw [Regs.pushFrames_succ, ih, Regs.pushFrame_pos]
    split
    · simp_all
    · simp only [Nat.add_eq_zero_iff, one_ne_zero, and_false, if_false]; omega

/-- A PUSH of more frames is a PUSH of some and a PUSH of the rest: the frame loop carries nothing but
the architectural state from one frame to the next. -/
theorem Regs.pushFrames_add (m : Nat) : r.pushFrames tbl (n + m) es
    = (r.pushFrames tbl n es).pushFrames tbl m (es.drop (r.nch.toNat * n)) := by
  induction n generalizing es r with
  | zero => simp
  | succ n ih =>
    rw [show n + 1 + m = (n + m) + 1 by omega, Regs.pushFrames_succ, ih, Regs.pushFrames_succ,
      Regs.pushFrame_nch, List.drop_drop]
    congr 2
    ring

/-- A PUSH reads its own elements only. -/
theorem Regs.pushFrames_take {k : Nat} (h : r.nch.toNat * n ≤ k) :
    r.pushFrames tbl n (es.take k) = r.pushFrames tbl n es := by
  induction n generalizing es r k with
  | zero => rfl
  | succ n ih =>
    have h1 : r.nch.toNat ≤ k := by nlinarith
    rw [Regs.pushFrames_succ, Regs.pushFrames_succ, List.take_take, min_eq_left h1, List.drop_take]
    refine ih _ _ ?_
    rw [Regs.pushFrame_nch, Nat.le_sub_iff_add_le h1]
    linarith

end Frames

theorem Regs.pushChannels_wf (tbl : CoefTable) (c : Nat) (vs : List F64) (r : Regs)
    (hh : r.hist.wf = true) (hm : r.max.wf = true) :
    (r.pushChannels tbl c vs).hist.wf = true ∧ (r.pushChannels tbl c vs).max.wf = true := by
  induction vs generalizing c r with
  | nil => exact ⟨hh, hm⟩
  | cons v vs ih =>
    obtain ⟨h1, h2⟩ := Regs.pushSample_wf tbl c v r hh hm
    exact ih _ _ h1 h2

/-- A PUSH keeps the canonical form of both register files. -/
theorem Regs.pushFrames_wf (tbl : CoefTable) (n : Nat) (es : List F64) (r : Regs)
    (hh : r.hist.wf = true) (hm : r.max.wf = true) :
    (r.pushFrames tbl n es).hist.wf = true ∧ (r.pushFrames tbl n es).max.wf = true := by
  induction n generalizing es r with
  | zero => exact ⟨hh, hm⟩
  | succ n ih =>
    obtain ⟨h1, h2⟩ := Regs.pushChannels_wf tbl 0 (es.take r.nch.toNat) r hh hm
    exact ih _ _ h1 h2

theorem Regs.pushChannels_below (tbl : CoefTable) {n : Nat} (c : Nat) (vs : List F64) (r : Regs)
    (hc : c + vs.length ≤ n) (hh : r.hist.below (12 * n)) (hm : r.max.below n) :
    (r.pushChannels tbl c vs).hist.below (12 * n) ∧ (r.pushChannels tbl c vs).max.below n := by
  induction vs generalizing c r with
  | nil => exact ⟨hh, hm⟩
  | cons v vs ih =>
    rw [List.length_cons] at hc
    obtain ⟨h1, h2⟩ := Regs.pushSample_below tbl c v r (by omega) hh hm
    exact ih _ _ (by omega) h1 h2

/-- A PUSH writes cells of channels below `NCH` only. -/
theorem Regs.pushFrames_below (tbl : CoefTable) {b : Nat} (n : Nat) (es : List F64) (r : Regs)
    (hb : r.nch.toNat ≤ b) (hh : r.hist.below (12 * b)) (hm : r.max.below b) :
    (r.pushFrames tbl n es).hist.below (12 * b) ∧ (r.pushFrames tbl n es).max.below b := by
  induction n generalizing es r with
  | zero => exact ⟨hh, hm⟩
  | succ n ih =>
    obtain ⟨h1, h2⟩ := Regs.pushChannels_below tbl (n := b) 0 (es.take r.nch.toNat) r
      (by rw [List.length_take]; omega) hh hm
    exact ih _ _ (by rw [Regs.pushFrame_nch]; exact hb) h1 h2

/-! ### Each channel by itself -/

/-- The ring buffer of one channel. -/
abbrev Row := Fin 12 → F64

/-- The ring slot of a cursor value. -/
def slotOf (p : Nat) : Fin 12 := ⟨p % 12, Nat.mod_lt _ (by decide)⟩

/-- The ring buffer and the running maximum of channel `c`. -/
def Regs.chan (r : Regs) (c : Nat) : Row × F64 := (fun k => r.histAt c k, r.maxAt c)

/-- The history values of a ring as the taps meet them with the cursor at `p` (rule R52). -/
def rowWindow (row : Row) (p : Nat) : Nat → F64 := fun i => row (slotOf (p + 12 - i))

/-- Steps 1 to 3 on one channel with the cursor at `p` (rules R124 to R126). -/
def chanStep (tbl : CoefTable) (p : Nat) (x : Row × F64) (v : F64) : Row × F64 :=
  let row := Function.update x.1 (slotOf p) v
  (row, ((List.range 4).map fun q => dot12 (tbl q) (rowWindow row p)).foldl runningMax x.2)

/-- A run of one channel over its samples, the cursor starting at `p`. -/
def chanRun (tbl : CoefTable) : Nat → List F64 → Row × F64 → Row × F64
  | _, [], x => x
  | p, v :: vs, x => chanRun tbl ((p + 1) % 12) vs (chanStep tbl p x v)

theorem Regs.chan_ext {r r' : Regs} {c c' : Nat} :
    r.chan c = r'.chan c' ↔
      (∀ k, k < 12 → r.histAt c k = r'.histAt c' k) ∧ r.maxAt c = r'.maxAt c' := by
  unfold Regs.chan
  rw [Prod.mk.injEq, funext_iff]
  constructor
  · rintro ⟨h, hm⟩; exact ⟨fun k hk => h ⟨k, hk⟩, hm⟩
  · rintro ⟨h, hm⟩; exact ⟨fun k => h k k.isLt, hm⟩

/-- The dot product reads taps 0 to 11 only. -/
theorem dot12_congr {a a' w w' : Nat → F64} (ha : ∀ i < 12, a i = a' i) (hw : ∀ i < 12, w i = w' i) :
    dot12 a w = dot12 a' w' := by
  unfold dot12
  refine List.foldl_ext _ _ _ fun acc i hi => ?_
  rw [List.mem_range] at hi
  rw [ha i hi, hw i hi]

/-- The row of a channel after step 1. -/
theorem Regs.histAt_step1 (c : Nat) (v : F64) (r : Regs) {k : Nat} (hk : k < 12) :
    (r.setHist c r.writeSlot v).histAt c k
      = Function.update (r.chan c).1 (slotOf r.pos.toNat) v ⟨k, hk⟩ := by
  rw [Regs.histAt_setHist r v r.writeSlot_lt hk, Function.update_apply]
  have : (⟨k, hk⟩ : Fin 12) = slotOf r.pos.toNat ↔ k = r.writeSlot := by
    rw [Fin.ext_iff]; exact Iff.rfl
  simp only [this, true_and]
  rfl

theorem Regs.pushSample_chan_same (tbl : CoefTable) (c : Nat) (v : F64) (r : Regs) :
    (r.pushSample tbl c v).chan c = chanStep tbl r.pos.toNat (r.chan c) v := by
  have hrow : ((r.pushSample tbl c v).chan c).1
      = Function.update (r.chan c).1 (slotOf r.pos.toNat) v := by
    funext k
    have h : (r.pushSample tbl c v).histAt c k = (r.setHist c r.writeSlot v).histAt c k := by
      unfold Regs.histAt; rw [Regs.pushSample_hist]
    exact h.trans (Regs.histAt_step1 c v r k.isLt)
  have hphase : ∀ q, (r.setHist c r.writeSlot v).phaseResult tbl c q
      = dot12 (tbl q) (rowWindow (Function.update (r.chan c).1 (slotOf r.pos.toNat) v)
          r.pos.toNat) := fun q =>
    dot12_congr (fun _ _ => rfl) fun i _ => Regs.histAt_step1 c v r (Regs.tapSlot_lt _ i)
  have hmax : ((r.pushSample tbl c v).chan c).2 = (chanStep tbl r.pos.toNat (r.chan c) v).2 := by
    show (r.pushSample tbl c v).maxAt c = _
    rw [Regs.pushSample_maxAt, if_pos rfl]
    simp only [hphase]
    rfl
  exact Prod.ext hrow hmax

theorem Regs.pushSample_chan (tbl : CoefTable) (c : Nat) (v : F64) (r : Regs) (c' : Nat) :
    (r.pushSample tbl c v).chan c'
      = if c' = c then chanStep tbl r.pos.toNat (r.chan c) v else r.chan c' := by
  split
  · subst c'; exact Regs.pushSample_chan_same tbl c v r
  · rename_i hne
    rw [Regs.chan_ext]
    refine ⟨fun k hk => ?_, ?_⟩
    · rw [Regs.pushSample_histAt tbl c v r c' hk, if_neg (fun h => hne h.1)]
    · rw [Regs.pushSample_maxAt, if_neg hne]

theorem Regs.pushChannels_chan (tbl : CoefTable) (c0 : Nat) (vs : List F64) (r : Regs) (c : Nat) :
    (r.pushChannels tbl c0 vs).chan c = if h : c0 ≤ c ∧ c - c0 < vs.length
      then chanStep tbl r.pos.toNat (r.chan c) (vs[c - c0]'h.2) else r.chan c := by
  induction vs generalizing c0 r with
  | nil => simp [Regs.pushChannels]
  | cons v vs ih =>
    rw [Regs.pushChannels, ih, Regs.pushSample_chan, Regs.pushSample_pos]
    rcases Nat.lt_trichotomy c c0 with h | rfl | h
    · rw [dif_neg (by omega), dif_neg (by omega), if_neg (by omega)]
    · rw [dif_neg (by omega), dif_pos ⟨le_rfl, by simp⟩, if_pos rfl]
      simp
    · have hs : c - c0 = (c - (c0 + 1)) + 1 := by omega
      by_cases h2 : c - c0 < (v :: vs).length
      · rw [List.length_cons] at h2
        rw [dif_pos ⟨by omega, by omega⟩, dif_pos ⟨by omega, by simpa using h2⟩, if_neg (by omega)]
        congr 1
        simp only [hs, List.getElem_cons_succ]
      · rw [List.length_cons] at h2
        rw [dif_neg (by omega), dif_neg (by simp; omega), if_neg (by omega)]

/-- One frame on channel `c < NCH` (rule R123). -/
theorem Regs.pushFrame_chan (tbl : CoefTable) (frame : List F64) (r : Regs) (c : Nat) :
    (r.pushFrame tbl frame).chan c = if h : c < frame.length
      then chanStep tbl r.pos.toNat (r.chan c) (frame[c]'h) else r.chan c := by
  show (r.pushChannels tbl 0 frame).chan c = _
  rw [Regs.pushChannels_chan]
  simp

/-- The samples of channel `c` among the elements of `n` frames of `nch` channels (rule R51). -/
def channelSamples (nch c n : Nat) (es : List F64) : List F64 :=
  (List.range n).map fun f => es.getD (nch * f + c) 0#64

theorem channelSamples_succ (nch c n : Nat) (es : List F64) :
    channelSamples nch c (n + 1) es
      = es.getD c 0#64 :: channelSamples nch c n (es.drop nch) := by
  unfold channelSamples
  rw [List.range_succ_eq_map, List.map_cons, List.map_map]
  simp only [Nat.mul_zero, Nat.zero_add]
  congr 1
  refine List.map_congr_left fun f _ => ?_
  simp only [Function.comp_apply, List.getD_eq_getElem?_getD, List.getElem?_drop]
  rw [show nch + (nch * f + c) = nch * (f + 1) + c by ring]

/-- A PUSH on channel `c < NCH` is a run of that channel over its own samples: nothing of another channel
enters. -/
theorem Regs.pushFrames_chan (tbl : CoefTable) (n : Nat) (es : List F64) (r : Regs) {c : Nat}
    (hc : c < r.nch.toNat) (hlen : r.nch.toNat * n ≤ es.length) :
    (r.pushFrames tbl n es).chan c
      = chanRun tbl r.pos.toNat (channelSamples r.nch.toNat c n es) (r.chan c) := by
  induction n generalizing es r with
  | zero => rfl
  | succ n ih =>
    rw [Nat.mul_succ] at hlen
    rw [Regs.pushFrames_succ, ih _ _ (by simpa using hc) (by simp; omega), Regs.pushFrame_nch,
      Regs.pushFrame_pos, Regs.pushFrame_chan, channelSamples_succ, chanRun,
      dif_pos (by rw [List.length_take]; omega)]
    congr 2
    rw [List.getElem_take, List.getD_eq_getElem?_getD, List.getElem?_eq_getElem (by omega)]
    rfl

/-- Cells of channels from `NCH` on are not touched (rules R25, R53). -/
theorem Regs.pushFrames_chan_beyond (tbl : CoefTable) (n : Nat) (es : List F64) (r : Regs) {c : Nat}
    (hc : r.nch.toNat ≤ c) : (r.pushFrames tbl n es).chan c = r.chan c := by
  induction n generalizing es r with
  | zero => rfl
  | succ n ih =>
    rw [Regs.pushFrames_succ, ih _ _ (by simpa using hc), Regs.pushFrame_chan,
      dif_neg (by rw [List.length_take]; omega)]

/-! ### The running maximum -/

/-- The maximum after one result is the old one or the result's absolute value, and neither exceeds it
(a NaN result has no absolute value that exceeds anything). -/
theorem runningMax_cases (m y : F64) :
    (runningMax m y = m ∧ f64Gt (f64Abs y) m = false) ∨
    (runningMax m y = f64Abs y ∧ f64Gt (f64Abs y) m = true) := by
  unfold runningMax
  split
  · exact Or.inr ⟨rfl, ‹_›⟩
  · rename_i h; exact Or.inl ⟨rfl, Bool.eq_false_iff.2 h⟩

/-- A maximum never decreases (rule R162). -/
theorem runningMax_mono (m y : F64) : f64Gt m (runningMax m y) = false := by
  rcases runningMax_cases m y with ⟨h, -⟩ | ⟨h, h'⟩
  · rw [h]; exact f64Gt_irrefl m
  · rw [h, Bool.eq_false_iff]
    intro h2
    have := f64Gt_trans h' h2
    rw [f64Gt_irrefl] at this; cases this

theorem f64Gt_of_not {a b c : F64} (h : f64Gt a b = true) (h' : f64Gt c b = false)
    (hc : F64.isNaN c = false) : f64Gt a c = true := by
  rw [f64Gt_iff] at *
  refine ⟨h.1, hc, ?_⟩
  rw [Bool.eq_false_iff, ne_eq, f64Gt_iff] at h'
  have : ¬ F64.key b < F64.key c := fun h2 => h' ⟨hc, h.2.1, h2⟩
  omega

/-- A NaN is never exceeded and never replaced. -/
theorem foldl_runningMax_nan (ys : List F64) {m : F64} (h : F64.isNaN m = true) :
    ys.foldl runningMax m = m := by
  induction ys with
  | nil => rfl
  | cons y ys ih =>
    have hy : runningMax m y = m := by unfold runningMax; rw [if_neg (by simp [f64Gt, h])]
    rw [List.foldl_cons, hy, ih]

/-- What all results of a frame do to a maximum (rule R126): it is the old one or one of the absolute
values, and neither the old one nor an absolute value exceeds it. -/
theorem foldl_runningMax_spec (ys : List F64) (m : F64) :
    (ys.foldl runningMax m = m ∨ ∃ y ∈ ys, F64.isNaN y = false ∧ ys.foldl runningMax m = f64Abs y) ∧
    f64Gt m (ys.foldl runningMax m) = false ∧
    ∀ y ∈ ys, f64Gt (f64Abs y) (ys.foldl runningMax m) = false := by
  induction ys generalizing m with
  | nil => exact ⟨Or.inl rfl, f64Gt_irrefl m, by simp⟩
  | cons y ys ih =>
    rw [List.foldl_cons]
    obtain ⟨h1, h2, h3⟩ := ih (runningMax m y)
    have mono : ∀ a, f64Gt a (runningMax m y) = false →
        f64Gt a (ys.foldl runningMax (runningMax m y)) = false := by
      intro a ha
      rw [Bool.eq_false_iff] at *
      intro hgt
      apply ha
      rcases hn : F64.isNaN (runningMax m y) with _ | _
      · exact f64Gt_of_not hgt (by rwa [Bool.eq_false_iff]) hn
      · rw [foldl_runningMax_nan ys hn] at hgt; exact hgt
    refine ⟨?_, ?_, ?_⟩
    · rcases h1 with h1 | ⟨z, hz, hzn, h1⟩
      · rcases runningMax_cases m y with ⟨h, -⟩ | ⟨h, h'⟩
        · exact Or.inl (h1.trans h)
        · exact Or.inr ⟨y, by simp, by simpa using ((f64Gt_iff _ _).1 h').1, h1.trans h⟩
      · exact Or.inr ⟨z, by simp [hz], hzn, h1⟩
    · exact mono m (runningMax_mono m y)
    · intro z hz
      rcases List.mem_cons.1 hz with rfl | hz
      · refine mono _ ?_
        rcases runningMax_cases m z with ⟨h, h'⟩ | ⟨h, -⟩
        · rw [h]; exact h'
        · rw [h]; exact f64Gt_irrefl _
      · exact h3 z hz

/-- A magnitude stays a magnitude (rule R35 (c)). -/
theorem foldl_runningMax_isMagnitude (ys : List F64) {m : F64} (h : F64.isMagnitude m) :
    F64.isMagnitude (ys.foldl runningMax m) := by
  rcases (foldl_runningMax_spec ys m).1 with h1 | ⟨y, -, hy, h1⟩
  · rw [h1]; exact h
  · rw [h1]; exact f64Abs_isMagnitude hy

end Sys2Proof.Machine
end

