-- ==== Sys2Proof/Laws/Dot.lean ====
section
/-! SUPPORT. The coefficient tables' ingredients, and dot products tap by tap, of rings with a
NaN in them, of zeros and of an impulse. -/

namespace Sys2Proof.Machine

theorem isFinite_finiteOf (x : F64) : F64.isFinite (finiteOf x) = true := by
  unfold finiteOf
  split
  · assumption
  · have := Nat.mod_lt (F64.mag x) (show 0 < 2^52 by decide)
    simp only [F64.isFinite, decide_eq_true_eq]
    generalize F64.mag x % 2 ^ 52 = M at *
    have hM : M < 2^63 := by omega
    rw [F64.mag_pack (m := M) _ hM]; unfold F64.infMag; omega

theorem isFinite_symmetricTable {h : Nat → Nat → F64} (hf : ∀ p i, F64.isFinite (h p i) = true)
    (p i) : F64.isFinite (symmetricTable h p i) = true := by
  unfold symmetricTable; split <;> exact hf _ _

theorem xor_one_toNat (a : F64) :
    (a ^^^ 1#64).toNat = if a.toNat % 2 = 0 then a.toNat + 1 else a.toNat - 1 := by
  rw [BitVec.toNat_xor]
  show a.toNat ^^^ 1 = _
  split
  · have : a.toNat = 2 * (a.toNat / 2) := by omega
    rw [Nat.xor_one_of_even (Nat.even_iff.2 (by assumption))]
  · rw [Nat.xor_one_of_odd (Nat.odd_iff.2 (by omega))]

theorem isFinite_xor_one {a : F64} (h : F64.isFinite a = true) : F64.isFinite (a ^^^ 1#64) = true :=
    by
  simp only [F64.isFinite, decide_eq_true_eq] at *
  unfold F64.mag F64.infMag at *
  rw [xor_one_toNat]; split <;> omega

theorem isFinite_distinctFrom {h h' : Nat → Nat → F64} (hf : ∀ p i, F64.isFinite (h' p i) = true)
    (p i) : F64.isFinite (distinctFrom h h' p i) = true := by
  unfold distinctFrom; split
  · exact isFinite_xor_one (hf _ _)
  · exact hf _ _

/-- Both tables have the form of rule R10. -/
theorem coefOf_symmetric (rate : Rate) : ∃ h, coefOf rate = symmetricTable h := by
  cases rate
  · exact ⟨fun p i => finiteOf (Config.rawCoef44100 p i), rfl⟩
  · exact ⟨distinctFrom (fun p i => finiteOf (Config.rawCoef44100 p i)) (fun p i => finiteOf (Config.rawCoef48000 p i)), rfl⟩

/-- The accumulator of a dot product, tap by tap (rule R125). -/
theorem dot12_steps (co w : Nat → F64) : ∃ acc : Nat → F64, acc 0 = 0#64 ∧
    (∀ i, acc (i + 1) = f64Add (acc i) (f64Mul (co i) (w i))) ∧ acc 12 = dot12 co w :=
  ⟨fun n => (List.range n).foldl (fun acc i => f64Add acc (f64Mul (co i) (w i))) 0#64, rfl,
    fun i => by simp only [List.range_succ, List.foldl_append, List.foldl_cons, List.foldl_nil], rfl⟩

/-- A NaN in the ring makes the dot product a NaN (rule R133). -/
theorem dot12_nan (co w : Nat → F64) (h : ∃ k, k < 12 ∧ F64.isNaN (w k) = true) : F64.isNaN
    (dot12 co w) = true := by
  obtain ⟨k, hk, hn⟩ := h
  have acc : ∀ (l : List Nat) (a : F64), (F64.isNaN a = true ∨ ∃ k ∈ l, F64.isNaN (w k) = true) →
      F64.isNaN (l.foldl (fun acc i => f64Add acc (f64Mul (co i) (w i))) a) = true := by
    intro l
    induction l with
    | nil => intro a h; simpa using h
    | cons x l ih =>
      intro a h
      rw [List.foldl_cons]
      apply ih
      rcases h with h | ⟨k, hk, h⟩
      · exact Or.inl (f64Add_nan_left _ h)
      · rcases List.mem_cons.1 hk with rfl | hk
        · exact Or.inl (f64Add_nan_right _ (f64Mul_nan_right _ h))
        · exact Or.inr ⟨k, hk, h⟩
  exact acc _ _ (Or.inr ⟨k, List.mem_range.2 hk, hn⟩)

/-- A ring of zeros makes the dot product a zero (rule R135). -/
theorem dot12_zero (co w : Nat → F64) (hc : ∀ i, F64.isFinite (co i) = true) (h : ∀ k,
    k < 12 → F64.isZero (w k) = true) : F64.isZero (dot12 co w) = true := by
  have acc : ∀ (l : List Nat) (a : F64), F64.isZero a = true → (∀ k ∈ l, F64.isZero (w k) = true) →
      F64.isZero (l.foldl (fun acc i => f64Add acc (f64Mul (co i) (w i))) a) = true := by
    intro l
    induction l with
    | nil => intro a h _; exact h
    | cons x l ih =>
      intro a h h2
      rw [List.foldl_cons]
      exact ih _ (f64Add_zeros h (f64Mul_zero (hc _) (h2 x (by simp)))) fun k hk => h2 k (by simp [hk])
  exact acc _ _ (by decide) fun k hk => h k (List.mem_range.1 hk)

/-- Adding products with zeros keeps the magnitude. -/
theorem foldl_dot_zeros_mag (l : List Nat) (co w : Nat → F64) (hc : ∀ i,
    F64.isFinite (co i) = true) (h : ∀ k ∈ l, F64.isZero (w k) = true) (a : F64) (ha :
    F64.isFinite a = true) :
   F64.mag (l.foldl (fun acc i => f64Add acc (f64Mul (co i) (w i))) a) = F64.mag a := by
  induction l generalizing a with
  | nil => rfl
  | cons x l ih =>
    rw [List.foldl_cons]
    have hz : F64.isZero (f64Mul (co x) (w x)) = true := f64Mul_zero (hc _) (h x (by simp))
    have e := (f64Add_zero_mag ha hz).1
    rw [ih (fun k hk => h k (by simp [hk])) _ (by simp only [F64.isFinite, decide_eq_true_eq] at *; rw [e]; exact ha), e]

/-- A single 1.0 among zeros makes the dot product the coefficient it meets,
    up to the sign of a zero (rule R140). -/
theorem dot12_impulse (co w : Nat → F64) (hc : ∀ i, F64.isFinite (co i) = true) (j : Nat)
    (hj : j < 12) (h1 : w j = 0x3FF0000000000000#64)
   (h : ∀ k, k < 12 → k ≠ j → F64.isZero (w k) = true) : F64.mag (dot12 co w) = F64.mag (co j) := by
  unfold dot12
  have e : List.range 12 = List.range j ++ (j :: (List.range (12 - j - 1)).map (· + (j+1))) := by
    interval_cases j <;> rfl
  rw [e, List.foldl_append, List.foldl_cons]
  have z : ∀ (l : List Nat) (a : F64), F64.isZero a = true → (∀ k ∈ l, F64.isZero (w k) = true) →
      F64.isZero (l.foldl (fun acc i => f64Add acc (f64Mul (co i) (w i))) a) = true := by
    intro l
    induction l with
    | nil => intro a h _; exact h
    | cons x l ih =>
      intro a h h2
      rw [List.foldl_cons]
      exact ih _ (f64Add_zeros h (f64Mul_zero (hc _) (h2 x (by simp)))) fun k hk => h2 k (by simp [hk])
  have hz := z (List.range j) 0#64 (by decide) fun k hk => by rw [List.mem_range] at hk; exact h k (by omega) (by omega)
  rw [h1, f64Mul_one (hc j)]
  have e2 := (f64Add_zero_mag (hc j) hz).2
  have e3 := e2
  rw [foldl_dot_zeros_mag, e2]
  · exact hc
  · intro k hk
    simp only [List.mem_map, List.mem_range] at hk
    obtain ⟨q, hq, rfl⟩ := hk
    exact h _ (by omega) (by omega)
  · have := hc j
    simp only [F64.isFinite, decide_eq_true_eq] at *; rw [e3]; exact this

/-- The maximum after a frame is the old one or strictly above it. -/
theorem foldl_runningMax_gt (ys : List F64) (m : F64) : ys.foldl runningMax m = m ∨ f64Gt
    (ys.foldl runningMax m) m = true := by
  induction ys generalizing m with
  | nil => exact Or.inl rfl
  | cons y ys ih =>
    rw [List.foldl_cons]
    rcases runningMax_cases m y with ⟨h, -⟩ | ⟨h, h'⟩
    · rw [h]; exact ih m
    · rw [h]
      rcases ih (f64Abs y) with h2 | h2
      · rw [h2]; exact Or.inr h'
      · exact Or.inr (f64Gt_trans h2 h')

/-- Zero results leave a maximum as it was. -/
theorem foldl_runningMax_zeros (ys : List F64) {m : F64} (hm : F64.sign m = false) (h : ∀ y ∈ ys,
    F64.isZero y = true) : ys.foldl runningMax m = m := by
  induction ys with
  | nil => rfl
  | cons y ys ih =>
    rw [List.foldl_cons]
    have : runningMax m y = m := by
      unfold runningMax; rw [f64Gt_abs_zero _ (h y (by simp)) hm]; rfl
    rw [this]; exact ih fun z hz => h z (by simp [hz])

end Sys2Proof.Machine
end

