-- ==== Sys2Proof/Laws/Exec.lean ====
section
/-! SUPPORT. What a command and a step can do, said once: a command that has its beats concludes with one
status, one datum and one architectural state, functions of the architectural state and the beats; a
step is a reset, a transfer, a wait, an illegal word or a command. -/

namespace Sys2Proof.Machine

/-- The status of a command, its response data, and the architectural state it leaves, as functions of
the architectural state and the beats. -/
def outcome (samp : List Beat) (r : Regs) : Instr → Status × F64 × Regs
  | .create channels rate =>
    match createStatus Config.nchMax channels rate r with
    | .ok => (.ok, 0#64, r.created channels rate)
    | e => (e, 0#64, r)
  | .pushF64 n avail => pushOutcome normF64 n avail
  | .pushF32 n avail => pushOutcome normF32 n avail
  | .pushI32 n avail => pushOutcome normI32 n avail
  | .readmax channel =>
    match readmaxStatus channel r with
    | .ok => (.ok, r.maxAt channel.toNat, r)
    | e => (e, 0#64, r)
  | .destroy =>
    match r.life with
    | .destroyed => (.invalidState, 0#64, r)
    | .uninitialized => (.ok, 0#64, r)
    | .ready => (.ok, 0#64, { r with life := .destroyed })
where
  pushOutcome (norm : Beat → F64) (n avail : Nat) : Status × F64 × Regs :=
    match pushStatus n avail r with
    | .ok => (.ok, 0#64, r.pushFrames (coefOf r.rate) n (elements norm (r.nch.toNat * n) samp))
    | e => (e, 0#64, r)

theorem State.push_eq (norm : Beat → F64) (n avail : Nat) (s : State) :
    s.push norm (coefOf s.regs.rate) n avail = if s.samp.length < avail then s else
      s.conclude (outcome.pushOutcome s.samp s.regs norm n avail).1
        (outcome.pushOutcome s.samp s.regs norm n avail).2.1 avail
        (outcome.pushOutcome s.samp s.regs norm n avail).2.2 := by
  unfold State.push outcome.pushOutcome
  split
  · rfl
  · cases pushStatus n avail s.regs <;> rfl

/-- Every command: it waits while its beats are missing, and else concludes with its outcome. -/
theorem exec_eq (i : Instr) (s : State) :
    exec i s = .next (if s.samp.length < beatsOf i then s else
      s.conclude (outcome s.samp s.regs i).1 (outcome s.samp s.regs i).2.1 (beatsOf i)
        (outcome s.samp s.regs i).2.2) := by
  cases i with
  | create channels rate =>
    show Host.Outcome.next (s.create Config.nchMax channels rate) = _
    simp only [State.create, beatsOf, Nat.not_lt_zero, if_false, outcome]
    cases createStatus Config.nchMax channels rate s.regs <;> rfl
  | pushF64 n avail => exact congrArg _ (State.push_eq normF64 n avail s)
  | pushF32 n avail => exact congrArg _ (State.push_eq normF32 n avail s)
  | pushI32 n avail => exact congrArg _ (State.push_eq normI32 n avail s)
  | readmax channel =>
    show Host.Outcome.next (s.readmax channel) = _
    simp only [State.readmax, beatsOf, Nat.not_lt_zero, if_false, outcome]
    cases readmaxStatus channel s.regs <;> rfl
  | destroy =>
    show Host.Outcome.next s.destroy = _
    simp only [State.destroy, beatsOf, Nat.not_lt_zero, if_false, outcome]
    cases s.regs.life <;> rfl

/-- A command that has its beats. -/
theorem exec_of_beats {i : Instr} {s : State} (h : beatsOf i ≤ s.samp.length) :
    exec i s = .next (s.conclude (outcome s.samp s.regs i).1 (outcome s.samp s.regs i).2.1
      (beatsOf i) (outcome s.samp s.regs i).2.2) := by
  rw [exec_eq, if_neg (by omega)]

/-- A command whose beats are missing waits (rule R216 (a)). -/
theorem exec_of_waiting {i : Instr} {s : State} (h : s.samp.length < beatsOf i) :
    exec i s = .next s := by
  rw [exec_eq, if_pos h]

theorem pushOutcome_error (samp : List Beat) (r : Regs) (norm : Beat → F64) (n avail : Nat)
    (h : pushStatus n avail r ≠ .ok) :
    outcome.pushOutcome samp r norm n avail = (pushStatus n avail r, 0#64, r) := by
  unfold outcome.pushOutcome
  split
  · exact absurd ‹_› h
  · rfl

theorem pushOutcome_ok (samp : List Beat) (r : Regs) (norm : Beat → F64) (n avail : Nat)
    (h : pushStatus n avail r = .ok) : outcome.pushOutcome samp r norm n avail
      = (.ok, 0#64, r.pushFrames (coefOf r.rate) n (elements norm (r.nch.toNat * n) samp)) := by
  unfold outcome.pushOutcome
  rw [h]

/-- When a PUSH is accepted (rule R121). -/
theorem pushStatus_ok {n avail : Nat} {r : Regs} :
    pushStatus n avail r = .ok ↔ r.life = .ready ∧ r.nch.toNat * n ≤ avail := by
  unfold pushStatus
  split
  · simp_all
  · split
    · simp_all
    · rename_i h1 h2
      simp only [ne_eq, not_not] at h1
      simp only [h1, true_and, true_iff]
      rcases Nat.eq_zero_or_pos n with rfl | hn
      · simp
      · by_contra hlt; exact h2 ⟨hn, by omega⟩

/-- When a CREATE is accepted (rule R111). -/
theorem createStatus_ok {cap rate : Nat} {channels : Int} {r : Regs} :
    createStatus cap channels rate r = .ok ↔
      r.life = .uninitialized ∧ 1 ≤ channels ∧ channels ≤ cap ∧ (rate = 44100 ∨ rate = 48000) := by
  unfold createStatus
  split
  · simp_all
  · split
    · simp_all; omega
    · split
      · simp_all
      · simp_all; omega

/-- When a READMAX is accepted (rule R151). -/
theorem readmaxStatus_ok {channel : Int} {r : Regs} :
    readmaxStatus channel r = .ok ↔ r.life = .ready ∧ 0 ≤ channel ∧ channel < r.nch.toNat := by
  unfold readmaxStatus
  split
  · simp_all
  · split
    · simp_all; omega
    · simp_all

/-- What a step can do: nothing (a held response the host does not take, no word on CMD, or missing
beats), a reset, a transfer, an illegal word, or the command on CMD. -/
theorem step_cases {s t : State} (h : step s = .next t) :
    (s.rst = true ∧ t = s.hardReset) ∨
    (s.rst = false ∧ s.rsp ≠ [] ∧ s.rspReady = true ∧ t = s.transferResponse) ∨
    (s.rst = false ∧ t = s ∧ (s.rsp ≠ [] ∧ s.rspReady = false ∨ s.rsp = [] ∧ s.cmd = [])) ∨
    (s.rst = false ∧ s.rsp = [] ∧ ∃ cw rest, s.cmd = cw :: rest ∧
      ((∃ e, decode cw = .error e) ∧ t = s.illegal ∨ ∃ i, decode cw = .ok i ∧ exec i s = .next t)) := by
  unfold step at h
  split at h
  · exact Or.inl ⟨‹_›, by cases h; rfl⟩
  have hr : s.rst = false := by simpa using ‹¬s.rst = true›
  split at h
  · rename_i w ws hw
    split at h
    · exact Or.inr (Or.inl ⟨hr, by simp [hw], ‹_›, by cases h; rfl⟩)
    · exact Or.inr (Or.inr (Or.inl
        ⟨hr, by cases h; rfl, Or.inl ⟨by simp [hw], by simpa using ‹¬s.rspReady = true›⟩⟩))
  · rename_i hw
    split at h
    · exact Or.inr (Or.inr (Or.inl ⟨hr, by cases h; rfl, Or.inr ⟨hw, ‹_›⟩⟩))
    · rename_i cw rest hc
      refine Or.inr (Or.inr (Or.inr ⟨hr, hw, cw, rest, hc, ?_⟩))
      split at h
      · exact Or.inl ⟨⟨_, ‹_›⟩, by cases h; rfl⟩
      · exact Or.inr ⟨_, ‹_›, h⟩

/-- A step always has a next state: the block never stops (rule R190). -/
theorem step_total (s : State) : ∃ t, step s = .next t := by
  unfold step
  split
  · exact ⟨_, rfl⟩
  · split
    · split <;> exact ⟨_, rfl⟩
    · split
      · exact ⟨_, rfl⟩
      · split
        · exact ⟨_, rfl⟩
        · exact ⟨_, exec_eq _ s⟩

/-- A command that answers a next state has waited or has concluded with its outcome. -/
theorem exec_next {i : Instr} {s t : State} (h : exec i s = .next t) :
    (s.samp.length < beatsOf i ∧ t = s) ∨ (beatsOf i ≤ s.samp.length ∧
      t = s.conclude (outcome s.samp s.regs i).1 (outcome s.samp s.regs i).2.1 (beatsOf i)
        (outcome s.samp s.regs i).2.2) := by
  rcases Nat.lt_or_ge s.samp.length (beatsOf i) with hl | hl
  · rw [exec_of_waiting hl] at h; cases h; exact Or.inl ⟨hl, rfl⟩
  · rw [exec_of_beats hl] at h; cases h; exact Or.inr ⟨hl, rfl⟩

/-- The three PUSH commands are one routine over how a beat is read (rules R128 to R130). -/
theorem outcome_push (f : (Nat → Nat → Instr) × (Beat → F64)) (hf : f ∈ pushForms) (n avail : Nat) :
    beatsOf (f.1 n avail) = avail ∧
    ∀ samp r, outcome samp r (f.1 n avail) = outcome.pushOutcome samp r f.2 n avail := by
  simp only [pushForms, List.mem_cons, List.not_mem_nil, or_false] at hf
  rcases hf with rfl | rfl | rfl
  · exact ⟨rfl, fun _ _ => by dsimp only; rfl⟩
  · exact ⟨rfl, fun _ _ => by dsimp only; rfl⟩
  · exact ⟨rfl, fun _ _ => by dsimp only; rfl⟩

/-- A PUSH that is accepted (rule R123). -/
theorem exec_push_ok {f : (Nat → Nat → Instr) × (Beat → F64)} (hf : f ∈ pushForms) {n avail : Nat}
    {s : State} (hb : avail ≤ s.samp.length) (h : pushStatus n avail s.regs = .ok) :
    exec (f.1 n avail) s = .next (s.conclude .ok 0#64 avail
      (s.regs.pushFrames (coefOf s.regs.rate) n
        (elements f.2 (s.regs.nch.toNat * n) s.samp))) := by
  obtain ⟨h1, h2⟩ := outcome_push f hf n avail
  rw [exec_of_beats (by rw [h1]; exact hb), h1, h2, pushOutcome_ok _ _ _ _ _ h]

/-- A PUSH that is refused (rule R121). -/
theorem exec_push_error {f : (Nat → Nat → Instr) × (Beat → F64)} (hf : f ∈ pushForms) {n avail : Nat}
    {s : State} (hb : avail ≤ s.samp.length) (h : pushStatus n avail s.regs ≠ .ok) :
    exec (f.1 n avail) s =
      .next (s.conclude (pushStatus n avail s.regs) 0#64 avail s.regs) := by
  obtain ⟨h1, h2⟩ := outcome_push f hf n avail
  rw [exec_of_beats (by rw [h1]; exact hb), h1, h2, pushOutcome_error _ _ _ _ _ h]

/-- An element is its beat, read. -/
theorem elements_getD (norm : Beat → F64) {count e : Nat} {samp : List Beat} (he : e < count)
    (hs : count ≤ samp.length) :
    (elements norm count samp).getD e 0#64 = norm (samp.getD e 0#64) := by
  simp [elements, List.getD_eq_getElem?_getD, he,
    List.getElem?_eq_getElem (show e < samp.length by omega)]

/-- A PUSH on one channel is a run of that channel over its own beats (rules R51, R168). -/
theorem Regs.pushFrames_chan_beats (norm : Beat → F64) {n c : Nat} {samp : List Beat} {r : Regs}
    (hc : c < r.nch.toNat) (hs : r.nch.toNat * n ≤ samp.length) :
    (r.pushFrames (coefOf r.rate) n (elements norm (r.nch.toNat * n) samp)).chan c =
      chanRun (coefOf r.rate) r.pos.toNat
        ((List.range n).map fun j => norm (samp.getD (r.nch.toNat * j + c) 0#64)) (r.chan c) := by
  rw [Regs.pushFrames_chan _ _ _ _ hc (by simp [elements]; omega)]
  congr 1
  refine List.map_congr_left fun j hj => elements_getD norm ?_ hs
  rw [List.mem_range] at hj
  calc r.nch.toNat * j + c < r.nch.toNat * j + r.nch.toNat := by omega
    _ = r.nch.toNat * (j + 1) := by ring
    _ ≤ r.nch.toNat * n := Nat.mul_le_mul_left _ hj

end Sys2Proof.Machine
end

