-- ==== Sys2Proof/Laws/PerInstr.lean ====
section
/-! SUPPORT. For every command: its word matches its own row of the opcode table (30_encoding.md rules
R82 and R87), whatever its operands. -/

namespace Sys2Proof.Laws

/-- The word of the command, under its row's mask, is its row's match, and its bits 63:56 are its
opcode (rules R82, R87). -/
def EncodingMatchesRow.Statement (i : Instr) : Prop :=
  encode i &&& i.rowMask = i.rowMatch ∧ opcodeField (encode i) = i.opcode

theorem opcodeField_append (op : BitVec 8) (x : BitVec 56) :
    opcodeField ((op ++ x : BitVec 64)) = op := by
  unfold opcodeField
  rw [BitVec.extractLsb'_append_eq_of_le (by decide)]
  simp

theorem encodeP_matches (op : BitVec 8) (n a : Nat) :
    encodeP op n a &&& 0xFF00000000000000#64 = op ++ 0#56 := by
  unfold encodeP
  rw [show 0xFF00000000000000#64 = 0xFF#8 ++ 0#56 from by decide, BitVec.and_append]
  congr 1
  · rw [show 0xFF#8 = BitVec.allOnes 8 from by decide, BitVec.and_allOnes]
  · exact BitVec.and_zero

theorem EncodingMatchesRow.create (channels : Int) (rate : Nat) :
    EncodingMatchesRow.Statement (.create channels rate) := by
  refine ⟨?_, opcodeField_append _ _⟩
  show 0x01#8 ++ (BitVec.ofInt 16 channels ++ (0#8 ++ BitVec.ofNat 32 rate)) &&& _ = _
  rw [show Instr.rowMask (.create channels rate) = 0xFF#8 ++ (0#16 ++ (0xFF#8 ++ 0#32)) from by
      simp only [Instr.rowMask]; decide,
    BitVec.and_append, BitVec.and_append, BitVec.and_append, BitVec.and_zero, BitVec.and_zero]
  simp only [Instr.rowMatch]; decide

theorem EncodingMatchesRow.pushF64 (n a : Nat) : EncodingMatchesRow.Statement (.pushF64 n a) :=
  ⟨(encodeP_matches _ n a).trans (by simp only [Instr.rowMatch]; decide), opcodeField_append _ _⟩

theorem EncodingMatchesRow.pushF32 (n a : Nat) : EncodingMatchesRow.Statement (.pushF32 n a) :=
  ⟨(encodeP_matches _ n a).trans (by simp only [Instr.rowMatch]; decide), opcodeField_append _ _⟩

theorem EncodingMatchesRow.pushI32 (n a : Nat) : EncodingMatchesRow.Statement (.pushI32 n a) :=
  ⟨(encodeP_matches _ n a).trans (by simp only [Instr.rowMatch]; decide), opcodeField_append _ _⟩

theorem EncodingMatchesRow.readmax (channel : Int) :
    EncodingMatchesRow.Statement (.readmax channel) := by
  refine ⟨?_, opcodeField_append _ _⟩
  show 0x20#8 ++ (BitVec.ofInt 16 channel ++ 0#40) &&& _ = _
  rw [show Instr.rowMask (.readmax channel) = 0xFF#8 ++ (0#16 ++ 0xFFFFFFFFFF#40) from by
      simp only [Instr.rowMask]; decide,
    BitVec.and_append, BitVec.and_append, BitVec.and_zero]
  simp only [Instr.rowMatch]; decide

theorem EncodingMatchesRow.destroy : EncodingMatchesRow.Statement .destroy := by
  unfold EncodingMatchesRow.Statement; decide

end Sys2Proof.Laws
end

