-- ==== Sys2Proof/Laws/Rounding.lean ====
section
/-! SUPPORT. Rounding: what is exact, what is nearest with its sign, what overflows; and the order of
magnitudes. The powers of two here are large: proofs keep them as variables. -/

namespace Sys2Proof.Machine

/-- A number of at most 53 significant bits has a significand and a shift in the form of a pattern. -/
theorem F64.exists_significand (t : Nat) (M : Nat) (hM : M < 2^53) : ∃ s M', M * 2^t = M' * 2^s ∧
    M' < 2^53 ∧ s ≤ t ∧ (s = 0 ∨ 2^52 ≤ M') := by
  induction t generalizing M with
  | zero => exact ⟨0, M, rfl, hM, le_refl _, Or.inl rfl⟩
  | succ t ih =>
    by_cases h : 2^52 ≤ M
    · exact ⟨t+1, M, rfl, hM, le_refl _, Or.inr h⟩
    · obtain ⟨s, M', e, a, b, c⟩ := ih (2*M) (by omega)
      exact ⟨s, M', by rw [← e, pow_succ]; ring, a, by omega, c⟩

/-- A number of at most 53 significant bits that is in range is not changed by rounding. -/
theorem F64.roundMag_exact {M t : Nat} (hM : M < 2^53) (ht : t ≤ 2045) :
    F64.roundMag (M * 2^t) 1 < F64.infMag ∧ F64.units (F64.roundMag (M * 2^t) 1) = M * 2^t := by
  obtain ⟨s, M', e, a, b, c⟩ := F64.exists_significand t M hM
  have hu := F64.units_shift (s := s) a.le c
  have hlt : s * 2^52 + M' < F64.infMag := by unfold F64.infMag; omega
  rw [e, ← hu, F64.roundMag_units hlt.le]
  exact ⟨hlt, rfl⟩

/-- The value of a finite pattern put together. -/
theorem F64.value_pack {m : Nat} (neg : Bool) (h : m < F64.infMag) : F64.value (F64.pack neg m) =
    (if neg then -1 else 1) * (F64.units m : Int) ∧ F64.isFinite (F64.pack neg m) = true ∧
    F64.sign (F64.pack neg m) = neg := by
  have h' := lt_trans h F64.infMag_lt
  unfold F64.value
  rw [F64.sign_pack _ h', F64.mag_pack _ h']
  refine ⟨?_, ?_, rfl⟩
  · cases neg <;> simp
  · simp only [F64.isFinite, decide_eq_true_eq]; rw [F64.mag_pack _ h']; exact h

/-- A finite binary32 magnitude has at most 24 significant bits. -/
theorem F32.exists_significand (m : Nat) (h : m < 0x7F800000) : ∃ M t, F32.units m = M * 2^t ∧
    M < 2^53 ∧ t ≤ 253 := by
  unfold F32.units
  split
  · exact ⟨m, 0, by simp, by omega, by omega⟩
  · exact ⟨_, _, rfl, by omega, by omega⟩

/-- The last bit of a pattern put together. -/
theorem F64.lsb_pack {m : Nat} (neg : Bool) (h : m < 2^63) : (F64.pack neg m).getLsbD 0 = false ↔
    m % 2 = 0 := by
  rw [← Bool.not_eq_true, BitVec.getLsbD, Nat.testBit_zero, decide_eq_true_eq, F64.toNat_pack neg h]
  cases neg
  · simp
  · simp only [if_true]; omega

/-- The one rounding is to nearest also among values of either sign. -/
theorem F64.roundMag_nearest_signed (n : Nat) {d : Nat} (hd : 0 < d)
    (hfin : F64.roundMag n d < F64.infMag) (σ τ : Int) (hσ : σ = 1 ∨ σ = -1) (hτ :
    τ = 1 ∨ τ = -1) (m : Nat) :
   |σ * n - d * (σ * F64.units (F64.roundMag n d))| ≤ |σ * n - d * (τ * F64.units m)| ∧
   (|σ * n - d * (σ * F64.units (F64.roundMag n d))| = |σ * n - d * (τ * F64.units m)| →
       τ * F64.units m ≠ σ * F64.units (F64.roundMag n d) → F64.roundMag n d % 2 = 0) := by
  obtain ⟨h1, h2⟩ := F64.roundMag_nearest n hd hfin m
  have h0 : n = 0 → F64.roundMag n d = 0 := by rintro rfl; exact F64.roundMag_zero d
  have hmon : |(n:Int) - d * F64.units m| ≤ |(n:Int) + d * F64.units m| ∧
      (|(n:Int) - d * F64.units m| = |(n:Int) + d * F64.units m| → n = 0 ∨ F64.units m = 0) := by
    have hp : (0:Int) ≤ d * F64.units m := by positivity
    have hz : (d * F64.units m : Int) = 0 → F64.units m = 0 := by
      intro h; rcases mul_eq_zero.1 h with h | h <;> omega
    generalize ((d:Int) * F64.units m) = x at *
    have hn : (0:Int) ≤ n := by positivity
    rw [abs_of_nonneg (show (0:Int) ≤ n + x by omega)]
    constructor
    · rw [abs_le]; omega
    · intro h
      rcases abs_cases ((n:Int) - x) with ⟨a, -⟩ | ⟨a, -⟩ <;> rw [a] at h
      · exact Or.inr (hz (by omega))
      · left; omega
  have eL : |σ * n - d * (σ * F64.units (F64.roundMag n d))| = |(n:Int) - d * F64.units (F64.roundMag n d)| := by
    rcases hσ with rfl | rfl
    · simp
    · rw [← abs_neg]; congr 1; ring
  rw [eL]
  have key : σ = τ ∨ τ = -σ := by omega
  rcases key with rfl | rfl
  · have eR : |σ * n - d * (σ * F64.units m)| = |(n:Int) - d * F64.units m| := by
      rcases hσ with rfl | rfl
      · simp
      · rw [← abs_neg]; congr 1; ring
    rw [eR]
    refine ⟨h1, fun a b => h2 a ?_⟩
    intro hc; rw [hc] at b; exact b rfl
  · have eR : |σ * n - d * (-σ * F64.units m)| = |(n:Int) + d * F64.units m| := by
      rcases hσ with rfl | rfl
      · congr 1; ring
      · rw [← abs_neg]; congr 1; ring
    rw [eR]
    refine ⟨le_trans h1 hmon.1, fun a b => ?_⟩
    have a1 : |(n:Int) - d * F64.units (F64.roundMag n d)| = |(n:Int) - d * F64.units m| :=
        le_antisymm h1 (by rw [a]; exact hmon.1)
    rcases hmon.2 (by rw [← a1, a]) with h | h
    · rw [h0 h]
    · refine h2 a1 ?_
      intro hc; apply b; rw [← hc, h]; simp

/-- A value is its sign times its magnitude. -/
theorem F64.value_eq (a : F64) : F64.value a = (if F64.sign a then -1 else 1) *
    (F64.units (F64.mag a) : Int) := by
  unfold F64.value; split <;> simp

theorem F64.roundMag_lt_of_finite {neg : Bool} {n d : Nat}
    (h : F64.isFinite (F64.pack neg (F64.roundMag n d)) = true) : F64.roundMag n d < F64.infMag :=
    by
  simp only [F64.isFinite, decide_eq_true_eq] at h
  rwa [F64.mag_pack _ (F64.roundMag_lt n d)] at h

/-- The quotient of finite operands. -/
theorem f64Div_finite {a b : F64} (ha : F64.isFinite a = true) (hb : F64.isFinite b = true)
    (hz : F64.isZero b = false) :
    f64Div a b = F64.pack (F64.sign a != F64.sign b) (F64.roundMag (F64.units (F64.mag a) * 2 ^ 1074) (F64.units (F64.mag b))) := by
  unfold f64Div
  rw [F64.isNaN_of_finite ha, F64.isNaN_of_finite hb, F64.isInf_of_finite ha,
      F64.isInf_of_finite hb, hz]
  rfl

/-- When `nearestEven` reaches an even bound. -/
theorem F64.nearestEven_ge (n : Nat) {D K : Nat} (hD : 0 < D) (hK : K % 2 = 1) :
    K + 1 ≤ F64.nearestEven n D ↔ (2 * K + 1) * D ≤ 2 * n := by
  unfold F64.nearestEven
  have hn := Nat.div_add_mod n D
  have hr := Nat.mod_lt n hD
  simp only
  generalize n / D = q at *
  generalize n % D = r at *
  have h5 : (2 * K + 1) * D = 2 * (D * K) + D := by ring
  rcases Nat.lt_trichotomy q K with hq | rfl | hq
  · have h3 : D * (q+1) ≤ D * K := Nat.mul_le_mul_left _ hq
    have h4 : D * (q+1) = D * q + D := by ring
    constructor
    · intro h; split at h <;> omega
    · intro h; omega
  · constructor
    · intro h
      split at h
      · rename_i hc
        rcases hc with h | ⟨h, -⟩ <;> omega
      · omega
    · intro h
      rw [if_pos]
      rcases Nat.lt_or_ge D (2*r) with h | h
      · exact Or.inl h
      · exact Or.inr ⟨by omega, hK⟩
  · have : D * (K+1) ≤ D * q := Nat.mul_le_mul_left _ hq
    have h4 : D * (K+1) = D * K + D := by ring
    constructor
    · intro _; omega
    · intro _; split <;> omega

/-- When a result overflows (rule R134): from halfway between the largest finite value and 2^1024 on. -/
theorem F64.roundMag_eq_infMag (n : Nat) {d : Nat} (hd : 0 < d) : F64.roundMag n d = F64.infMag ↔
    (2 ^ 54 - 1) * 2 ^ 2044 * d ≤ n := by
  obtain ⟨hM, hs, hlow⟩ := F64.significand_bounds n hd
  have hmin : F64.roundMag n d = F64.infMag ↔
      F64.infMag ≤ (Nat.log2 (n / d) - 52) * 2^52 + F64.nearestEven n (d * 2 ^ (Nat.log2 (n / d) - 52)) := by
    unfold F64.roundMag; simp only; rw [min_eq_right_iff]
  rw [hmin]
  have hl1 : Nat.log2 (n / d) - 52 ≤ 2044 → n / d < 2^53 * 2^2044 := by
    intro h
    rw [← pow_add]
    rcases Nat.eq_zero_or_pos (n/d) with h0 | h0
    · rw [h0]; positivity
    · obtain ⟨k, hk⟩ : ∃ k, k = 53 + 2044 := ⟨_, rfl⟩
      rw [← hk]; exact (Nat.log2_lt (by omega)).1 (by omega)
  have hl2 : 2046 ≤ Nat.log2 (n / d) - 52 → 2^54 * 2^2044 ≤ n / d := by
    intro h
    have hne : n / d ≠ 0 := by
      intro h0; rw [h0, show Nat.log2 0 = 0 from by decide] at h; omega
    obtain ⟨k, hk⟩ : ∃ k, k = 54 + 2044 := ⟨_, rfl⟩
    rw [← pow_add, ← hk]
    exact (Nat.le_log2 hne).1 (by omega)
  generalize Nat.log2 (n / d) - 52 = s at *
  have hI : F64.infMag = 2047 * 2^52 := by decide
  rw [hI]
  have e45 : (2:Nat)^2045 = 2 * 2^2044 := pow_succ' 2 2044
  have hP : (0:Nat) < 2^2044 := by positivity
  rcases Nat.lt_trichotomy s 2045 with h | h | h
  · have hlt := hl1 (by omega)
    clear hl1 hl2 e45
    generalize (2:Nat)^2044 = P at *
    rw [Nat.div_lt_iff_lt_mul hd] at hlt
    constructor
    · intro h'; omega
    · intro h'
      exfalso
      have : 2^53 * P * d ≤ (2^54 - 1) * P * d :=
          Nat.mul_le_mul_right _ (Nat.mul_le_mul_right _ (by norm_num))
      omega
  · subst h
    have hs' := hs.resolve_left (by decide)
    clear hl1 hl2 hlow hs
    rw [e45] at hM hs' ⊢
    clear e45
    generalize (2:Nat)^2044 = P at *
    have h1 := F64.nearestEven_ge n (D := d * (2 * P)) (K := 2^53 - 1) (by positivity) (by decide)
    rw [show (2:Nat)^53 - 1 + 1 = 2^53 from rfl,
        show 2 * ((2:Nat)^53 - 1) + 1 = 2^54 - 1 from rfl] at h1
    have h2 : (2^54 - 1) * (d * (2 * P)) ≤ 2 * n ↔ (2^54-1) * P * d ≤ n := by
      generalize (2:Nat)^54 - 1 = Q
      have : Q * (d * (2 * P)) = 2 * (Q * P * d) := by ring
      rw [this]; omega
    rw [← h2, ← h1]
    generalize F64.nearestEven n (d * (2 * P)) = M at *
    clear h1 h2 hs'
    omega
  · have hge := hl2 (by omega)
    have hs' := hs.resolve_left (by omega)
    clear hl1 hl2 e45 hlow
    generalize F64.nearestEven n (d * 2^s) = M at *
    generalize (2:Nat)^2044 = P at *
    constructor
    · intro _
      rw [Nat.le_div_iff_mul_le hd] at hge
      refine le_trans ?_ hge
      exact Nat.mul_le_mul_right _ (Nat.mul_le_mul_right _ (by norm_num))
    · intro _; omega

/-- A rounded result is no NaN. -/
theorem F64.isNaN_pack_roundMag {neg : Bool} {n d : Nat} : F64.isNaN
    (F64.pack neg (F64.roundMag n d)) = false := by
  simp only [F64.isNaN, decide_eq_false_iff_not]
  rw [F64.mag_pack _ (F64.roundMag_lt n d)]
  have := F64.roundMag_le n d; omega

theorem F64.isInf_pack_roundMag {neg : Bool} {n d : Nat} : F64.isInf
    (F64.pack neg (F64.roundMag n d)) = true ↔ F64.roundMag n d = F64.infMag := by
  simp only [F64.isInf, decide_eq_true_eq]
  rw [F64.mag_pack _ (F64.roundMag_lt n d)]

theorem F64.units_lt_succ (m : Nat) : F64.units m < F64.units (m+1) := by
  obtain ⟨s, M, rfl, hM, hs⟩ := F64.exists_shift m
  rw [F64.units_shift hM.le hs, Nat.add_assoc, F64.units_shift (by omega) (by omega)]
  exact Nat.mul_lt_mul_of_pos_right (Nat.lt_succ_self _) (by positivity)

/-- Magnitudes are ordered as their patterns are. -/
theorem F64.units_strictMono : StrictMono F64.units := strictMono_nat_of_lt_succ F64.units_lt_succ

theorem f64Abs_congr {a b : F64} (h : F64.mag a = F64.mag b) : f64Abs a = f64Abs b := by
  rw [f64Abs_eq_pack, f64Abs_eq_pack, h]

theorem F64.key_le_of_not_gt {a m : F64} (ha : F64.isNaN a = false) (hm : F64.isNaN m = false)
    (h : f64Gt a m = false) : F64.key a ≤ F64.key m := by
  rw [Bool.eq_false_iff, ne_eq, f64Gt_iff] at h
  by_contra hc; exact h ⟨ha, hm, by omega⟩

theorem f64Gt_eq_false_of_key {a b : F64} (h : F64.key a ≤ F64.key b) : f64Gt a b = false := by
  rw [Bool.eq_false_iff, ne_eq, f64Gt_iff]; rintro ⟨-, -, h2⟩; omega

end Sys2Proof.Machine
end

