-- ==== Sys2Proof/Tests/Slice0.lean ====
section
/-! SUPPORT. Tests: ill-formed commands, words written out from spec/, single steps with the spec's TOY
coefficients (95_test_vectors.md section 2), and for every statement that has hypotheses a state and
operands that meet them. -/

namespace Sys2Proof.Tests

open Sys2Proof Sys2Proof.Machine

-- One theorem after another: the kernel's evaluations run in threads of their own.
set_option Elab.async false

/-! ### WellFormed: an ill-formed term for each check -/

theorem test_wellFormed_create_channels :
    (Instr.create 32768 48000).wellFormed = false ∧ (Instr.create (-32769) 48000).wellFormed = false := by
  decide

theorem test_wellFormed_create_rate : (Instr.create 1 4294967296).wellFormed = false := by decide

theorem test_wellFormed_pushF64 :
    (Instr.pushF64 16777216 0).wellFormed = false ∧ (Instr.pushF64 0 4294967296).wellFormed = false := by
  decide

theorem test_wellFormed_pushF32 :
    (Instr.pushF32 16777216 0).wellFormed = false ∧ (Instr.pushF32 0 4294967296).wellFormed = false := by
  decide

theorem test_wellFormed_pushI32 :
    (Instr.pushI32 16777216 0).wellFormed = false ∧ (Instr.pushI32 0 4294967296).wellFormed = false := by
  decide

theorem test_wellFormed_readmax :
    (Instr.readmax 32768).wellFormed = false ∧ (Instr.readmax (-32769)).wellFormed = false := by decide

/-! ### Decoding: words written out bit by bit from rules R83 to R86 -/

/-- V4 of 95_test_vectors.md: opcode 00000001, channels 1000000000000000, mbz, rate all ones. -/
theorem test_decode_create : decode 0b0000000110000000000000000000000011111111111111111111111111111111#64
    = .ok (.create (-32768) 4294967295) := by decide

/-- V5: opcode 00010000, frameCount 3, avail 6. -/
theorem test_decode_pushF64 : decode 0b0001000000000000000000000000001100000000000000000000000000000110#64
    = .ok (.pushF64 3 6) := by decide

/-- Opcode 00010001, frameCount 100000000000000000000001, avail 2^31 + 1. -/
theorem test_decode_pushF32 : decode 0b0001000110000000000000000000000110000000000000000000000000000001#64
    = .ok (.pushF32 8388609 2147483649) := by decide

/-- V6: opcode 00010010, every other bit 1. -/
theorem test_decode_pushI32 : decode 0b0001001011111111111111111111111111111111111111111111111111111111#64
    = .ok (.pushI32 16777215 4294967295) := by decide

/-- V8: opcode 00100000, channel all ones, mbz. -/
theorem test_decode_readmax : decode 0b0010000011111111111111110000000000000000000000000000000000000000#64
    = .ok (.readmax (-1)) := by decide

/-- V11: opcode 00110000, mbz. -/
theorem test_decode_destroy : decode 0b0011000000000000000000000000000000000000000000000000000000000000#64
    = .ok .destroy := by decide

/-- V12 to V20 and V22: illegal words. -/
theorem test_decode_illegal :
    ([0x0000000000000000#64, 0xFFFFFFFFFFFFFFFF#64, 0x010001010000BB80#64, 0x010001800000BB80#64,
      0x2000000000000001#64, 0x2000008000000000#64, 0x3000000000000001#64, 0x3080000000000000#64,
      0x1300000000000000#64, 0x020001000000BB80#64, 0x1F00000000000000#64, 0x2100000000000000#64,
      0x3100000000000000#64] : List Word).all (fun cw => (decode cw).toOption.isNone) = true := by
  decide

/-- Rule R185: CREATE with a must-be-zero bit set. -/
theorem test_decode_mbz : decode 0x0100000100000000#64 = .error (.nonzeroMbz 0x01#8) := by decide

/-- The host's table words: a word of 64 bits is the command word itself, bit 0 the least significant. -/
theorem test_decodeTableWord : decodeTableWord 64 0x010001000000BB80 = some (.create 1 48000) ∧
    decodeTableWord 64 0x2000010000000000 = some (.readmax 1) ∧ decodeTableWord 64 0 = none := by
  decide

/-- Rule R55: the byte holding bits [7:0] comes first. -/
theorem test_bytes : bytesOf 8 0x010001000000BB80#64
    = [0x80#8, 0xBB#8, 0x00#8, 0x00#8, 0x00#8, 0x01#8, 0x00#8, 0x01#8] := by decide

/-- Rule R98: the text of a command. -/
theorem test_text : printLine (.create (-1) 48000)
    = ['C', 'R', 'E', 'A', 'T', 'E', ' ', '-', '1', ',', ' ', '4', '8', '0', '0', '0'] ∧
    parseLine ['R', 'E', 'A', 'D', 'M', 'A', 'X', ' ', '0', 'x', '1', '0', ';', 'c'] = some (.readmax 16) ∧
    parseLine ['R', 'E', 'A', 'D', 'M', 'A', 'X', ' ', '3', '2', '7', '6', '8'] = none := by decide

/-! ### Single commands -/

/-- `TOY48` (95_test_vectors.md section 2, the bit patterns of phases 0 and 1). -/
def toy48 : CoefTable := symmetricTable fun p i =>
  ([[0x3F90000000000000#64, 0xBFA0000000000000#64, 0x3FA8000000000000#64, 0xBFB4000000000000#64,
     0x3FC0000000000000#64, 0xBFCA000000000000#64, 0x3FEE000000000000#64, 0x3FC6000000000000#64,
     0xBFBC000000000000#64, 0x3FB0000000000000#64, 0xBFB8000000000000#64, 0x3FC2000000000000#64],
    [0xBFC4000000000000#64, 0x3FC8000000000000#64, 0xBFCC000000000000#64, 0x3FCE000000000000#64,
     0xBFD0000000000000#64, 0x3FDE000000000000#64, 0x3FE9000000000000#64, 0xBFD1000000000000#64,
     0x3FD2000000000000#64, 0xBFD3000000000000#64, 0x3FD4000000000000#64,
     0xBFD5000000000000#64]].getD p []).getD i 0#64

/-- A block with the given lifecycle state, channel count, cursor and beats; rings and maxima zero. -/
def block (life : Life) (nch : BitVec 16) (pos : BitVec 4) (samp : List Beat) : State where
  regs := { life := life, nch := nch, rate := .hz48000, pos := pos, hist := [], max := [] }
  cmd := []
  samp := samp
  rsp := []
  out := []
  rst := false
  rspReady := true

/-- R116: `CREATE 2, 48000` on a block of capacity 8. -/
theorem test_create_ok :
    let t := State.reset.create 8 2 48000
    (t.regs.life, t.regs.nch, t.regs.rate, t.regs.pos, t.rsp)
      = (.ready, 2#16, .hz48000, 0#4, [0x000000000000000000#72]) ∧
    t.regs.hist = [] ∧ t.regs.max = [] := by decide

/-- Rules R113, R185 with capacity 8: 0 channels, an unsupported rate, 9 channels, both of the last. -/
theorem test_create_errors : [State.reset.create 8 0 48000, State.reset.create 8 2 96000,
      State.reset.create 8 9 48000, State.reset.create 8 9 96000,
      (block .ready 1#16 0#4 []).create 8 0 96000].map State.rsp =
    [[0x010000000000000000#72], [0x010000000000000000#72], [0x020000000000000000#72],
      [0x010000000000000000#72], [0x030000000000000000#72]] := by decide

/-- R141, V21: two channels, three frames. -/
theorem test_pushF64_two_channels :
    let t := (block .ready 2#16 0#4 [0x3FF0000000000000#64, 0xC000000000000000#64,
      0x3FE0000000000000#64, 0x0000000000000000#64, 0xBFF0000000000000#64,
      0x4010000000000000#64]).push normF64 toy48 3 6
    (t.regs.pos, t.regs.maxAt 0, t.regs.maxAt 1, t.samp, t.rsp) =
      (3#4, 0x3FD5000000000000#64, 0x3FE7000000000000#64, [], [0x000000000000000000#72]) ∧
    (List.range 3).map (t.regs.histAt 0) =
      [0x3FF0000000000000#64, 0x3FE0000000000000#64, 0xBFF0000000000000#64] ∧
    (List.range 3).map (t.regs.histAt 1) =
      [0xC000000000000000#64, 0x0000000000000000#64, 0x4010000000000000#64] := by decide +kernel

/-- V47, frame 2, phase 2: the rounding of each product and each sum, and the order of the taps (from tap 11
down to 0 the result is 0x3FA199999999999A). -/
theorem test_dot12_order : dot12 (toy48 2) (fun i =>
      [0xBFB999999999999A#64, 0x3FB999999999999A#64, 0x3FB999999999999A#64].getD i 0#64)
    = 0x3FA1999999999998#64 := by decide +kernel

/-- By hand: (1 + 2^-52)^2 rounds to 1 + 2^-51, so that 1 + 2^-51 subtracted from it leaves +0.0; a fused
multiply-add of tap 1 would leave 2^-104. -/
theorem test_dot12_not_fused : dot12
      (fun i => [0x3FF0000000000000#64, 0x3FF0000000000001#64].getD i 0#64)
      (fun i => [0xBFF0000000000002#64, 0x3FF0000000000001#64].getD i 0#64)
    = 0x0000000000000000#64 := by decide +kernel

/-- V66: a subnormal element gives a subnormal maximum. -/
theorem test_pushF64_subnormal :
    ((block .ready 1#16 0#4 [0x0000000000000040#64, 0x0000000000000001#64]).push normF64 toy48 2 2
      ).regs.maxAt 0 = 0x0000000000000015#64 := by decide +kernel

/-- V60: widening, and junk in the ignored half. -/
theorem test_pushF32 :
    let t := (block .ready 1#16 0#4 [0x000000003F800000#64, 0xDEADBEEFBF000000#64,
      0x000000003DCCCCCD#64]).push normF32 toy48 3 3
    (t.regs.pos, t.regs.maxAt 0) = (3#4, 0x3FDF19999A200000#64) ∧
    (List.range 3).map (t.regs.histAt 0) =
      [0x3FF0000000000000#64, 0xBFE0000000000000#64, 0x3FB99999A0000000#64] := by decide +kernel

/-- V57: a Destroyed block, and V52's missing buffer. -/
theorem test_pushF32_errors :
    ((block .destroyed 1#16 0#4 []).push normF32 toy48 0 0).rsp = [0x030000000000000000#72] ∧
    ((block .ready 2#16 3#4 []).push normF32 toy48 1 0).rsp = [0x010000000000000000#72] := by decide

/-- V61: the corner integers. -/
theorem test_pushI32 :
    let t := (block .ready 1#16 0#4 [0x000000007FFFFFFF#64, 0x0000000080000000#64,
      0xFFFFFFFFFFFFFFFF#64, 0x0000000000000001#64, 0x0000000040000000#64]).push normI32 toy48 5 5
    (t.regs.pos, t.regs.maxAt 0) = (5#4, 0x3FE6BFFFFFF58000#64) ∧
    (List.range 5).map (t.regs.histAt 0) = [0x3FF0000000000000#64, 0xBFF0000000200000#64,
      0xBE00000000200000#64, 0x3E00000000200000#64, 0x3FE0000000200000#64] := by decide +kernel

/-- V54: no frames, two beats. -/
theorem test_pushI32_no_frames :
    let s := block .ready 2#16 3#4 [0x401C000000000000#64, 0x401C000000000000#64]
    s.push normI32 toy48 0 2 = s.conclude .ok 0#64 2 s.regs := by decide

/-- R154: READMAX 1 and 2 of a block with two channels. -/
theorem test_readmax :
    let s := block .ready 2#16 3#4 []
    let s1 := { s with regs := { s.regs with max := [(0, 0x3FD5000000000000#64), (1, 0x3FE7000000000000#64)] } }
    (s1.readmax 1).rsp = [0x003FE7000000000000#72] ∧ (s1.readmax 2).rsp = [0x010000000000000000#72] ∧
    (s1.readmax (-1)).rsp = [0x010000000000000000#72] ∧ (s1.readmax 1).regs = s1.regs := by decide

/-- R159: DESTROY of a Ready block, and again. -/
theorem test_destroy :
    let t := (block .ready 2#16 3#4 []).destroy
    (t.rsp, t.regs.life) = ([0x000000000000000000#72], .destroyed) ∧
    { t with rsp := [] }.destroy.rsp = [0x030000000000000000#72] := by decide

/-- R157: DESTROY right after reset, as the first step: response OK, still Uninitialized. -/
theorem test_step_withFetchWord :
    step (State.reset.withFetchWord 64 0x3000000000000000)
      = .next { State.reset with rsp := [0x000000000000000000#72] } := by rfl

/-- V56: a PUSH right after reset takes its beats and is an InvalidState. -/
theorem test_step_push_after_reset :
    step (State.reset.withFetchWord 64 0x1000000100000002)
      = .next { State.reset with rsp := [0x030000000000000000#72] } := by rfl

/-! ### The hypotheses of the statements are met -/

/-- A block with a word on CMD. -/
def withWord (cw : Word) (s : State) : State := { s with cmd := [cw] }

theorem witness_DecodeAfterEncode : (Instr.create (-32768) 4294967295).wellFormed = true ∧
    (Instr.pushF64 16777215 4294967295).wellFormed = true ∧ (Instr.pushF32 0 0).wellFormed = true ∧
    (Instr.pushI32 1 1).wellFormed = true ∧ (Instr.readmax 32767).wellFormed = true ∧
    Instr.destroy.wellFormed = true := by decide

theorem witness_EncodeAfterDecode : decode 0x01FFFF000000BB80#64 = .ok (.create (-1) 48000) := by
  decide

theorem witness_DecodeFollowsOpcodeTable :
    (0x0100000000000000#64, 0xFF0000FF00000000#64) ∈ opcodeTable ∧
    0x01FFFF000000BB80#64 &&& 0xFF0000FF00000000#64 = 0x0100000000000000#64 ∧
    decode 0x01FFFF000000BB80#64 = .ok (.create (-1) 48000) := by decide

theorem witness_IllegalWordsAreAnsweredOnly :
    let s := withWord 0x3000000000000001#64 State.reset
    s.rst = false ∧ s.rsp = [] ∧ s.cmd = [0x3000000000000001#64] ∧
    decode 0x3000000000000001#64 = .error (.nonzeroMbz 0x30#8) := by decide

theorem witness_OperandsAreTheirFields : decode 0x20FFFF0000000000#64 = .ok (.readmax (-1)) ∧
    decode 0x1000000300000006#64 = .ok (.pushF64 3 6) := by decide

theorem witness_StepExecutesTheDecodedCommand :
    let s := withWord 0x2000000000000000#64 (block .ready 1#16 0#4 [])
    s.rst = false ∧ s.rsp = [] ∧ s.cmd = [0x2000000000000000#64] ∧
    decode 0x2000000000000000#64 = .ok (.readmax 0) := by decide

theorem witness_StepServesTheHost :
    let held := { State.reset with rsp := [0#72] }
    (held.rst = false ∧ held.rsp = [0#72] ∧ held.rspReady = true) ∧
    ({ held with rspReady := false }.rst = false ∧ { held with rspReady := false }.rsp ≠ [] ∧
      { held with rspReady := false }.rspReady = false) ∧
    (State.reset.rst = false ∧ State.reset.rsp = [] ∧ State.reset.cmd = []) := by decide

theorem witness_ResponsesAreNeverLost :
    let s := withWord 0x3000000000000000#64 State.reset
    s.rst = false ∧ step s = .next { State.reset with rsp := [0#72] } := ⟨rfl, rfl⟩

theorem witness_ResetInputClearsTheBlock : { State.reset with rst := true }.rst = true := rfl

theorem witness_RegistersOutsideReadyAreUnobservable :
    (block .destroyed 1#16 0#4 []).regs.life ≠ .ready ∧
    (block .destroyed 2#16 5#4 []).regs.life = (block .destroyed 1#16 0#4 []).regs.life ∧
    (block .destroyed 2#16 5#4 []).regs ≠ (block .destroyed 1#16 0#4 []).regs ∧
    State.reset.regs.life ≠ .ready ∧ { Regs.reset with nch := 5 }.life = State.reset.regs.life := by
  decide

/-- The register file below differs from the block's in `HIST[1][0]` and `MAX[1]`, of a channel that the
block with one channel does not have. -/
theorem witness_CellsBeyondTheChannelsAreNeverRead :
    let s := block .ready 1#16 0#4 []
    let r' := { s.regs with hist := [(12, 1#64)], max := [(1, 1#64)] }
    s.regs.life = .ready ∧ r'.life = .ready ∧ r'.nch = s.regs.nch ∧ r'.rate = s.regs.rate ∧
    r'.pos = s.regs.pos ∧ ∀ c k, c < s.regs.nch.toNat → k < 12 →
      r'.histAt c k = s.regs.histAt c k ∧ r'.maxAt c = s.regs.maxAt c := by
  refine ⟨rfl, rfl, rfl, rfl, rfl, fun c k hc hk => ?_⟩
  obtain rfl : c = 0 := by have : (block .ready 1#16 0#4 []).regs.nch.toNat = 1 := rfl; omega
  have h : histIndex 0 k ≠ 12 := by unfold histIndex; omega
  simp [Regs.histAt, Regs.maxAt, Memory.read, block, Ne.symm h]

/-- Too few beats and exactly enough. -/
theorem witness_BeatConsumption :
    let s := withWord 0x1000000000000001#64 (block .ready 1#16 0#4 [])
    (s.rst = false ∧ s.rsp = [] ∧ s.cmd = [0x1000000000000001#64]) ∧ s.samp.length < 1 ∧
    1 ≤ { s with samp := [0#64] }.samp.length := by decide

theorem witness_StepKeepsBeatAccounting :
    let s := withWord 0x1000000000000001#64 (block .ready 1#16 0#4 [0#64])
    s.samp.length = s.beatsOwed ∧ s.rst = false ∧ s.rsp = [] ∧
    step s = .next { s with cmd := [], samp := [], rsp := [0#72] } := ⟨rfl, rfl, rfl, rfl⟩

/-- A READMAX that ends OK, one that does not, and a DESTROY. -/
theorem witness_EveryCommandAnswersOnce :
    let s := withWord 0x2000000000000000#64 (block .ready 1#16 0#4 [])
    let s' := withWord 0x2000010000000000#64 (block .ready 1#16 0#4 [])
    let s'' := withWord 0x3000000000000000#64 (block .ready 1#16 0#4 [])
    (s.rst = false ∧ s.rsp = [] ∧ s.cmd = [0x2000000000000000#64] ∧
      wordBeats 0x2000000000000000#64 ≤ s.samp.length ∧
      decode 0x2000000000000000#64 = .ok (.readmax 0) ∧ (exec (.readmax 0) s) =
        .next (s.answered 0 .ok 0#64 s.regs)) ∧
    (exec (.readmax 1) s') = .next (s'.answered 0 .invalidArgument 0#64 s'.regs) ∧
    wordBeats 0x3000000000000000#64 ≤ s''.samp.length :=
  ⟨⟨rfl, rfl, rfl, by decide, rfl, rfl⟩, rfl, by decide +kernel⟩

/-- Each clause: an illegal word, READMAX −1 of a Destroyed block, READMAX −1 and READMAX 0 of a Ready one. -/
theorem witness_ErrorPriority :
    let s := fun (life : Life) (cw : Word) => withWord cw (block life 1#16 0#4 [])
    (∀ life ∈ [Life.uninitialized, .ready, .destroyed],
      (s life 0#64).rst = false ∧ (s life 0#64).rsp = [] ∧ wordBeats 0#64 ≤ (s life 0#64).samp.length) ∧
    decode 0x0000000000000000#64 = .error (.unknownOpcode 0#8) ∧
    decode 0x20FFFF0000000000#64 = .ok (.readmax (-1)) ∧
    allowedIn (.readmax (-1)) .destroyed = false ∧ allowedIn (.readmax (-1)) .ready = true ∧
    (-1 : Int) < 0 ∧ decode 0x2000000000000000#64 = .ok (.readmax 0) ∧
    ¬((0 : Int) < 0 ∨ (((block .ready 1#16 0#4 []).regs.nch.toNat : Int) ≤ 0)) := by decide

/-- The clause of AllocationFailure: on a block of fewer than 32767 channels, CREATE 32767. (On a block of
32767 channels no command word asks for more: `NCH_MAX` is open, log entry 1.) -/
theorem witness_ErrorPriority_allocation (h : Config.nchMax < 32767) :
    decode 0x017FFF000000BB80#64 = .ok (.create 32767 48000) ∧
    allowedIn (.create 32767 48000) State.reset.regs.life = true ∧
    ¬invalidArgumentCause State.reset.regs (.create 32767 48000) ∧
    allocationCause (.create 32767 48000) := by
  refine ⟨by decide, rfl, ?_, ?_⟩
  · show ¬((32767 : Int) ≤ 0 ∨ ¬(48000 = 44100 ∨ 48000 = 48000)); omega
  · show (Config.nchMax : Int) < 32767; omega

/-- Each clause: a reset of a Ready and of a Destroyed block, and a DESTROY. -/
theorem witness_LifecycleTransitions :
    let r := { block .ready 1#16 0#4 [] with rst := true }
    let d := { block .destroyed 1#16 0#4 [] with rst := true }
    let s := withWord 0x3000000000000000#64 (block .ready 1#16 0#4 [])
    (step r = .next r.hardReset ∧ r.regs.life ≠ .uninitialized ∧
      r.hardReset.regs.life = .uninitialized) ∧
    (step d = .next d.hardReset ∧ d.regs.life = .destroyed ∧ d.hardReset.regs.life ≠ .destroyed) ∧
    (step s = .next (s.conclude .ok 0#64 0 { s.regs with life := .destroyed }) ∧ s.rst = false ∧
      (s.conclude .ok 0#64 0 { s.regs with life := .destroyed }).regs.life ≠ s.regs.life) :=
  ⟨⟨rfl, by decide, rfl⟩, ⟨rfl, rfl, by decide⟩, ⟨rfl, rfl, by decide⟩⟩

theorem witness_LegalityMatrix :
    beatsOf (.pushF64 0 1) ≤ (block .destroyed 1#16 0#4 [0#64]).samp.length ∧
    beatsOf (.create 1 48000) ≤ State.reset.samp.length := by decide

theorem witness_FailureLeavesTheStateAlone :
    beatsOf (.pushF64 1 1) ≤ (block .ready 2#16 0#4 [0#64]).samp.length ∧
    exec (.pushF64 1 1) (block .ready 2#16 0#4 [0#64]) = .next
      ((block .ready 2#16 0#4 [0#64]).answered 1 .invalidArgument 0#64 (block .ready 2#16 0#4 [0#64]).regs) ∧
    (let s := withWord 0#64 (block .ready 2#16 0#4 [])
     s.rst = false ∧ s.rsp = [] ∧ s.cmd = [0#64] ∧ decode 0#64 = .error (.unknownOpcode 0#8) ∧
      step s = .next s.illegal) :=
  ⟨by decide, rfl, rfl, rfl, rfl, rfl, rfl⟩

/-- Each command answers a next state; cells of channel 1 of a block with one channel lie beyond it. -/
theorem witness_WriteSetsOfTheCommands :
    let s := block .ready 1#16 0#4 [0#64]
    (∃ t, exec (.create 1 48000) State.reset = .next t) ∧ (∃ t, exec (.pushF64 1 1) s = .next t) ∧
    (∃ t, exec (.pushF32 1 1) s = .next t) ∧ (∃ t, exec (.pushI32 1 1) s = .next t) ∧
    (∃ t, exec (.readmax 0) s = .next t) ∧ (∃ t, exec .destroy s = .next t) ∧
    s.regs.nch.toNat ≤ 1 ∧ (1 : Int).toNat ≤ 1 :=
  ⟨⟨_, rfl⟩, ⟨_, rfl⟩, ⟨_, rfl⟩, ⟨_, rfl⟩, ⟨_, rfl⟩, ⟨_, rfl⟩, by decide, by decide⟩

theorem witness_CommandsIgnoreWhatFollows :
    let s := block .ready 1#16 0#4 [1#64]
    let s' := { block .ready 1#16 0#4 [1#64, 2#64] with cmd := [0#64], out := [0#72] }
    s.regs = s'.regs ∧ beatsOf (.pushF64 1 1) ≤ s.samp.length ∧ beatsOf (.pushF64 1 1) ≤ s'.samp.length ∧
    s.samp.take (beatsOf (.pushF64 1 1)) = s'.samp.take (beatsOf (.pushF64 1 1)) := by decide

/-- A Ready block meets the invariant. -/
theorem block_inv (cmd : List Word) (samp : List Beat) :
    { block .ready 1#16 11#4 samp with cmd := cmd }.Inv where
  ready := fun _ =>
    { nch_pos := Nat.le_refl 1
      nch_le := by show 1 ≤ Config.nchMax; unfold Config.nchMax; omega
      pos_lt := by show 11 < 12; decide
      max_ok := fun c _ => ⟨by show F64.sign 0#64 = false; decide, by show F64.mag 0#64 ≤ F64.infMag; decide⟩ }
  hist_wf := rfl
  max_wf := rfl
  hist_below := by intro kv h; cases h
  max_below := by intro kv h; cases h
  rsp_le := Nat.zero_le 1

/-- A step that executes a PUSH of one frame. -/
theorem witness_StepKeepsTheInvariant :
    ∃ s t : State, s.Inv ∧ s.cmd = [0x1000000100000001#64] ∧ step s = .next t :=
  ⟨_, _, block_inv [0x1000000100000001#64] [1#64], rfl, rfl⟩

theorem witness_HostActionsKeepTheInvariant : ∃ s : State, s.Inv := ⟨_, block_inv [] []⟩

/-- Both rates; one channel, and as many as the block has. -/
theorem witness_CreateStartsASession : State.reset.regs.life = .uninitialized ∧
    (1 : Int) ≤ 1 ∧ (1 : Int) ≤ Config.nchMax ∧ (1 : Int) ≤ (Config.nchMax : Int) ∧
    (Config.nchMax : Int) ≤ Config.nchMax ∧ (44100 = 44100 ∨ 44100 = 48000) ∧
    (48000 = 44100 ∨ 48000 = 48000) := by
  refine ⟨rfl, le_rfl, ?_, ?_, le_rfl, Or.inl rfl, Or.inr rfl⟩ <;> (unfold Config.nchMax; omega)

/-- Each clause: a Ready block; 0 channels and rate 96000; one channel more than the block has. -/
theorem witness_CreateChecksInOrder :
    (block .ready 1#16 0#4 []).regs.life ≠ .uninitialized ∧
    State.reset.regs.life = .uninitialized ∧ (0 : Int) ≤ 0 ∧ (96000 ≠ 44100 ∧ 96000 ≠ 48000) ∧
    (1 : Int) ≤ (Config.nchMax : Int) + 1 ∧ (Config.nchMax : Int) < (Config.nchMax : Int) + 1 := by
  refine ⟨by decide, rfl, le_rfl, by decide, by omega, by omega⟩

theorem witness_PushWaitsForItsBeats :
    (block .ready 1#16 0#4 []).samp.length < 1 ∧ pushForms.length = 3 := by decide

/-- Each clause: a Destroyed block; 2 channels and 1 beat; exactly enough; no frames and no beats. -/
theorem witness_PushChecksInOrder :
    (1 ≤ (block .destroyed 1#16 0#4 [0#64]).samp.length ∧
      (block .destroyed 1#16 0#4 [0#64]).regs.life ≠ .ready) ∧
    (let s := block .ready 2#16 0#4 [0#64]
     1 ≤ s.samp.length ∧ s.regs.life = .ready ∧ 0 < 1 ∧ 1 < s.regs.nch.toNat * 1) ∧
    (let s := block .ready 2#16 0#4 [0#64, 0#64]
     2 ≤ s.samp.length ∧ s.regs.life = .ready ∧ s.regs.nch.toNat * 1 ≤ 2) ∧
    (0 ≤ (block .ready 2#16 0#4 []).samp.length ∧ 0 = 0) := by decide

theorem witness_PushOfNoFrames :
    (1 ≤ (block .ready 2#16 3#4 [0#64]).samp.length ∧ (block .ready 2#16 3#4 [0#64]).regs.life = .ready) ∧
    (0 ≤ State.reset.samp.length ∧ State.reset.regs.life ≠ .ready) := by decide

/-- For the statements about a PUSH that succeeds: no frame, one frame at the last slot, and a surplus
beat; channel 1 is beyond the block's channels. -/
theorem witness_PushAppliesItsFrames :
    let s := block .ready 1#16 11#4 [1#64, 2#64]
    s.regs.life = .ready ∧ 2 ≤ s.samp.length ∧ s.regs.nch.toNat * 0 ≤ 2 ∧ s.regs.nch.toNat * 1 ≤ 2 ∧
    s.regs.nch.toNat * 2 ≤ 2 ∧ s.regs.nch.toNat ≤ 1 := by decide

/-- Slots of the pushed frame and of an older one: `j` = 0 and `j` = 11. -/
theorem witness_PushFillsTheRing :
    let s := block .ready 1#16 11#4 [1#64]
    s.regs.life = .ready ∧ 1 ≤ s.samp.length ∧ s.regs.nch.toNat * 1 ≤ 1 ∧ 0 < s.regs.nch.toNat ∧
    0 < 12 ∧ 11 < 12 := by decide

theorem witness_FrameWritesOneSlotPerChannel :
    let s := block .ready 1#16 11#4 [1#64]
    s.regs.life = .ready ∧ s.regs.pos.toNat < 12 ∧ 1 ≤ s.samp.length ∧ s.regs.nch.toNat ≤ 1 := by decide

/-- After 14 frames the cursor is at 2; of a session of zeros the rings hold zeros. -/
theorem witness_RingHoldsTheNewestFrames :
    (block .ready 1#16 2#4 [0#64]).regs.holdsFrames 14 (fun _ _ => 0#64) ∧
    (block .ready 1#16 0#4 []).regs.holdsFrames 0 (fun _ _ => 1#64) ∧
    (1 : Int) ≤ Config.nchMax ∧ (∀ f ∈ pushForms, ∀ n avail, Instr.readmax 0 ≠ f.1 n avail) ∧
    Instr.readmax 0 ≠ .destroy ∧ ∃ t, exec (.readmax 0) (block .ready 1#16 2#4 [0#64]) = .next t := by
  refine ⟨⟨rfl, fun c _ => ⟨fun _ _ => rfl, fun h => absurd h (by decide), fun _ => rfl⟩⟩,
    ⟨rfl, fun c _ => ⟨fun j hj => absurd hj (by simp), fun _ _ _ _ => rfl, fun h => absurd h (by decide)⟩⟩,
    by unfold Config.nchMax; omega, ?_, by decide, _, rfl⟩
  intro f hf n avail
  simp only [pushForms, List.mem_cons, List.not_mem_nil, or_false] at hf
  rcases hf with rfl | rfl | rfl <;> simp

theorem witness_OneFrameRaisesTheMaxima :
    let s := block .ready 2#16 11#4 [1#64, 2#64]
    s.regs.life = .ready ∧ 2 ≤ s.samp.length ∧ s.regs.nch.toNat ≤ 2 ∧ 1 < s.regs.nch.toNat := by decide

/-- Two chunks of one frame each, binary32 1.0 and integer 2147483647, and both as binary64 1.0. -/
theorem witness_ChunkingInvariance :
    let s := block .ready 1#16 11#4 []
    s.regs.life = .ready ∧ [0x000000003F800000#64].length = s.regs.nch.toNat * 1 ∧
    [0x000000007FFFFFFF#64].length = s.regs.nch.toNat * 1 ∧
    [0x000000003F800000#64].map normF32 = [0x3FF0000000000000#64].map normF64 ∧
    [0x000000007FFFFFFF#64].map normI32 = [0x3FF0000000000000#64].map normF64 := by decide +kernel

/-- Integer 2147483647 and binary64 1.0. -/
theorem witness_EqualElementsGiveEqualStates :
    let s := block .ready 1#16 0#4 [0x000000007FFFFFFF#64]
    let s' := block .ready 1#16 0#4 [0x3FF0000000000000#64]
    s.regs = s'.regs ∧ s.regs.life = .ready ∧ 1 ≤ s.samp.length ∧ 1 ≤ s'.samp.length ∧
    s.regs.nch.toNat * 1 ≤ 1 ∧
    ∀ e, e < s.regs.nch.toNat * 1 → normI32 (s.samp.getD e 0#64) = normF64 (s'.samp.getD e 0#64) := by
  refine ⟨rfl, rfl, by decide, by decide, by decide, fun e he => ?_⟩
  obtain rfl : e = 0 := by have : (block .ready 1#16 0#4 [0x000000007FFFFFFF#64]).regs.nch.toNat = 1 := rfl; omega
  decide +kernel

theorem witness_MaximaNeverDecrease :
    ∃ s t : State, s.Inv ∧ s.regs.life = .ready ∧ exec (.pushF64 1 1) s = .next t ∧ 0 < s.regs.nch.toNat :=
  ⟨_, _, block_inv [] [1#64], rfl, rfl, by decide⟩

/-- Channel 0 of a block with one channel and channel 1 of a block with two carry the same sample. -/
theorem witness_ChannelsAreIndependent :
    let s := block .ready 1#16 3#4 [5#64]
    let s' := block .ready 2#16 3#4 [9#64, 5#64]
    s.regs.life = .ready ∧ s'.regs.life = .ready ∧ s.regs.rate = s'.regs.rate ∧ s.regs.pos = s'.regs.pos ∧
    1 ≤ s.samp.length ∧ 2 ≤ s'.samp.length ∧ s.regs.nch.toNat * 1 ≤ 1 ∧ s'.regs.nch.toNat * 1 ≤ 2 ∧
    0 < s.regs.nch.toNat ∧ 1 < s'.regs.nch.toNat ∧
    (∀ k, k < 12 → s.regs.histAt 0 k = s'.regs.histAt 1 k) ∧ s.regs.maxAt 0 = s'.regs.maxAt 1 ∧
    ∀ j, j < 1 → normF64 (s.samp.getD (s.regs.nch.toNat * j + 0) 0#64) =
      normF64 (s'.samp.getD (s'.regs.nch.toNat * j + 1) 0#64) := by
  decide

/-- Each clause: a fresh session; −0.0 on a silent block; READMAX on it. -/
theorem witness_ZeroInputKeepsZeroMaxima :
    State.reset.regs.life = .uninitialized ∧ (1 : Int) ≤ 1 ∧ (1 : Int) ≤ Config.nchMax ∧
    (let s := block .ready 1#16 5#4 [0x8000000000000000#64]
     s.regs.silent ∧ 1 ≤ s.samp.length ∧ s.regs.nch.toNat * 1 ≤ 1 ∧
      F64.isZero (normF64 (s.samp.getD 0 0#64)) = true ∧ (0 : Int) < s.regs.nch.toNat ∧
      (∀ f ∈ pushForms, ∀ n avail, Instr.readmax 0 ≠ f.1 n avail) ∧ Instr.readmax 0 ≠ .destroy ∧
      ∃ t, exec (.readmax 0) s = .next t) := by
  refine ⟨rfl, le_rfl, by unfold Config.nchMax; omega, ⟨rfl, fun c _ => ⟨fun k _ => ?_, rfl⟩⟩, by decide,
    by decide, by decide, by decide, ?_, by decide, _, rfl⟩
  · show F64.isZero 0#64 = true; decide
  · intro f hf n avail
    simp only [pushForms, List.mem_cons, List.not_mem_nil, or_false] at hf
    rcases hf with rfl | rfl | rfl <;> simp

/-- Integer 2147483647 is the impulse. -/
theorem witness_ImpulseFirstFrame :
    let s := { State.reset with samp := [0x000000007FFFFFFF#64] }
    s.regs.life = .uninitialized ∧ (48000 = 44100 ∨ 48000 = 48000) ∧ s.samp = [0x000000007FFFFFFF#64] ∧
    normI32 0x000000007FFFFFFF#64 = 0x3FF0000000000000#64 := by decide +kernel

/-- An impulse and two zeros, +0.0 and −0.0. -/
theorem witness_ImpulseFlushedThroughTheRing :
    let zeros := [0x0000000000000000#64, 0x8000000000000000#64]
    let s := { State.reset with samp := 0x3FF0000000000000#64 :: (zeros ++ []) }
    s.regs.life = .uninitialized ∧ zeros.length = 2 ∧ normF64 0x3FF0000000000000#64 = 0x3FF0000000000000#64 ∧
    (zeros.all fun z => F64.isZero (normF64 z)) = true := by decide

/-- A NaN in slot 4 while slot 0 is written. -/
theorem witness_NaNHoldsTheMaximum :
    let s := { block .ready 1#16 0#4 [1#64] with regs :=
      { (block .ready 1#16 0#4 []).regs with hist := [(4, 0x7FF8000000000000#64)] } }
    s.regs.life = .ready ∧ 1 ≤ s.samp.length ∧ s.regs.nch.toNat ≤ 1 ∧ 0 < s.regs.nch.toNat ∧
    F64.isNaN (s.regs.histAt 0 4) = true := by decide

theorem witness_InfinityStays :
    let s := { block .ready 1#16 0#4 [1#64] with regs :=
      { (block .ready 1#16 0#4 []).regs with max := [(0, 0x7FF0000000000000#64)] } }
    s.regs.life = .ready ∧ (∃ t, exec (.pushF64 1 1) s = .next t) ∧
    s.regs.maxAt 0 = 0x7FF0000000000000#64 := ⟨rfl, ⟨_, rfl⟩, rfl⟩

theorem witness_RingSlotsWrapAround :
    (block .ready 1#16 3#4 []).regs.pos.toNat < 12 ∧ (block .ready 1#16 3#4 []).regs.pos = 3#4 ∧
    (block .ready 1#16 11#4 []).regs.pos.toNat < 12 := by decide

/-- A finite number, an infinity's neighbour and a NaN of binary32. -/
theorem witness_ConversionsAreExact : (0x7F7FFFFF#32).toNat % 2 ^ 31 < 0x7F800000 ∧
    (0x80000001#32).toNat % 2 ^ 31 < 0x7F800000 ∧ 0x7F800000 < (0xFFC00000#32).toNat % 2 ^ 31 := by decide

/-- 1.0, 3.0 and their product, sum and quotient are finite. -/
theorem witness_ArithmeticRoundsToNearestEven :
    F64.isFinite 0x3FF0000000000000#64 = true ∧ F64.isFinite 0x4008000000000000#64 = true ∧
    F64.isZero 0x4008000000000000#64 = false ∧
    F64.isFinite (f64Mul 0x3FF0000000000000#64 0x4008000000000000#64) = true ∧
    F64.isFinite (f64Add 0x3FF0000000000000#64 0x4008000000000000#64) = true ∧
    F64.isFinite (f64Div 0x3FF0000000000000#64 0x4008000000000000#64) = true := by decide +kernel

/-- The largest finite value: its square and its double overflow. -/
theorem witness_OverflowGoesToInfinity :
    F64.isFinite 0x7FEFFFFFFFFFFFFF#64 = true ∧
    F64.isInf (f64Mul 0x7FEFFFFFFFFFFFFF#64 0x7FEFFFFFFFFFFFFF#64) = true ∧
    F64.isInf (f64Add 0x7FEFFFFFFFFFFFFF#64 0x7FEFFFFFFFFFFFFF#64) = true ∧
    F64.isFinite (f64Add 0x7FEFFFFFFFFFFFFF#64 0#64) = true := by decide +kernel

theorem witness_ComparisonFollowsTheValues :
    F64.isFinite 0x8000000000000000#64 = true ∧ F64.isFinite 0x0000000000000001#64 = true ∧
    F64.isNaN 0x7FF0000000000001#64 = true ∧ F64.isNaN 0x7FF0000000000000#64 = false := by decide

/-- Each clause: a NaN; infinity and 1.0; infinity and −0.0; both infinities. -/
theorem witness_SpecialOperandsFollowIEEE :
    F64.isNaN 0xFFFFFFFFFFFFFFFF#64 = true ∧ F64.isInf 0x7FF0000000000000#64 = true ∧
    F64.isNaN 0x3FF0000000000000#64 = false ∧ F64.isZero 0x3FF0000000000000#64 = false ∧
    F64.isInf 0x3FF0000000000000#64 = false ∧ F64.isZero 0x8000000000000000#64 = true ∧
    F64.isInf 0xFFF0000000000000#64 = true ∧
    F64.sign 0x7FF0000000000000#64 ≠ F64.sign 0xFFF0000000000000#64 := by decide

/-- Each clause: a Destroyed block; channel −1 and channel `NCH`; channel 0. -/
theorem witness_ReadmaxReturnsTheMaximum :
    (block .destroyed 1#16 0#4 []).regs.life ≠ .ready ∧ (block .ready 1#16 0#4 []).regs.life = .ready ∧
    (-1 : Int) < 0 ∧ ((block .ready 1#16 0#4 []).regs.nch.toNat : Int) ≤ 1 ∧ (0 : Int) ≤ 0 ∧
    (0 : Int) < (block .ready 1#16 0#4 []).regs.nch.toNat := by decide

theorem witness_DestroyEndsTheSession :
    (block .destroyed 1#16 0#4 []).regs.life = .destroyed ∧ State.reset.regs.life = .uninitialized ∧
    (block .ready 1#16 0#4 []).regs.life = .ready := by decide

end Sys2Proof.Tests
end

section
/-! PROOFS. The arithmetic primitives against IEEE 754 (00_scope.md rule R14): special operands, exact
conversions, rounding to nearest, overflow, and the comparison. -/

namespace Sys2Proof.Machine

/-! ### Infinities and NaNs as operands -/

theorem F64.isNaN_of_isInf {a : F64} (h : F64.isInf a = true) : F64.isNaN a = false := by
  simp only [F64.isInf, F64.isNaN, decide_eq_true_eq, decide_eq_false_iff_not] at *
  omega

theorem F64.isZero_of_isInf {a : F64} (h : F64.isInf a = true) : F64.isZero a = false := by
  simp only [F64.isInf, F64.isZero, decide_eq_true_eq, decide_eq_false_iff_not] at *
  rw [h]; decide

/-- An infinity is its sign over the magnitude pattern of all infinities. -/
theorem F64.eq_of_isInf {a b : F64} (ha : F64.isInf a = true) (hb : F64.isInf b = true)
    (hs : F64.sign a = F64.sign b) : a = b := by
  simp only [F64.isInf, decide_eq_true_eq] at ha hb
  exact F64.ext hs (ha.trans hb.symm)

theorem f64Div_nan_left {a : F64} (b : F64) (h : F64.isNaN a = true) :
    F64.isNaN (f64Div a b) = true := by
  simp [f64Div, h, F64.isNaN_nanOf]

theorem f64Div_nan_right (a : F64) {b : F64} (h : F64.isNaN b = true) :
    F64.isNaN (f64Div a b) = true := by
  simp [f64Div, h, F64.isNaN_nanOf]

/-- An infinity times a value that is no zero, in either order, is an infinity. -/
theorem f64Mul_inf {a b : F64} (ha : F64.isInf a = true) (hn : F64.isNaN b = false)
    (hz : F64.isZero b = false) :
    f64Mul a b = F64.pack (F64.sign a != F64.sign b) F64.infMag ∧
    f64Mul b a = F64.pack (F64.sign b != F64.sign a) F64.infMag := by
  simp [f64Mul, ha, hn, hz, F64.isNaN_of_isInf ha, F64.isZero_of_isInf ha]

/-- An infinity times a zero, in either order, is a NaN. -/
theorem f64Mul_inf_zero {a b : F64} (ha : F64.isInf a = true) (hz : F64.isZero b = true) :
    F64.isNaN (f64Mul a b) = true ∧ F64.isNaN (f64Mul b a) = true := by
  have hb := F64.isNaN_of_finite (F64.finite_of_isZero hz)
  simp [f64Mul, ha, hb, hz, F64.isNaN_of_isInf ha, F64.isNaN_nanOf]

/-- Infinities of opposite signs have no sum. -/
theorem f64Add_inf_opposite {a b : F64} (ha : F64.isInf a = true) (hb : F64.isInf b = true)
    (hs : F64.sign a ≠ F64.sign b) : F64.isNaN (f64Add a b) = true := by
  simp [f64Add, ha, hb, hs, F64.isNaN_of_isInf ha, F64.isNaN_of_isInf hb, F64.isNaN_nanOf]

/-- An infinity absorbs every other value added to it on the right. -/
theorem f64Add_inf_left {a b : F64} (ha : F64.isInf a = true) (hn : F64.isNaN b = false)
    (h : F64.isInf b = false ∨ F64.sign a = F64.sign b) : f64Add a b = a := by
  rcases h with h | h <;> simp [f64Add, ha, hn, h, F64.isNaN_of_isInf ha]

/-- An infinity absorbs every other value added to it on the left. -/
theorem f64Add_inf_right {a b : F64} (ha : F64.isInf a = true) (hn : F64.isNaN b = false)
    (h : F64.isInf b = false ∨ F64.sign a = F64.sign b) : f64Add b a = a := by
  rcases hb : F64.isInf b with _ | _
  · simp [f64Add, ha, hn, hb, F64.isNaN_of_isInf ha]
  · obtain rfl : a = b := F64.eq_of_isInf ha hb (h.resolve_left (by simp [hb]))
    exact f64Add_inf_left ha hn h

/-- Settles O55, by the branch of each operation that the special operand selects. -/
theorem specialOperandsFollowIEEE : Obligations.SpecialOperandsFollowIEEE := by
  unfold Obligations.SpecialOperandsFollowIEEE
  intro a b
  refine ⟨?_, fun ha hn hz => ?_, f64Mul_inf_zero, f64Add_inf_opposite,
    fun ha hn h => ⟨f64Add_inf_left ha hn h, f64Add_inf_right ha hn h⟩⟩
  · rintro (h | h)
    · exact ⟨f64Mul_nan_left b h, f64Add_nan_left b h, f64Div_nan_left b h, f64Abs_isNaN a⟩
    · exact ⟨f64Mul_nan_right a h, f64Add_nan_right a h, f64Div_nan_right a h, f64Abs_isNaN a⟩
  · obtain ⟨hab, hba⟩ := f64Mul_inf ha hn hz
    rw [hba, hab, bne_comm (a := F64.sign b)]
    refine ⟨?_, F64.sign_pack _ F64.infMag_lt, rfl⟩
    rw [F64.isInf, F64.mag_pack _ F64.infMag_lt, decide_eq_true_eq]

/-! ### Exact conversions -/

/-- Widening a finite binary32 drops no bit, so the one rounding changes nothing. -/
theorem f32ToF64_finite {s : F32} (h : F32.mag s < F32.infMag) : ∃ m, m < F64.infMag ∧
    F64.units m = F32.units (F32.mag s) * 2 ^ 925 ∧ f32ToF64 s = F64.pack s.msb m := by
  obtain ⟨M, t, hu, hM, ht⟩ := F32.exists_significand _ h
  obtain ⟨hlt, hval⟩ := F64.roundMag_exact (t := t + 925) hM (by omega)
  have hscale : F32.units (F32.mag s) * 2 ^ 925 = M * 2 ^ (t + 925) := by
    rw [hu, pow_add, Nat.mul_assoc]
  refine ⟨_, hlt, by rw [hval, hscale], ?_⟩
  unfold f32ToF64
  rw [if_neg (by omega), if_neg (by omega), hscale]

theorem f32ToF64_nan {s : F32} (h : F32.infMag < F32.mag s) : F64.isNaN (f32ToF64 s) = true := by
  rw [f32ToF64, if_pos h]
  exact F64.isNaN_nanOf _

theorem f32ToF64_inf {s : F32} (h : F32.mag s = F32.infMag) :
    f32ToF64 s = F64.pack s.msb F64.infMag := by
  rw [f32ToF64, if_neg (by omega), if_pos h]

/-- A 32-bit integer has at most 32 significant bits, so its conversion is exact. -/
theorem i32ToF64_exact (n : BitVec 32) : ∃ m, m < F64.infMag ∧
    F64.units m = n.toInt.natAbs * 2 ^ 1074 ∧ i32ToF64 n = F64.pack n.msb m := by
  have hn : n.toInt.natAbs < 2 ^ 53 := by
    have h1 := n.toInt_lt
    have h2 := n.le_toInt
    omega
  obtain ⟨hlt, hval⟩ := F64.roundMag_exact (t := 1074) hn (by omega)
  exact ⟨_, hlt, hval, rfl⟩

theorem toInt_eq_sign_mul_natAbs (n : BitVec 32) :
    n.toInt = (if n.msb then -1 else 1) * (n.toInt.natAbs : Int) := by
  rw [BitVec.msb_eq_toInt]
  by_cases h : n.toInt < 0
  · rw [if_pos (by simpa using h)]; omega
  · rw [if_neg (by simpa using h)]; omega

/-- Settles O51: the converted magnitudes fit a significand of 53 bits, which rounding leaves alone. -/
theorem conversionsAreExact : Obligations.ConversionsAreExact := by
  unfold Obligations.ConversionsAreExact
  refine ⟨fun s hs => ?_, ⟨?_, ?_⟩, fun s hs => f32ToF64_nan hs, fun n => ?_⟩
  · obtain ⟨m, hm, hu, he⟩ := f32ToF64_finite (s := s) hs
    obtain ⟨hval, hfin, hsign⟩ := F64.value_pack s.msb hm
    rw [he]
    refine ⟨hfin, hsign, ?_⟩
    rw [hval, hu]
    rfl
  · rw [f32ToF64_inf (by decide)]; decide
  · rw [f32ToF64_inf (by decide)]; decide
  · obtain ⟨m, hm, hu, he⟩ := i32ToF64_exact n
    obtain ⟨hval, hfin, -⟩ := F64.value_pack n.msb hm
    rw [he]
    refine ⟨hfin, ?_⟩
    conv_rhs => rw [toInt_eq_sign_mul_natAbs n]
    rw [hval, hu, Nat.cast_mul, mul_assoc]

/-! ### Sums as one rounding with a sign -/

/-- The sign of a sum, so that its magnitude is rounded in every case. -/
theorem f64Add_eq_pack_roundMag {a b : F64} (ha : F64.isFinite a = true)
    (hb : F64.isFinite b = true) : ∃ neg : Bool,
    f64Add a b = F64.pack neg (F64.roundMag (F64.value a + F64.value b).natAbs 1) ∧
    F64.value a + F64.value b
      = (if neg then -1 else 1) * ((F64.value a + F64.value b).natAbs : Int) := by
  rw [f64Add_finite ha hb]
  by_cases hv : F64.value a + F64.value b = 0
  · exact ⟨_, by rw [if_pos hv, hv, Int.natAbs_zero, F64.roundMag_zero], by rw [hv]; simp⟩
  · refine ⟨_, if_neg hv, ?_⟩
    by_cases hneg : F64.value a + F64.value b < 0
    · rw [if_pos (by simpa using hneg)]; omega
    · rw [if_neg (by simpa using hneg)]; omega

/-! ### Overflow -/

/-- Settles O53: product and sum are rounded magnitudes, which become an infinity from halfway on. -/
theorem overflowGoesToInfinity : Obligations.OverflowGoesToInfinity := by
  unfold Obligations.OverflowGoesToInfinity
  intro a b ha hb limit
  obtain ⟨neg, hadd, -⟩ := f64Add_eq_pack_roundMag ha hb
  rw [f64Mul_finite ha hb, hadd]
  refine ⟨F64.isNaN_pack_roundMag, F64.isNaN_pack_roundMag, ?_, ?_⟩
  · rw [F64.isInf_pack_roundMag, F64.roundMag_eq_infMag _ (by positivity), Int.natAbs_mul,
      F64.value_natAbs, F64.value_natAbs]
  · rw [F64.isInf_pack_roundMag, F64.roundMag_eq_infMag _ Nat.one_pos, Nat.mul_one]

/-! ### Rounding to nearest -/

/-- The result `r` is at least as near to the exact `e / d` as `x` is, and where another value is as near
the last bit of `r` is 0 (rule R14, ties to even). -/
def F64.NearestEven (e d : Int) (r x : F64) : Prop :=
  |e - d * F64.value r| ≤ |e - d * F64.value x| ∧
  (|e - d * F64.value r| = |e - d * F64.value x| → F64.value x ≠ F64.value r → r.getLsbD 0 = false)

/-- A sign common to both terms of the exact result cancels. -/
theorem F64.nearestEven_sign (neg : Bool) {e d : Int} {r x : F64} :
    F64.NearestEven ((if neg then -1 else 1) * e) ((if neg then -1 else 1) * d) r x ↔
      F64.NearestEven e d r x := by
  have habs : ∀ y : Int, |(if neg then -1 else 1) * e - (if neg then -1 else 1) * d * y|
      = |e - d * y| := fun y => by
    rw [mul_assoc, ← mul_sub, abs_mul]
    cases neg <;> simp
  simp only [F64.NearestEven, habs]

/-- The one rounding of the signed fraction `±n / d`, packed with its sign, is nearest. -/
theorem F64.nearestEven_pack_roundMag {neg : Bool} {n d : Nat} (hd : 0 < d)
    (hfin : F64.isFinite (F64.pack neg (F64.roundMag n d)) = true) (x : F64) {e : Int}
    (he : e = (if neg then -1 else 1) * (n : Int)) :
    F64.NearestEven e d (F64.pack neg (F64.roundMag n d)) x := by
  have hlt := F64.roundMag_lt_of_finite hfin
  have hsgn : ∀ c : Bool, (if c then (-1 : Int) else 1) = 1 ∨ (if c then (-1 : Int) else 1) = -1 := by
    decide
  unfold F64.NearestEven
  rw [(F64.value_pack neg hlt).1, F64.lsb_pack neg (F64.roundMag_lt n d), he, F64.value_eq x]
  exact F64.roundMag_nearest_signed n hd hlt _ _ (hsgn neg) (hsgn (F64.sign x)) _

/-- The exact product is its sign times its magnitude, in units of 2^-2148. -/
theorem F64.value_mul_value (a b : F64) : F64.value a * F64.value b
    = (if F64.sign a != F64.sign b then -1 else 1)
      * ((F64.units (F64.mag a) * F64.units (F64.mag b) : Nat) : Int) := by
  rw [F64.value_eq a, F64.value_eq b, Nat.cast_mul]
  cases F64.sign a <;> cases F64.sign b <;> simp

/-- A dividend in the units of the quotient, the divisor's sign taken out. -/
theorem F64.value_mul_natCast (a b : F64) (u : Nat) : F64.value a * u
    = (if F64.sign b then -1 else 1) * ((if F64.sign a != F64.sign b then -1 else 1)
      * ((F64.units (F64.mag a) * u : Nat) : Int)) := by
  rw [F64.value_eq a, Nat.cast_mul]
  cases F64.sign a <;> cases F64.sign b <;> simp

theorem f64Mul_nearestEven {a b : F64} (ha : F64.isFinite a = true) (hb : F64.isFinite b = true)
    (x : F64) (hfin : F64.isFinite (f64Mul a b) = true) :
    F64.NearestEven (F64.value a * F64.value b) ((2 ^ 1074 : Nat) : Int) (f64Mul a b) x := by
  rw [f64Mul_finite ha hb] at hfin ⊢
  exact F64.nearestEven_pack_roundMag (by positivity) hfin x (F64.value_mul_value a b)

theorem f64Add_nearestEven {a b : F64} (ha : F64.isFinite a = true) (hb : F64.isFinite b = true)
    (x : F64) (hfin : F64.isFinite (f64Add a b) = true) :
    F64.NearestEven (F64.value a + F64.value b) 1 (f64Add a b) x := by
  obtain ⟨neg, hadd, hv⟩ := f64Add_eq_pack_roundMag ha hb
  rw [hadd] at hfin ⊢
  exact F64.nearestEven_pack_roundMag Nat.one_pos hfin x hv

/-- The quotient, compared after multiplication by the divisor, whose sign cancels. -/
theorem f64Div_nearestEven {a b : F64} (ha : F64.isFinite a = true) (hb : F64.isFinite b = true)
    (hz : F64.isZero b = false) (x : F64) (hfin : F64.isFinite (f64Div a b) = true) :
    F64.NearestEven (F64.value a * ((2 ^ 1074 : Nat) : Int)) (F64.value b) (f64Div a b) x := by
  have hd : 0 < F64.units (F64.mag b) := by
    rw [Nat.pos_iff_ne_zero, ne_eq, F64.units_eq_zero]
    simpa [F64.isZero] using hz
  rw [f64Div_finite ha hb hz] at hfin ⊢
  rw [F64.value_mul_natCast a b, F64.value_eq b, F64.nearestEven_sign]
  exact F64.nearestEven_pack_roundMag hd hfin x rfl

/-- Settles O52: each operation is the one rounding of its exact signed result. -/
theorem arithmeticRoundsToNearestEven : Obligations.ArithmeticRoundsToNearestEven := by
  unfold Obligations.ArithmeticRoundsToNearestEven
  intro a b x ha hb _ unit va vb vx
  refine ⟨f64Mul_nearestEven ha hb x, fun hfin => ?_, fun hz => f64Div_nearestEven ha hb hz x⟩
  simpa only [F64.NearestEven, one_mul] using f64Add_nearestEven ha hb x hfin

/-! ### Comparison -/

/-- Patterns are placed in the order of the values they denote. -/
theorem F64.value_lt_value_iff (a b : F64) : F64.value b < F64.value a ↔ F64.key b < F64.key a := by
  have hlt : ∀ m n, F64.units m < F64.units n ↔ m < n := fun m n => F64.units_strictMono.lt_iff_lt
  have hza := F64.units_eq_zero (m := F64.mag a)
  have hzb := F64.units_eq_zero (m := F64.mag b)
  have hab := hlt (F64.mag a) (F64.mag b)
  have hba := hlt (F64.mag b) (F64.mag a)
  unfold F64.value F64.key
  cases F64.sign a <;> cases F64.sign b <;> simp only [if_true, if_false, Bool.false_eq_true] <;> omega

/-- The place of a value that is no NaN lies between those of the infinities. -/
theorem F64.key_bounds {b : F64} (h : F64.isNaN b = false) :
    -(F64.infMag : Int) ≤ F64.key b ∧ F64.key b ≤ F64.infMag := by
  simp only [F64.isNaN, decide_eq_false_iff_not] at h
  unfold F64.key
  split <;> omega

/-- Only +infinity has the highest place. -/
theorem F64.key_eq_infMag {b : F64} : F64.key b = F64.infMag ↔ b = 0x7FF0000000000000#64 := by
  refine ⟨fun h => ?_, by rintro rfl; decide⟩
  have hpos : (0 : Int) < F64.infMag := by decide
  unfold F64.key at h
  split at h
  · omega
  · exact F64.ext (by simp_all; decide) (by rw [Int.ofNat_inj.1 h]; decide)

/-- Only −infinity has the lowest place. -/
theorem F64.key_eq_neg_infMag {b : F64} :
    F64.key b = -(F64.infMag : Int) ↔ b = 0xFFF0000000000000#64 := by
  refine ⟨fun h => ?_, by rintro rfl; decide⟩
  have hpos : (0 : Int) < F64.infMag := by decide
  unfold F64.key at h
  split at h
  · exact F64.ext (by simp_all; decide) (by rw [Int.ofNat_inj.1 (Int.neg_inj.1 h)]; decide)
  · omega

/-- Settles O54: the comparison is that of places, which are ordered as the values are. -/
theorem comparisonFollowsTheValues : Obligations.ComparisonFollowsTheValues := by
  unfold Obligations.ComparisonFollowsTheValues
  refine ⟨fun a b ha hb => ?_, ?_, fun b hb => ?_, f64Abs_toNat⟩
  · rw [f64Gt_iff, F64.value_lt_value_iff]
    simp [F64.isNaN_of_finite ha, F64.isNaN_of_finite hb]
  · rintro a b (h | h)
    · exact f64Gt_nan_left b h
    · simp [f64Gt, h]
  · obtain ⟨hlo, hhi⟩ := F64.key_bounds hb
    have htop : F64.key 0x7FF0000000000000#64 = F64.infMag := F64.key_eq_infMag.2 rfl
    have hbot : F64.key 0xFFF0000000000000#64 = -(F64.infMag : Int) := F64.key_eq_neg_infMag.2 rfl
    have hnan : F64.isNaN 0x7FF0000000000000#64 = false ∧ F64.isNaN 0xFFF0000000000000#64 = false := by
      decide
    refine ⟨?_, ?_, f64Gt_eq_false_of_key (by rw [htop]; exact hhi),
      f64Gt_eq_false_of_key (by rw [hbot]; exact hlo)⟩
    · rw [f64Gt_iff, htop, ne_eq, ← F64.key_eq_infMag]
      simp only [hnan, hb, true_and]
      omega
    · rw [f64Gt_iff, hbot, ne_eq, ← F64.key_eq_neg_infMag]
      simp only [hnan, hb, true_and]
      omega

end Sys2Proof.Machine
end

section
/-! PROOFS. The coefficient store (00_scope.md rules R9 and R10) and the impulse that reads one tap of it
back through the maximum (50_properties.md rule R164). -/

namespace Sys2Proof.Machine

/-! ### The tables -/

theorem isFinite_coefOf (rate : Rate) (p i : Nat) : F64.isFinite (coefOf rate p i) = true := by
  cases rate
  · exact isFinite_symmetricTable (fun _ _ => isFinite_finiteOf _) p i
  · exact isFinite_symmetricTable (isFinite_distinctFrom fun _ _ => isFinite_finiteOf _) p i

/-- The symmetry law of rule R10, for every phase. -/
theorem coefOf_reversed (rate : Rate) {p i : Nat} (hp : p < 4) (hi : i < 12) :
    coefOf rate (3 - p) (11 - i) = coefOf rate p i := by
  obtain ⟨h, he⟩ := coefOf_symmetric rate
  have hback : 11 - (11 - i) = i := by omega
  rw [he]
  match p, hp with
  | 0, _ => exact congrArg (h 0) hback
  | 1, _ => exact congrArg (h 1) hback
  | 2, _ => rfl
  | 3, _ => rfl

/-- Phases 0 and 1 are the determining values themselves. -/
theorem symmetricTable_of_lt_two (h : Nat → Nat → F64) {p : Nat} (hp : p < 2) (i : Nat) :
    symmetricTable h p i = h p i := by
  match p, hp with
  | 0, _ => rfl
  | 1, _ => rfl

theorem xor_one_ne (a : F64) : a ^^^ 1#64 ≠ a := by
  intro h
  have hnat := congrArg BitVec.toNat h
  rw [xor_one_toNat] at hnat
  split at hnat <;> omega

/-- `distinctFrom` makes some determining value differ: phase 0, tap 0 where all agreed. -/
theorem exists_ne_distinctFrom (h h' : Nat → Nat → F64) :
    ∃ p i, p < 2 ∧ i < 12 ∧ h p i ≠ distinctFrom h h' p i := by
  rcases hag : halvesAgree h h' with _ | _
  · have hsome := hag
    simp only [halvesAgree, List.all_eq_false, List.mem_range, Bool.not_eq_true] at hsome
    obtain ⟨p, hp, i, hi, hne⟩ := hsome
    exact ⟨p, i, hp, hi, by simpa [distinctFrom, hag] using hne⟩
  · have hsame : h 0 0 = h' 0 0 := by
      simp only [halvesAgree, List.all_eq_true, List.mem_range, beq_iff_eq] at hag
      exact hag 0 (by decide) 0 (by decide)
    refine ⟨0, 0, by decide, by decide, ?_⟩
    simpa [distinctFrom, hag, hsame] using (xor_one_ne (h' 0 0)).symm

/-- Settles O50, for every value of the open parameters the tables are made from. -/
theorem coefficientTablesObeyTheirConstraints : Obligations.CoefficientTablesObeyTheirConstraints := by
  unfold Obligations.CoefficientTablesObeyTheirConstraints
  refine ⟨fun rate i hi => ?_, isFinite_coefOf, ?_⟩
  · obtain ⟨h, he⟩ := coefOf_symmetric rate
    rw [he]
    exact ⟨rfl, rfl⟩
  · obtain ⟨p, i, hp, hi, hne⟩ := exists_ne_distinctFrom
      (fun p i => finiteOf (Config.rawCoef44100 p i)) fun p i => finiteOf (Config.rawCoef48000 p i)
    refine ⟨p, i, by omega, hi, ?_⟩
    simpa only [coefOf, coef44100, coef48000, symmetricTable_of_lt_two _ hp] using hne

/-! ### The impulse -/

/-- An accepted CREATE (rules R111, R112). -/
theorem exec_create_ok {channels : Int} {rate : Nat} {s : State}
    (h : createStatus Config.nchMax channels rate s.regs = .ok) :
    exec (.create channels rate) s
      = .next (s.conclude .ok 0#64 0 (s.regs.created channels rate)) := by
  rw [exec_of_beats (Nat.zero_le _)]
  simp only [outcome, h, beatsOf]

/-- Four results with the magnitudes of a tap's coefficients raise a maximum of +0.0 to the largest of
them. -/
theorem foldl_runningMax_isLargestCoef {co y : Nat → F64} (hfin : ∀ p, F64.isFinite (co p) = true)
    (hmag : ∀ p, F64.mag (y p) = F64.mag (co p)) :
    isLargestCoef (fun p _ => co p) 0 (((List.range 4).map y).foldl runningMax 0#64) := by
  obtain ⟨hattained, -, hbound⟩ := foldl_runningMax_spec ((List.range 4).map y) 0#64
  have habs : ∀ p, f64Abs (y p) = f64Abs (co p) := fun p => f64Abs_congr (hmag p)
  have hle : ∀ p, p < 4 →
      f64Gt (f64Abs (co p)) (((List.range 4).map y).foldl runningMax 0#64) = false := fun p hp => by
    rw [← habs]
    exact hbound _ (List.mem_map_of_mem (List.mem_range.2 hp))
  refine ⟨?_, fun p _ hp _ => hle p hp⟩
  rcases hattained with h0 | ⟨z, hz, -, hz'⟩
  · -- no result exceeded +0.0, so every coefficient of the tap is a zero
    have hkey := F64.key_le_of_not_gt (by rw [f64Abs_isNaN]; exact F64.isNaN_of_finite (hfin 0))
      (by decide) (h0 ▸ hle 0 (by decide))
    rw [F64.key_abs, show F64.key 0#64 = 0 from by decide] at hkey
    refine ⟨0, 0, by decide, le_rfl, ?_⟩
    rw [h0, F64.abs_of_isZero (by simp only [F64.isZero, decide_eq_true_eq]; omega)]
  · obtain ⟨p, hp, rfl⟩ := List.mem_map.1 hz
    exact ⟨p, 0, List.mem_range.1 hp, le_rfl, hz'.trans (habs p)⟩

/-- The maximum of a channel after one sample (rules R125, R126). -/
theorem chanStep_snd (tbl : CoefTable) (p : Nat) (x : Row × F64) (v : F64) :
    (chanStep tbl p x v).2 = ((List.range 4).map fun q =>
      dot12 (tbl q) (rowWindow (Function.update x.1 (slotOf p) v) p)).foldl runningMax x.2 := rfl

/-- A sample of 1.0 in a ring of zeros: the maximum becomes the largest coefficient of tap 0. -/
theorem chanStep_impulse_isLargestCoef (rate : Rate) {x : Row × F64} {p : Nat}
    (hrow : ∀ k, x.1 k = 0#64) (hmax : x.2 = 0#64) :
    isLargestCoef (fun q _ => coefOf rate q 0) 0
      (chanStep (coefOf rate) p x 0x3FF0000000000000#64).2 := by
  rw [chanStep_snd, hmax]
  refine foldl_runningMax_isLargestCoef (fun q => isFinite_coefOf rate q 0) fun q =>
    dot12_impulse _ _ (isFinite_coefOf rate q) 0 (by decide) ?_ fun k hk hk0 => ?_
  · have hslot : slotOf (p + 12 - 0) = slotOf p := by simp [slotOf]
    rw [rowWindow, hslot, Function.update_self]
  · have hslot : slotOf (p + 12 - k) ≠ slotOf p := by
      simp only [slotOf, ne_eq, Fin.mk.injEq]; omega
    rw [rowWindow, Function.update_of_ne hslot, hrow]
    decide

/-- The largest coefficient of tap 0 is that of tap 11: the phases are each other's reversals. -/
theorem isLargestCoef_tap_eleven {rate : Rate} {m : F64}
    (h : isLargestCoef (fun p _ => coefOf rate p 0) 0 m) :
    isLargestCoef (fun p _ => coefOf rate p 11) 0 m := by
  obtain ⟨⟨p, i, hp, hi, hm⟩, hbound⟩ := h
  have hrev : ∀ q, q < 4 → coefOf rate (3 - q) 11 = coefOf rate q 0 := fun q hq =>
    coefOf_reversed rate hq (i := 0) (by decide)
  refine ⟨⟨3 - p, 0, by omega, le_rfl, hm.trans (congrArg f64Abs (hrev p hp).symm)⟩, fun q j hq _ => ?_⟩
  have hq' := hrev (3 - q) (by omega)
  rw [show 3 - (3 - q) = q by omega] at hq'
  show f64Gt (f64Abs (coefOf rate q 11)) m = false
  rw [hq']
  exact hbound (3 - q) 0 (by omega) le_rfl

/-- The first frame of a one-channel session is one step of channel 0, the cursor at 0 (rule R123). -/
theorem pushFrames_created_maxAt (norm : Beat → F64) (s : Regs) (rate : Nat) {samp : List Beat}
    (hs : 1 ≤ samp.length) :
    let r := s.created 1 rate
    (r.pushFrames (coefOf r.rate) 1 (elements norm (r.nch.toNat * 1) samp)).maxAt 0
      = (chanStep (coefOf r.rate) 0 (r.chan 0) (norm (samp.getD 0 0#64))).2 := by
  intro r
  have hnch : r.nch.toNat = 1 := rfl
  exact congrArg Prod.snd (Regs.pushFrames_chan_beats norm (n := 1) (c := 0)
    (by rw [hnch]; decide) (by rw [hnch]; exact hs))

/-- Settles O44: the frame is one step of channel 0 from a ring of zeros and a maximum of +0.0. -/
theorem impulseFirstFrame : Obligations.ImpulseFirstFrame := by
  unfold Obligations.ImpulseFirstFrame
  intro f hf s rate b rest hlife hrate hsamp hb
  have hcreate : createStatus Config.nchMax 1 rate s.regs = .ok :=
    createStatus_ok.2 ⟨hlife, le_rfl, by unfold Config.nchMax; omega, hrate⟩
  set r := s.regs.created 1 rate with hr
  set t := s.conclude .ok 0#64 0 r with ht
  have hpush : pushStatus 1 1 t.regs = .ok := pushStatus_ok.2 ⟨rfl, le_rfl⟩
  have hbeats : 1 ≤ t.samp.length := by simp [ht, hsamp]
  refine ⟨t, _, exec_create_ok hcreate, exec_push_ok hf hbeats hpush, ?_⟩
  have htbl : (if rate = 44100 then coef44100 else coef48000) = coefOf r.rate := by
    rw [hr, Regs.created_rate]; split <;> rfl
  have hfirst : f.2 (t.samp.getD 0 0#64) = 0x3FF0000000000000#64 := by simp [ht, hsamp, hb]
  have hmax := pushFrames_created_maxAt f.2 s.regs rate hbeats
  rw [hfirst] at hmax
  have hlargest := chanStep_impulse_isLargestCoef r.rate (x := r.chan 0) (p := 0)
    (fun k => by simp [hr, Regs.chan, Regs.histAt_created _ _ _ _ k.isLt])
    (by simp [hr, Regs.chan, Regs.maxAt_created])
  rw [← hmax] at hlargest
  rw [htbl]
  exact ⟨hlargest, isLargestCoef_tap_eleven hlargest⟩

end Sys2Proof.Machine
end

section
/-! PROOFS. The invariant (10_state.md rule R35), what every command leaves alone (rule R37), and the
reset input (rules R33, R210): what a command does to the registers is said once for CREATE, for the
three PUSH commands together, for READMAX and for DESTROY. -/

namespace Sys2Proof.Machine

/-! ### What a command does to the registers -/

/-- The commands by form: the three PUSH commands are one case over how a beat is read. -/
theorem instr_form_cases {P : Instr → Prop} (create : ∀ channels rate, P (.create channels rate))
    (push : ∀ f ∈ pushForms, ∀ n avail, P (f.1 n avail)) (readmax : ∀ channel, P (.readmax channel))
    (destroy : P .destroy) : ∀ i, P i
  | .create channels rate => create channels rate
  | .pushF64 n avail => push (.pushF64, normF64) (by simp [pushForms]) n avail
  | .pushF32 n avail => push (.pushF32, normF32) (by simp [pushForms]) n avail
  | .pushI32 n avail => push (.pushI32, normI32) (by simp [pushForms]) n avail
  | .readmax channel => readmax channel
  | .destroy => destroy

section Outcomes
variable (samp : List Beat) (r : Regs)

theorem outcome_create_ok {channels : Int} {rate : Nat}
    (h : createStatus Config.nchMax channels rate r = .ok) :
    outcome samp r (.create channels rate) = (.ok, 0#64, r.created channels rate) := by
  simp only [outcome, h]

theorem outcome_create_error {channels : Int} {rate : Nat}
    (h : createStatus Config.nchMax channels rate r ≠ .ok) :
    outcome samp r (.create channels rate)
      = (createStatus Config.nchMax channels rate r, 0#64, r) := by
  simp only [outcome]

theorem outcome_readmax_ok {channel : Int} (h : readmaxStatus channel r = .ok) :
    outcome samp r (.readmax channel) = (.ok, r.maxAt channel.toNat, r) := by
  simp only [outcome, h]

theorem outcome_readmax_error {channel : Int} (h : readmaxStatus channel r ≠ .ok) :
    outcome samp r (.readmax channel) = (readmaxStatus channel r, 0#64, r) := by
  simp only [outcome]

theorem outcome_create_regs (channels : Int) (rate : Nat) :
    (outcome samp r (.create channels rate)).2.2 = r ∨
    createStatus Config.nchMax channels rate r = .ok ∧
      (outcome samp r (.create channels rate)).2.2 = r.created channels rate := by
  by_cases h : createStatus Config.nchMax channels rate r = .ok
  · exact Or.inr ⟨h, by rw [outcome_create_ok samp r h]⟩
  · exact Or.inl (by rw [outcome_create_error samp r h])

theorem outcome_push_regs {f : (Nat → Nat → Instr) × (Beat → F64)} (hf : f ∈ pushForms)
    (n avail : Nat) :
    (outcome samp r (f.1 n avail)).2.2 = r ∨
    pushStatus n avail r = .ok ∧ (outcome samp r (f.1 n avail)).2.2
      = r.pushFrames (coefOf r.rate) n (elements f.2 (r.nch.toNat * n) samp) := by
  rw [(outcome_push f hf n avail).2]
  by_cases h : pushStatus n avail r = .ok
  · exact Or.inr ⟨h, by rw [pushOutcome_ok _ _ _ _ _ h]⟩
  · exact Or.inl (by rw [pushOutcome_error _ _ _ _ _ h])

theorem outcome_readmax_regs (channel : Int) : (outcome samp r (.readmax channel)).2.2 = r := by
  by_cases h : readmaxStatus channel r = .ok
  · rw [outcome_readmax_ok samp r h]
  · rw [outcome_readmax_error samp r h]

theorem outcome_destroy_regs :
    (outcome samp r .destroy).2.2 = r ∨
    r.life = .ready ∧ (outcome samp r .destroy).2.2 = { r with life := .destroyed } := by
  simp only [outcome]
  cases r.life with
  | uninitialized => exact Or.inl rfl
  | ready => exact Or.inr ⟨rfl, rfl⟩
  | destroyed => exact Or.inl rfl

end Outcomes

/-- A command leaves the registers as they were, if it waits, or as its outcome has them. -/
theorem exec_regs_cases {i : Instr} {s t : State} (h : exec i s = .next t) :
    t.regs = s.regs ∨ t.regs = (outcome s.samp s.regs i).2.2 := by
  rcases exec_next h with ⟨-, rfl⟩ | ⟨-, rfl⟩
  · exact Or.inl rfl
  · exact Or.inr rfl

/-- No command changes what the host has taken or the levels it drives. -/
theorem exec_keeps_host_side {i : Instr} {s t : State} (h : exec i s = .next t) :
    t.out = s.out ∧ t.rst = s.rst ∧ t.rspReady = s.rspReady := by
  rcases exec_next h with ⟨-, rfl⟩ | ⟨-, rfl⟩ <;> exact ⟨rfl, rfl, rfl⟩

/-! ### The invariant -/

/-- The part of the invariant that speaks of the architectural state. -/
structure Regs.Inv (r : Regs) : Prop where
  ready : r.life = .ready → r.ReadyInv
  hist_wf : r.hist.wf = true
  max_wf : r.max.wf = true
  hist_below : r.hist.below (12 * Config.nchMax)
  max_below : r.max.below Config.nchMax

theorem State.inv_iff {s : State} : s.Inv ↔ s.regs.Inv ∧ s.rsp.length ≤ 1 :=
  ⟨fun ⟨hr, hhw, hmw, hhb, hmb, hrsp⟩ => ⟨⟨hr, hhw, hmw, hhb, hmb⟩, hrsp⟩,
    fun ⟨⟨hr, hhw, hmw, hhb, hmb⟩, hrsp⟩ => ⟨hr, hhw, hmw, hhb, hmb, hrsp⟩⟩

theorem Regs.reset_inv : Regs.reset.Inv where
  ready h := nomatch h
  hist_wf := rfl
  max_wf := rfl
  hist_below := List.forall_mem_nil _
  max_below := List.forall_mem_nil _

/-- A channel count within the capacity fits `NCH`. -/
theorem nch_toNat_of_le_nchMax {channels : Int} (h1 : 1 ≤ channels) (hcap : channels ≤ Config.nchMax) :
    (BitVec.ofInt 16 channels).toNat = channels.toNat := by
  have hmax : Config.nchMax ≤ 32767 := Config.nchMaxPred.isLt
  rw [BitVec.toNat_ofInt]
  omega

/-- An accepted CREATE establishes rule R35: the channels are within the capacity, the cursor and the
maxima are zero. -/
theorem Regs.Inv.created {r : Regs} (hr : r.Inv) {channels : Int} {rate : Nat}
    (h : createStatus Config.nchMax channels rate r = .ok) : (r.created channels rate).Inv := by
  obtain ⟨-, h1, hcap, -⟩ := createStatus_ok.1 h
  have hnch : (r.created channels rate).nch.toNat = channels.toNat := nch_toNat_of_le_nchMax h1 hcap
  refine ⟨fun _ => ⟨by omega, by omega, by simp, fun c hc => ?_⟩,
    Memory.wf_clearBelow _ hr.hist_wf, Memory.wf_clearBelow _ hr.max_wf,
    Memory.below_clearBelow _ hr.hist_below, Memory.below_clearBelow _ hr.max_below⟩
  rw [Regs.maxAt_created, if_pos (by omega)]
  exact F64.isMagnitude_zero

theorem Regs.pushFrame_maxAt_isMagnitude (tbl : CoefTable) (frame : List F64) (r : Regs) {c : Nat}
    (h : F64.isMagnitude (r.maxAt c)) : F64.isMagnitude ((r.pushFrame tbl frame).maxAt c) := by
  have hchan := congrArg Prod.snd (Regs.pushFrame_chan tbl frame r c)
  rw [show (r.pushFrame tbl frame).maxAt c = _ from hchan]
  split
  · rw [chanStep_snd]; exact foldl_runningMax_isMagnitude _ h
  · exact h

theorem Regs.pushFrames_maxAt_isMagnitude (tbl : CoefTable) (n : Nat) (es : List F64) (r : Regs)
    {c : Nat} (h : F64.isMagnitude (r.maxAt c)) :
    F64.isMagnitude ((r.pushFrames tbl n es).maxAt c) := by
  induction n generalizing es r with
  | zero => exact h
  | succ n ih => exact ih _ _ (Regs.pushFrame_maxAt_isMagnitude tbl _ r h)

/-- The frames of a PUSH keep rule R35: the cursor is taken modulo 12, and a maximum is only ever replaced
by an absolute value that is no NaN. -/
theorem Regs.Inv.pushFrames {r : Regs} (hr : r.Inv) (hlife : r.life = .ready) (tbl : CoefTable)
    (n : Nat) (es : List F64) : (r.pushFrames tbl n es).Inv := by
  obtain ⟨hnch, hcap, hpos, hmax⟩ := hr.ready hlife
  obtain ⟨hhw, hmw⟩ := Regs.pushFrames_wf tbl n es r hr.hist_wf hr.max_wf
  obtain ⟨hhb, hmb⟩ := Regs.pushFrames_below tbl n es r hcap hr.hist_below hr.max_below
  refine ⟨fun _ => ?_, hhw, hmw, hhb, hmb⟩
  constructor
  case nch_pos => rwa [Regs.pushFrames_nch]
  case nch_le => rwa [Regs.pushFrames_nch]
  case pos_lt => rw [Regs.pushFrames_pos]; split <;> omega
  case max_ok =>
    intro c hc
    rw [Regs.pushFrames_nch] at hc
    exact Regs.pushFrames_maxAt_isMagnitude tbl n es r (hmax c hc)

theorem Regs.Inv.destroyed {r : Regs} (hr : r.Inv) : Regs.Inv { r with life := .destroyed } :=
  ⟨nofun, hr.hist_wf, hr.max_wf, hr.hist_below, hr.max_below⟩

theorem outcome_inv {r : Regs} (hr : r.Inv) (samp : List Beat) (i : Instr) :
    (outcome samp r i).2.2.Inv := by
  induction i using instr_form_cases with
  | create channels rate =>
    rcases outcome_create_regs samp r channels rate with h | ⟨hok, h⟩
    · rwa [h]
    · rw [h]; exact hr.created hok
  | push f hf n avail =>
    rcases outcome_push_regs samp r hf n avail with h | ⟨hok, h⟩
    · rwa [h]
    · rw [h]; exact hr.pushFrames (pushStatus_ok.1 hok).1 _ _ _
  | readmax channel => rwa [outcome_readmax_regs]
  | destroy =>
    rcases outcome_destroy_regs samp r with h | ⟨-, h⟩
    · rwa [h]
    · rw [h]; exact hr.destroyed

/-- A command executed with no response held keeps the invariant. -/
theorem exec_inv {i : Instr} {s t : State} (hs : s.Inv) (hrsp : s.rsp = []) (h : exec i s = .next t) :
    t.Inv := by
  rcases exec_next h with ⟨-, rfl⟩ | ⟨-, rfl⟩
  · exact hs
  · exact State.inv_iff.2 ⟨outcome_inv (State.inv_iff.1 hs).1 _ _, by simp [hrsp]⟩

/-- Settles O24, by the cases of a step. -/
theorem stepKeepsTheInvariant : Obligations.StepKeepsTheInvariant := by
  unfold Obligations.StepKeepsTheInvariant
  intro s t hs hstep
  obtain ⟨hregs, hlen⟩ := State.inv_iff.1 hs
  rcases step_cases hstep with ⟨-, rfl⟩ | ⟨-, -, -, rfl⟩ | ⟨-, rfl, -⟩ |
    ⟨-, hrsp, cw, rest, -, ⟨-, rfl⟩ | ⟨i, -, hexec⟩⟩
  · exact State.inv_iff.2 ⟨Regs.reset_inv, Nat.zero_le _⟩
  · exact State.inv_iff.2 ⟨hregs, by simp; omega⟩
  · exact hs
  · exact State.inv_iff.2 ⟨hregs, by simp [hrsp]⟩
  · exact exec_inv hs hrsp hexec

/-- Settles O25. -/
theorem resetMeetsTheInvariant : Obligations.ResetMeetsTheInvariant :=
  State.inv_iff.2 ⟨Regs.reset_inv, Nat.zero_le _⟩

theorem State.host_keeps (a : HostAction) (s : State) :
    (s.host a).regs = s.regs ∧ (s.host a).rsp = s.rsp := by
  cases a with
  | setReset level => exact ⟨rfl, rfl⟩
  | setRspReady level => exact ⟨rfl, rfl⟩
  | sendCommand cw => simp only [State.host]; split <;> exact ⟨rfl, rfl⟩
  | sendBeat b => simp only [State.host]; split <;> exact ⟨rfl, rfl⟩

/-- Settles O26: the host touches neither the registers nor the held response. -/
theorem hostActionsKeepTheInvariant : Obligations.HostActionsKeepTheInvariant := by
  unfold Obligations.HostActionsKeepTheInvariant
  intro s a hs
  obtain ⟨hregs, hrsp⟩ := State.host_keeps a s
  rw [State.inv_iff] at *
  rwa [hregs, hrsp]

/-! ### The reset input -/

theorem step_of_rst {s : State} (h : s.rst = true) : step s = .next s.hardReset := by
  unfold step
  rw [if_pos h]

/-- Settles O12. -/
theorem resetInputClearsTheBlock : Obligations.ResetInputClearsTheBlock := by
  unfold Obligations.ResetInputClearsTheBlock
  refine ⟨fun s h => ⟨Regs.reset, rfl, step_of_rst h⟩, fun s w h => ⟨?_, ?_⟩, rfl, rfl, rfl, rfl⟩
  · exact if_pos h
  · exact if_pos h

/-! ### What each command leaves alone -/

theorem Regs.pushFrames_histAt_beyond (tbl : CoefTable) (n : Nat) (es : List F64) (r : Regs)
    {c k : Nat} (hc : r.nch.toNat ≤ c) (hk : k < 12) :
    (r.pushFrames tbl n es).histAt c k = r.histAt c k :=
  (Regs.chan_ext.1 (Regs.pushFrames_chan_beyond tbl n es r hc)).1 k hk

theorem Regs.pushFrames_maxAt_beyond (tbl : CoefTable) (n : Nat) (es : List F64) (r : Regs)
    {c : Nat} (hc : r.nch.toNat ≤ c) : (r.pushFrames tbl n es).maxAt c = r.maxAt c :=
  (Regs.chan_ext.1 (Regs.pushFrames_chan_beyond tbl n es r hc)).2

/-- The frame of the three PUSH commands, whatever they answer. -/
theorem exec_push_frame {f : (Nat → Nat → Instr) × (Beat → F64)} (hf : f ∈ pushForms) {n avail : Nat}
    {s t : State} (h : exec (f.1 n avail) s = .next t) :
    t.regs.life = s.regs.life ∧ t.regs.nch = s.regs.nch ∧ t.regs.rate = s.regs.rate ∧
    ∀ c k, s.regs.nch.toNat ≤ c → k < 12 →
      t.regs.histAt c k = s.regs.histAt c k ∧ t.regs.maxAt c = s.regs.maxAt c := by
  have hcases : t.regs = s.regs ∨ t.regs = s.regs.pushFrames (coefOf s.regs.rate) n
      (elements f.2 (s.regs.nch.toNat * n) s.samp) := by
    rcases exec_regs_cases h with h | h
    · exact Or.inl h
    · rw [h]; exact (outcome_push_regs _ _ hf n avail).imp_right And.right
  rcases hcases with h | h
  · simp [h]
  · rw [h]
    exact ⟨by simp, by simp, by simp, fun c k hc hk =>
      ⟨Regs.pushFrames_histAt_beyond _ _ _ _ hc hk, Regs.pushFrames_maxAt_beyond _ _ _ _ hc⟩⟩

/-- The frame of CREATE, whatever it answers. -/
theorem exec_create_frame {channels : Int} {rate : Nat} {s t : State}
    (h : exec (.create channels rate) s = .next t) {c k : Nat} (hc : channels.toNat ≤ c) (hk : k < 12) :
    t.regs.histAt c k = s.regs.histAt c k ∧ t.regs.maxAt c = s.regs.maxAt c := by
  have hcases : t.regs = s.regs ∨ t.regs = s.regs.created channels rate := by
    rcases exec_regs_cases h with h | h
    · exact Or.inl h
    · rw [h]; exact (outcome_create_regs _ _ channels rate).imp_right And.right
  rcases hcases with h | h
  · simp [h]
  · rw [h, Regs.histAt_created _ _ _ _ hk, Regs.maxAt_created, if_neg (by omega), if_neg (by omega)]
    exact ⟨rfl, rfl⟩

/-- READMAX is a pure read. -/
theorem exec_readmax_regs {channel : Int} {s t : State} (h : exec (.readmax channel) s = .next t) :
    t.regs = s.regs := by
  rcases exec_regs_cases h with h | h
  · exact h
  · rw [h, outcome_readmax_regs]

/-- DESTROY writes `LIFE` alone. -/
theorem exec_destroy_frame {s t : State} (h : exec .destroy s = .next t) :
    t.regs = { s.regs with life := t.regs.life } := by
  rcases exec_regs_cases h with h | h
  · rw [h]
  · rcases outcome_destroy_regs s.samp s.regs with h' | ⟨-, h'⟩ <;> rw [h, h']

/-- Settles O22, from the frame of each command. -/
theorem writeSetsOfTheCommands : Obligations.WriteSetsOfTheCommands := by
  unfold Obligations.WriteSetsOfTheCommands
  intro i s t h
  obtain ⟨hout, hrst, hready⟩ := exec_keeps_host_side h
  refine ⟨hout, hrst, hready, ?_⟩
  cases i with
  | create channels rate => exact fun c k hc hk => exec_create_frame h hc hk
  | pushF64 n avail => exact exec_push_frame (f := (.pushF64, normF64)) (by simp [pushForms]) h
  | pushF32 n avail => exact exec_push_frame (f := (.pushF32, normF32)) (by simp [pushForms]) h
  | pushI32 n avail => exact exec_push_frame (f := (.pushI32, normI32)) (by simp [pushForms]) h
  | readmax channel => exact exec_readmax_regs h
  | destroy => exact exec_destroy_frame h

end Sys2Proof.Machine
end

section
/-! PROOFS. An accepted PUSH: its response, its cursor and its frame (41_push.md rules R123, R127, R132),
and the rings of its channels, which hold the newest frames (10_state.md rules R24, R36). -/

namespace Sys2Proof.Machine

/-! ### The registers after an accepted PUSH -/

/-- The architectural state a PUSH of `n` frames leaves when it is accepted (rule R123). -/
def State.pushedRegs (norm : Beat → F64) (n : Nat) (s : State) : Regs :=
  s.regs.pushFrames (coefOf s.regs.rate) n (elements norm (s.regs.nch.toNat * n) s.samp)

/-- An accepted PUSH (rules R121, R123): `pushedRegs` is what it leaves. -/
theorem exec_push_accepted {f : (Nat → Nat → Instr) × (Beat → F64)} (hf : f ∈ pushForms) {n avail : Nat}
    {s : State} (hlife : s.regs.life = .ready) (hbeats : avail ≤ s.samp.length)
    (hframes : s.regs.nch.toNat * n ≤ avail) :
    exec (f.1 n avail) s = .next (s.answered avail .ok 0#64 (s.pushedRegs f.2 n)) :=
  exec_push_ok hf hbeats (pushStatus_ok.2 ⟨hlife, hframes⟩)

section Pushed
variable (norm : Beat → F64) (n : Nat) (s : State)

@[simp] theorem State.pushedRegs_life : (s.pushedRegs norm n).life = s.regs.life :=
  Regs.pushFrames_life _ _ _ _

@[simp] theorem State.pushedRegs_nch : (s.pushedRegs norm n).nch = s.regs.nch :=
  Regs.pushFrames_nch _ _ _ _

@[simp] theorem State.pushedRegs_rate : (s.pushedRegs norm n).rate = s.regs.rate :=
  Regs.pushFrames_rate _ _ _ _

/-- The cursor after a PUSH (rule R24). -/
theorem State.pushedRegs_pos : (s.pushedRegs norm n).pos.toNat
    = if n = 0 then s.regs.pos.toNat else (s.regs.pos.toNat + n) % 12 :=
  Regs.pushFrames_pos _ _ _ _

end Pushed

/-- Settles O32, from the frame lemmas of the frame loop. -/
theorem pushAppliesItsFrames : Obligations.PushAppliesItsFrames := by
  unfold Obligations.PushAppliesItsFrames
  intro f hf n avail s hlife hbeats hframes
  refine ⟨_, exec_push_accepted hf hlife hbeats hframes, by simpa using hlife, by simp, by simp,
    State.pushedRegs_pos f.2 n s, fun c k hc hk => ⟨?_, ?_⟩⟩
  · exact Regs.pushFrames_histAt_beyond _ _ _ _ hc hk
  · exact Regs.pushFrames_maxAt_beyond _ _ _ _ hc

/-! ### The rings -/

theorem slotOf_eq_iff {a b : Nat} : slotOf a = slotOf b ↔ a % 12 = b % 12 := Fin.ext_iff

/-- Step 1 on a ring: the slot at the cursor takes the sample (rule R124). -/
theorem chanStep_fst_apply (tbl : CoefTable) (p : Nat) (x : Row × F64) (v : F64) (k : Fin 12) :
    (chanStep tbl p x v).1 k = if k = slotOf p then v else x.1 k :=
  Function.update_apply ..

/-- After a run the slot `j` behind the newest holds the sample `j` before the last, and slots behind the
run's samples what they held. -/
theorem chanRun_fst_behind_newest (tbl : CoefTable) (p : Nat) (vs : List F64) (x : Row × F64) {j : Nat}
    (hj : j < 12) :
    (chanRun tbl p vs x).1 (slotOf (p + vs.length + 11 - j))
      = if j < vs.length then vs.getD (vs.length - 1 - j) 0#64
        else x.1 (slotOf (p + vs.length + 11 - j)) := by
  induction vs generalizing p x with
  | nil => rfl
  | cons v vs ih =>
    have hslot : slotOf (p + (vs.length + 1) + 11 - j)
        = slotOf ((p + 1) % 12 + vs.length + 11 - j) := by
      rw [slotOf_eq_iff]; omega
    have hfirst : slotOf (p + (vs.length + 1) + 11 - j) = slotOf p ↔ j = vs.length % 12 := by
      rw [slotOf_eq_iff]; omega
    rw [List.length_cons, chanRun, hslot, ih, ← hslot, chanStep_fst_apply]
    simp only [hfirst]
    rcases Nat.lt_trichotomy j vs.length with h | rfl | h
    · have hindex : vs.length + 1 - 1 - j = (vs.length - 1 - j) + 1 := by omega
      rw [if_pos h, if_pos (by omega), hindex, List.getD_cons_succ]
    · rw [if_neg (by omega), if_pos (by omega), if_pos (by omega), Nat.add_sub_cancel, Nat.sub_self,
        List.getD_cons_zero]
    · rw [if_neg (by omega), if_neg (by omega), if_neg (by omega)]

/-- The ring of channel `c` after an accepted PUSH (rules R36, R51, R124). -/
theorem State.pushedRegs_histAt_behind_newest (norm : Beat → F64) {n c j : Nat} {s : State}
    (hframes : s.regs.nch.toNat * n ≤ s.samp.length) (hc : c < s.regs.nch.toNat) (hj : j < 12) :
    (s.pushedRegs norm n).histAt c ((s.regs.pos.toNat + n + 11 - j) % 12)
      = if j < n then norm (s.samp.getD (s.regs.nch.toNat * (n - 1 - j) + c) 0#64)
        else s.regs.histAt c ((s.regs.pos.toNat + n + 11 - j) % 12) := by
  have hrow := congrArg Prod.fst (Regs.pushFrames_chan_beats norm hc hframes)
  have hrun := chanRun_fst_behind_newest (coefOf s.regs.rate) s.regs.pos.toNat
    ((List.range n).map fun i => norm (s.samp.getD (s.regs.nch.toNat * i + c) 0#64))
    (s.regs.chan c) hj
  rw [← hrow, List.length_map, List.length_range] at hrun
  refine Eq.trans hrun ?_
  split
  · simp [List.getD_eq_getElem?_getD, List.getElem?_range (show n - 1 - j < n by omega)]
  · rfl

/-- Settles O33, from the run of each channel over its own samples. -/
theorem pushFillsTheRing : Obligations.PushFillsTheRing := by
  unfold Obligations.PushFillsTheRing
  intro f hf n avail s hlife hbeats hframes
  exact ⟨_, exec_push_accepted hf hlife hbeats hframes, fun c j hc hj =>
    State.pushedRegs_histAt_behind_newest f.2 (hframes.trans hbeats) hc hj⟩

/-! ### The frames of a session -/

/-- Clause (d) of rule R36 is clause (b) at the oldest slot: with twelve frames or more it is the slot at
the cursor. -/
theorem Regs.holdsFrames_iff {r : Regs} {frames : Nat} {sample : Nat → Nat → F64} :
    r.holdsFrames frames sample ↔ r.pos.toNat = frames % 12 ∧ ∀ c, c < r.nch.toNat →
      (∀ j, j < min frames 12 →
        r.histAt c ((r.pos.toNat + 11 - j) % 12) = sample (frames - 1 - j) c) ∧
      (frames < 12 → ∀ k, frames ≤ k → k < 12 → r.histAt c k = 0#64) := by
  constructor
  · rintro ⟨hpos, hrings⟩
    refine ⟨hpos, fun c hc => ?_⟩
    obtain ⟨hnewest, hzero, -⟩ := hrings c hc
    exact ⟨hnewest, hzero⟩
  · rintro ⟨hpos, hrings⟩
    refine ⟨hpos, fun c hc => ?_⟩
    obtain ⟨hnewest, hzero⟩ := hrings c hc
    refine ⟨hnewest, hzero, fun h12 => ?_⟩
    have holdest := hnewest 11 (by omega)
    rwa [show (r.pos.toNat + 11 - 11) % 12 = r.pos.toNat by omega,
      show frames - 1 - 11 = frames - 12 by omega] at holdest

/-- An accepted CREATE starts a session of no frames (rules R34, R36). -/
theorem Regs.created_holdsFrames {channels : Int} {rate : Nat} {r : Regs} (sample : Nat → Nat → F64)
    (h1 : 1 ≤ channels) (hcap : channels ≤ Config.nchMax) :
    (r.created channels rate).holdsFrames 0 sample := by
  refine Regs.holdsFrames_iff.2 ⟨rfl, fun c hc => ⟨fun j hj => absurd hj (by simp), fun _ k _ hk => ?_⟩⟩
  rw [Regs.created_nch, nch_toNat_of_le_nchMax h1 hcap] at hc
  rw [Regs.histAt_created _ _ _ _ hk, if_pos hc]

/-- The samples of a session of `frames` frames after a PUSH: those it had, and then the beats of the PUSH,
frame by frame (rule R51). -/
def pushedSamples (norm : Beat → F64) (s : State) (frames : Nat) (sample : Nat → Nat → F64) :
    Nat → Nat → F64 := fun j c =>
  if j < frames then sample j c else norm (s.samp.getD (s.regs.nch.toNat * (j - frames) + c) 0#64)

theorem pushedSamples_old (norm : Beat → F64) (s : State) {frames j : Nat} (sample : Nat → Nat → F64)
    (h : j < frames) (c : Nat) : pushedSamples norm s frames sample j c = sample j c := if_pos h

theorem pushedSamples_new (norm : Beat → F64) (s : State) (frames i : Nat) (sample : Nat → Nat → F64)
    (c : Nat) : pushedSamples norm s frames sample (frames + i) c
      = norm (s.samp.getD (s.regs.nch.toNat * i + c) 0#64) := by
  rw [pushedSamples, if_neg (by omega), Nat.add_sub_cancel_left]

/-- An accepted PUSH adds its frames to the session's (rules R24, R36). A slot `j` behind the newest is one
of the pushed frames where `j < n`, and else it is a slot `j - n` behind the newest of before. -/
theorem State.pushedRegs_holdsFrames (norm : Beat → F64) {n frames : Nat} {s : State}
    {sample : Nat → Nat → F64} (hframes : s.regs.nch.toNat * n ≤ s.samp.length)
    (h : s.regs.holdsFrames frames sample) :
    (s.pushedRegs norm n).holdsFrames (frames + n) (pushedSamples norm s frames sample) := by
  obtain ⟨hpos, hrings⟩ := Regs.holdsFrames_iff.1 h
  have hpos' : (s.pushedRegs norm n).pos.toNat = (frames + n) % 12 := by
    rw [State.pushedRegs_pos]; split <;> omega
  refine Regs.holdsFrames_iff.2 ⟨hpos', fun c hc => ?_⟩
  rw [State.pushedRegs_nch] at hc
  obtain ⟨hnewest, hzero⟩ := hrings c hc
  have hring := fun j (hj : j < 12) => State.pushedRegs_histAt_behind_newest norm hframes hc hj
  refine ⟨fun j hj => ?newest, fun hfew k hk hk12 => ?unwritten⟩
  case newest =>
    have hslot : ((s.pushedRegs norm n).pos.toNat + 11 - j) % 12
        = (s.regs.pos.toNat + n + 11 - j) % 12 := by omega
    rw [hslot, hring j (by omega)]
    split
    · rw [show frames + n - 1 - j = frames + (n - 1 - j) by omega, pushedSamples_new]
    · have hback : (s.regs.pos.toNat + n + 11 - j) % 12 = (s.regs.pos.toNat + 11 - (j - n)) % 12 := by
        omega
      rw [hback, hnewest (j - n) (by omega), pushedSamples_old _ _ _ (by omega)]
      congr 1
      omega
  case unwritten =>
    have hslot : (s.regs.pos.toNat + n + 11 - (frames + n + 11 - k)) % 12 = k := by omega
    have hold := hring (frames + n + 11 - k) (by omega)
    rw [hslot, if_neg (by omega)] at hold
    rw [hold]
    exact hzero (by omega) k (by omega) hk12

/-- In Ready a command that is no PUSH and no DESTROY changes no register: a CREATE is refused and a READMAX
reads. -/
theorem exec_regs_of_ready {i : Instr} {s t : State} (hlife : s.regs.life = .ready)
    (hpush : ∀ f ∈ pushForms, ∀ n avail, i ≠ f.1 n avail) (hdestroy : i ≠ .destroy)
    (h : exec i s = .next t) : t.regs = s.regs := by
  induction i using instr_form_cases with
  | create channels rate =>
    rcases exec_regs_cases h with h | h
    · exact h
    · rcases outcome_create_regs s.samp s.regs channels rate with h' | ⟨hok, -⟩
      · rw [h, h']
      · obtain ⟨hlife', -⟩ := createStatus_ok.1 hok
        rw [hlife] at hlife'
        cases hlife'
  | push f hf n avail => exact absurd rfl (hpush f hf n avail)
  | readmax channel => exact exec_readmax_regs h
  | destroy => exact absurd rfl hdestroy

/-- Settles O35: the relation starts with CREATE, grows with a PUSH, and is kept by the commands that
change no register. -/
theorem ringHoldsTheNewestFrames : Obligations.RingHoldsTheNewestFrames := by
  unfold Obligations.RingHoldsTheNewestFrames
  refine ⟨?create, ?push, ?others⟩
  case create =>
    intro s channels rate sample hlife h1 hcap hrate
    exact ⟨_, exec_create_ok (createStatus_ok.2 ⟨hlife, h1, hcap, hrate⟩),
      Regs.created_holdsFrames sample h1 hcap⟩
  case push =>
    intro f hf n avail frames s sample hlife hbeats hframes h
    exact ⟨_, exec_push_accepted hf hlife hbeats hframes,
      State.pushedRegs_holdsFrames f.2 (hframes.trans hbeats) h⟩
  case others =>
    intro i frames s t sample hlife h hpush hdestroy hexec
    rwa [exec_regs_of_ready hlife hpush hdestroy hexec]

end Sys2Proof.Machine
end

section
/-! PROOFS. What the registers cannot show: their values outside Ready (10_state.md rules R33, R38), and in
Ready the cells of channels from `NCH` on (rules R25, R26, R34, R53). Both run one command from two
register states that agree in part, and say in what the results agree. -/

namespace Sys2Proof.Machine

/-! ### One command from two register states -/

/-- Two outcomes with the same response, whose registers are related. -/
def OutcomesAgree (P : Regs → Regs → Prop) (o o' : Status × F64 × Regs) : Prop :=
  o.1 = o'.1 ∧ o.2.1 = o'.2.1 ∧ P o.2.2 o'.2.2

/-- If two register states are related, and the outcomes from them agree, then the command answers from
both with the same response and the same words and beats taken, and leaves them related. -/
theorem exec_pair {P : Regs → Regs → Prop} {i : Instr} {s : State} {r' : Regs} (hwait : P s.regs r')
    (hdone : OutcomesAgree P (outcome s.samp s.regs i) (outcome s.samp r' i)) :
    ∃ t t' : State, exec i s = .next t ∧ exec i { s with regs := r' } = .next t' ∧
      t.cmd = t'.cmd ∧ t.samp = t'.samp ∧ t.rsp = t'.rsp ∧ P t.regs t'.regs := by
  rcases Nat.lt_or_ge s.samp.length (beatsOf i) with h | h
  · exact ⟨_, _, exec_of_waiting h, exec_of_waiting h, rfl, rfl, rfl, hwait⟩
  · obtain ⟨hst, hdata, hregs⟩ := hdone
    refine ⟨_, _, exec_of_beats h, exec_of_beats h, rfl, rfl, ?_, hregs⟩
    simp only [State.conclude_rsp, hst, hdata]

/-- Two register states agree in the control registers and in every cell of the first `n` channels. -/
structure Regs.AgreeBelow (n : Nat) (r r' : Regs) : Prop where
  life : r.life = r'.life
  nch : r.nch = r'.nch
  rate : r.rate = r'.rate
  pos : r.pos = r'.pos
  chan : ∀ c, c < n → r.chan c = r'.chan c

theorem Regs.AgreeBelow.cells {n : Nat} {r r' : Regs} (h : r.AgreeBelow n r') {c k : Nat} (hc : c < n)
    (hk : k < 12) : r.histAt c k = r'.histAt c k ∧ r.maxAt c = r'.maxAt c := by
  obtain ⟨hhist, hmax⟩ := Regs.chan_ext.1 (h.chan c hc)
  exact ⟨hhist k hk, hmax⟩

/-! ### Outside Ready -/

/-- The same `LIFE`, and once Ready the same registers and reachable cells. -/
def Regs.AgreeOnceReady (r r' : Regs) : Prop :=
  r.life = r'.life ∧ (r.life = .ready → r.AgreeBelow r.nch.toNat r')

theorem Regs.agreeOnceReady_of_not_ready {r r' : Regs} (hready : r.life ≠ .ready)
    (hlife : r'.life = r.life) : r.AgreeOnceReady r' :=
  ⟨hlife.symm, fun h => absurd h hready⟩

/-- An accepted CREATE clears the cells of its channels, whatever they held (rule R34). -/
theorem Regs.created_agreeBelow (r r' : Regs) (channels : Int) (rate : Nat) :
    (r.created channels rate).AgreeBelow channels.toNat (r'.created channels rate) := by
  refine ⟨rfl, rfl, rfl, rfl, fun c hc => Regs.chan_ext.2 ⟨fun k hk => ?_, ?_⟩⟩
  · rw [Regs.histAt_created _ _ _ _ hk, Regs.histAt_created _ _ _ _ hk, if_pos hc, if_pos hc]
  · rw [Regs.maxAt_created, Regs.maxAt_created, if_pos hc, if_pos hc]

theorem createStatus_congr {r r' : Regs} (hlife : r'.life = r.life) (cap : Nat) (channels : Int)
    (rate : Nat) : createStatus cap channels rate r' = createStatus cap channels rate r := by
  unfold createStatus
  rw [hlife]

theorem pushStatus_of_not_ready {r : Regs} (h : r.life ≠ .ready) (n avail : Nat) :
    pushStatus n avail r = .invalidState := if_pos h

theorem readmaxStatus_of_not_ready {r : Regs} (h : r.life ≠ .ready) (channel : Int) :
    readmaxStatus channel r = .invalidState := if_pos h

/-- Outside Ready the outcome of a command depends on `LIFE` alone. -/
theorem outcomesAgree_of_not_ready {r r' : Regs} (hready : r.life ≠ .ready) (hlife : r'.life = r.life)
    (samp : List Beat) (i : Instr) :
    OutcomesAgree Regs.AgreeOnceReady (outcome samp r i) (outcome samp r' i) := by
  have hready' : r'.life ≠ .ready := hlife ▸ hready
  have hsame := Regs.agreeOnceReady_of_not_ready hready hlife
  induction i using instr_form_cases with
  | create channels rate =>
    have hst := createStatus_congr hlife Config.nchMax channels rate
    by_cases hok : createStatus Config.nchMax channels rate r = .ok
    · obtain ⟨-, h1, hcap, -⟩ := createStatus_ok.1 hok
      rw [outcome_create_ok samp r hok, outcome_create_ok samp r' (hst.trans hok)]
      refine ⟨rfl, rfl, rfl, fun _ => ?_⟩
      rw [Regs.created_nch, nch_toNat_of_le_nchMax h1 hcap]
      exact Regs.created_agreeBelow r r' channels rate
    · rw [outcome_create_error samp r hok, outcome_create_error samp r' (hst ▸ hok), hst]
      exact ⟨rfl, rfl, hsame⟩
  | push f hf n avail =>
    have hst := pushStatus_of_not_ready hready n avail
    have hst' := pushStatus_of_not_ready hready' n avail
    rw [(outcome_push f hf n avail).2, (outcome_push f hf n avail).2,
      pushOutcome_error _ _ _ _ _ (by simp [hst]), pushOutcome_error _ _ _ _ _ (by simp [hst']),
      hst, hst']
    exact ⟨rfl, rfl, hsame⟩
  | readmax channel =>
    have hst := readmaxStatus_of_not_ready hready channel
    have hst' := readmaxStatus_of_not_ready hready' channel
    rw [outcome_readmax_error samp r (by simp [hst]), outcome_readmax_error samp r' (by simp [hst']),
      hst, hst']
    exact ⟨rfl, rfl, hsame⟩
  | destroy =>
    simp only [outcome, hlife]
    cases hl : r.life with
    | uninitialized => exact ⟨rfl, rfl, hsame⟩
    | ready => exact absurd hl hready
    | destroyed => exact ⟨rfl, rfl, hsame⟩

/-- Settles O13. -/
theorem registersOutsideReadyAreUnobservable : Obligations.RegistersOutsideReadyAreUnobservable := by
  unfold Obligations.RegistersOutsideReadyAreUnobservable
  intro i s r' hready hlife
  obtain ⟨t, t', ht, ht', hcmd, hsamp, hrsp, htlife, hagree⟩ :=
    exec_pair (Regs.agreeOnceReady_of_not_ready hready hlife)
      (outcomesAgree_of_not_ready hready hlife s.samp i)
  refine ⟨t, t', ht, ht', hcmd, hsamp, hrsp, htlife, fun hr => ?_⟩
  exact ⟨(hagree hr).nch, (hagree hr).rate, (hagree hr).pos, fun c k hc hk => (hagree hr).cells hc hk⟩

/-! ### In Ready, the channels from `NCH` on -/

theorem Regs.AgreeBelow.pushFrame {n : Nat} {r r' : Regs} (h : r.AgreeBelow n r') (tbl : CoefTable)
    (frame : List F64) : (r.pushFrame tbl frame).AgreeBelow n (r'.pushFrame tbl frame) := by
  refine ⟨by simpa using h.life, by simpa using h.nch, by simpa using h.rate, ?_, fun c hc => ?_⟩
  · apply BitVec.eq_of_toNat_eq
    rw [Regs.pushFrame_pos, Regs.pushFrame_pos, h.pos]
  · rw [Regs.pushFrame_chan, Regs.pushFrame_chan, h.pos, h.chan c hc]

theorem Regs.AgreeBelow.pushFrames {b : Nat} {r r' : Regs} (h : r.AgreeBelow b r') (tbl : CoefTable)
    (n : Nat) (es : List F64) : (r.pushFrames tbl n es).AgreeBelow b (r'.pushFrames tbl n es) := by
  induction n generalizing es r r' with
  | zero => exact h
  | succ n ih =>
    rw [Regs.pushFrames_succ, Regs.pushFrames_succ, ← h.nch]
    exact ih (h.pushFrame tbl _) _

theorem pushStatus_congr {r r' : Regs} (hlife : r.life = r'.life) (hnch : r.nch = r'.nch)
    (n avail : Nat) : pushStatus n avail r' = pushStatus n avail r := by
  unfold pushStatus
  rw [hlife, hnch]

theorem readmaxStatus_congr {r r' : Regs} (hlife : r.life = r'.life) (hnch : r.nch = r'.nch)
    (channel : Int) : readmaxStatus channel r' = readmaxStatus channel r := by
  unfold readmaxStatus
  rw [hlife, hnch]

/-- In Ready the outcome of a command depends on the control registers and the cells of the channels below
`NCH` alone: a PUSH runs each channel by itself, and READMAX reads a channel below `NCH`. -/
theorem outcomesAgree_of_agreeBelow {r r' : Regs} (hready : r.life = .ready)
    (h : r.AgreeBelow r.nch.toNat r') (samp : List Beat) (i : Instr) :
    OutcomesAgree (Regs.AgreeBelow r.nch.toNat) (outcome samp r i) (outcome samp r' i) := by
  induction i using instr_form_cases with
  | create channels rate =>
    have hst : createStatus Config.nchMax channels rate r = .invalidState := if_pos (by simp [hready])
    have hst' := (createStatus_congr h.life.symm Config.nchMax channels rate).trans hst
    rw [outcome_create_error samp r (by simp [hst]), outcome_create_error samp r' (by simp [hst']),
      hst, hst']
    exact ⟨rfl, rfl, h⟩
  | push f hf n avail =>
    have hst := pushStatus_congr h.life h.nch n avail
    rw [(outcome_push f hf n avail).2, (outcome_push f hf n avail).2]
    by_cases hok : pushStatus n avail r = .ok
    · rw [pushOutcome_ok _ _ _ _ _ hok, pushOutcome_ok _ _ _ _ _ (hst.trans hok), ← h.rate, ← h.nch]
      exact ⟨rfl, rfl, h.pushFrames _ _ _⟩
    · rw [pushOutcome_error _ _ _ _ _ hok, pushOutcome_error _ _ _ _ _ (hst ▸ hok), hst]
      exact ⟨rfl, rfl, h⟩
  | readmax channel =>
    have hst := readmaxStatus_congr h.life h.nch channel
    by_cases hok : readmaxStatus channel r = .ok
    · obtain ⟨-, h0, hlt⟩ := readmaxStatus_ok.1 hok
      rw [outcome_readmax_ok samp r hok, outcome_readmax_ok samp r' (hst.trans hok)]
      exact ⟨rfl, (Regs.chan_ext.1 (h.chan channel.toNat (by omega))).2, h⟩
    · rw [outcome_readmax_error samp r hok, outcome_readmax_error samp r' (hst ▸ hok), hst]
      exact ⟨rfl, rfl, h⟩
  | destroy =>
    simp only [outcome, ← h.life, hready]
    exact ⟨rfl, rfl, rfl, h.nch, h.rate, h.pos, h.chan⟩

/-- Settles O14. -/
theorem cellsBeyondTheChannelsAreNeverRead : Obligations.CellsBeyondTheChannelsAreNeverRead := by
  unfold Obligations.CellsBeyondTheChannelsAreNeverRead
  intro i s r' hready hready' hnch hrate hpos hcells
  have hagree : s.regs.AgreeBelow s.regs.nch.toNat r' :=
    ⟨hready.trans hready'.symm, hnch.symm, hrate.symm, hpos.symm, fun c hc => Regs.chan_ext.2
      ⟨fun k hk => (hcells c k hc hk).1.symm, (hcells c 0 hc (by decide)).2.symm⟩⟩
  obtain ⟨t, t', ht, ht', hcmd, hsamp, hrsp, h⟩ :=
    exec_pair hagree (outcomesAgree_of_agreeBelow hready hagree s.samp i)
  exact ⟨t, t', ht, ht', hcmd, hsamp, hrsp, h.life, h.nch, h.rate, h.pos,
    fun c k hc hk => h.cells hc hk⟩

end Sys2Proof.Machine
end

section
/-! PROOFS. The memory rules of 20_memory.md: the little-endian order of a byte-serial transport (rule R55)
and the addressing of a channel's ring buffer (rule R52). -/

namespace Sys2Proof.Machine

/-! ### Little-endian order -/

theorem bytesOf_head? {w : Nat} (n : Nat) (x : BitVec w) :
    (bytesOf (n + 1) x).head? = some (BitVec.ofNat 8 x.toNat) := by
  simp [bytesOf, List.range_succ_eq_map, BitVec.extractLsb']

/-- Each byte appends to the field below it as one longer field, and the field of all 64 bits is the word
(rule R55). -/
theorem wordOfBytes_bytesOf_append (w : Word) (rest : List Byte) :
    wordOfBytes (bytesOf 8 w ++ rest) = some (w, rest) := by
  have hfields : wordOfBytes (bytesOf 8 w ++ rest) = some (w.extractLsb' 0 64, rest) := by
    show some (_, rest) = _
    iterate 7 rw [BitVec.extractLsb'_append_extractLsb'_eq_extractLsb' (by rfl)]
  rw [hfields, BitVec.extractLsb'_eq_self]

/-- Settles O7. -/
theorem littleEndianTransport : Obligations.LittleEndianTransport := by
  unfold Obligations.LittleEndianTransport
  exact fun w rest => ⟨wordOfBytes_bytesOf_append w rest, bytesOf_head? 7 w⟩

/-! ### Ring addressing -/

/-- A cursor below 12 is the slot the write goes to (rule R52 (a)). -/
theorem Regs.writeSlot_of_lt {r : Regs} (h : r.pos.toNat < 12) : r.writeSlot = r.pos.toNat :=
  Nat.mod_eq_of_lt h

/-- The model adds 12 before it subtracts; the remainder is that of the integers, which is never negative
(rule R52 (b)). -/
theorem Regs.tapSlot_eq_emod (r : Regs) {i : Nat} (hi : i < 12) :
    (r.tapSlot i : Int) = ((r.pos.toNat : Int) - i) % 12 := by
  unfold Regs.tapSlot; omega

theorem Regs.tapSlot_eleven (r : Regs) : r.tapSlot 11 = (r.pos.toNat + 1) % 12 := rfl

theorem Regs.pushSample_histAt_writeSlot (tbl : CoefTable) (c : Nat) (v : F64) (r : Regs) :
    (r.pushSample tbl c v).histAt c r.writeSlot = v := by
  rw [Regs.pushSample_histAt tbl c v r c r.writeSlot_lt, if_pos ⟨rfl, rfl⟩]

/-- Settles O49. -/
theorem ringSlotsWrapAround : Obligations.RingSlotsWrapAround := by
  unfold Obligations.RingSlotsWrapAround
  intro r hpos
  have hslot := Regs.writeSlot_of_lt hpos
  refine ⟨fun tbl c v => ?written, fun _ _ _ => rfl, fun _ => r.tapSlot_eq_emod,
    r.tapSlot_zero.trans hslot, r.tapSlot_eleven, fun h3 => ?list⟩
  case written => exact hslot ▸ r.pushSample_histAt_writeSlot tbl c v
  case list =>
    unfold Regs.tapSlot
    rw [h3]
    decide

end Sys2Proof.Machine
end

section
/-! PROOFS. The encoding of commands (30_encoding.md rules R82 to R91, R98, R99). A word is an opcode and
the fields of a format, so the encoder, the decoder and the rows of the opcode table (rule R87) each
come down to the same three things of a word: its opcode, its must-be-zero bits, its operands. -/

namespace Sys2Proof

/-! ### A word as the fields of a format -/

theorem word_eq_formatP (cw : Word) : cw = opcodeField cw ++ (frameCountField cw ++ lowField cw) := by
  unfold opcodeField frameCountField lowField
  rw [BitVec.extractLsb'_append_extractLsb'_eq_extractLsb' (by rfl),
    BitVec.extractLsb'_append_extractLsb'_eq_extractLsb' (by rfl), BitVec.extractLsb'_eq_self]

theorem word_eq_formatR (cw : Word) : cw = opcodeField cw ++ (signedField cw ++ mbzR cw) := by
  unfold opcodeField signedField mbzR
  rw [BitVec.extractLsb'_append_extractLsb'_eq_extractLsb' (by rfl),
    BitVec.extractLsb'_append_extractLsb'_eq_extractLsb' (by rfl), BitVec.extractLsb'_eq_self]

theorem word_eq_formatZ (cw : Word) : cw = opcodeField cw ++ mbzZ cw := by
  unfold opcodeField mbzZ
  rw [BitVec.extractLsb'_append_extractLsb'_eq_extractLsb' (by rfl), BitVec.extractLsb'_eq_self]

/-- Format C (rule R83). -/
theorem eq_formatC_iff {cw : Word} {op : BitVec 8} {v : BitVec 16} {z : BitVec 8} {a : BitVec 32} :
    cw = op ++ (v ++ (z ++ a)) ↔
      opcodeField cw = op ∧ signedField cw = v ∧ mbzC cw = z ∧ lowField cw = a := by
  conv_lhs => lhs; rw [word_eq_fields cw]
  exact append_eq_append_iff.trans (and_congr_right' (append_eq_append_iff.trans
    (and_congr_right' append_eq_append_iff)))

/-- Format P (rule R84). -/
theorem eq_formatP_iff {cw : Word} {op : BitVec 8} {n : BitVec 24} {a : BitVec 32} :
    cw = op ++ (n ++ a) ↔ opcodeField cw = op ∧ frameCountField cw = n ∧ lowField cw = a := by
  conv_lhs => lhs; rw [word_eq_formatP cw]
  exact append_eq_append_iff.trans (and_congr_right' append_eq_append_iff)

/-- Format R (rule R85). -/
theorem eq_formatR_iff {cw : Word} {op : BitVec 8} {v : BitVec 16} {z : BitVec 40} :
    cw = op ++ (v ++ z) ↔ opcodeField cw = op ∧ signedField cw = v ∧ mbzR cw = z := by
  conv_lhs => lhs; rw [word_eq_formatR cw]
  exact append_eq_append_iff.trans (and_congr_right' append_eq_append_iff)

/-- Format Z (rule R86). -/
theorem eq_formatZ_iff {cw : Word} {op : BitVec 8} {z : BitVec 56} :
    cw = op ++ z ↔ opcodeField cw = op ∧ mbzZ cw = z := by
  conv_lhs => lhs; rw [word_eq_formatZ cw]
  exact append_eq_append_iff

/-! ### What a word must be to carry a command -/

/-- The must-be-zero bits of the command's format are 0 in the word (rules R83 to R86). -/
def Instr.mbzClear (cw : Word) : Instr → Prop
  | .create _ _ => mbzC cw = 0
  | .pushF64 _ _ | .pushF32 _ _ | .pushI32 _ _ => True
  | .readmax _ => mbzR cw = 0
  | .destroy => mbzZ cw = 0

/-- The command of the same form whose operands the fields of the word denote (rules R83 to R86, R88). -/
def Instr.ofFields (cw : Word) : Instr → Instr
  | .create _ _ => .create (signedField cw).toInt (lowField cw).toNat
  | .pushF64 _ _ => .pushF64 (frameCountField cw).toNat (lowField cw).toNat
  | .pushF32 _ _ => .pushF32 (frameCountField cw).toNat (lowField cw).toNat
  | .pushI32 _ _ => .pushI32 (frameCountField cw).toNat (lowField cw).toNat
  | .readmax _ => .readmax (signedField cw).toInt
  | .destroy => .destroy

/-- The decoder: the opcode and the must-be-zero bits select the form, the fields give the operands. -/
theorem decode_eq_ok_iff {cw : Word} {i : Instr} :
    decode cw = .ok i ↔ opcodeField cw = i.opcode ∧ i.mbzClear cw ∧ i.ofFields cw = i := by
  constructor
  · intro h
    rcases decode_cases h with ⟨hop, hmbz, rfl⟩ | ⟨hop, rfl⟩ | ⟨hop, rfl⟩ | ⟨hop, rfl⟩ |
      ⟨hop, hmbz, rfl⟩ | ⟨hop, hmbz, rfl⟩
    · exact ⟨hop, hmbz, rfl⟩
    · exact ⟨hop, trivial, rfl⟩
    · exact ⟨hop, trivial, rfl⟩
    · exact ⟨hop, trivial, rfl⟩
    · exact ⟨hop, hmbz, rfl⟩
    · exact ⟨hop, hmbz, rfl⟩
  · rintro ⟨hop, hmbz, hi⟩
    rw [← hi]
    unfold decode
    cases i <;> simp_all [Instr.opcode, Instr.mbzClear, Instr.ofFields]

/-- A field of 16 bits is the encoding of the operand it denotes and of no other that fits (rule R88). -/
theorem fitsSigned16_and_eq_ofInt {v : Int} {f : BitVec 16} :
    fitsSigned16 v = true ∧ f = BitVec.ofInt 16 v ↔ f.toInt = v := by
  simp only [fitsSigned16, decide_eq_true_eq]
  constructor
  · rintro ⟨hfits, rfl⟩
    exact BitVec.toInt_ofInt_eq_self (by decide) hfits.1 (by omega)
  · rintro rfl
    exact ⟨⟨BitVec.le_toInt f, Int.le_of_lt_add_one (BitVec.toInt_lt)⟩, BitVec.ofInt_toInt.symm⟩

/-- An unsigned field is the encoding of the operand it denotes and of no other that fits. -/
theorem lt_and_eq_ofNat {w v : Nat} {f : BitVec w} :
    v < 2 ^ w ∧ f = BitVec.ofNat w v ↔ f.toNat = v := by
  constructor
  · rintro ⟨hfits, rfl⟩
    exact (BitVec.toNat_ofNat v w).trans (Nat.mod_eq_of_lt hfits)
  · rintro rfl
    exact ⟨f.isLt, by simp⟩

theorem eq_encodeP_iff {cw : Word} {op : BitVec 8} {n a : Nat} :
    (fitsUnsigned24 n && fitsUnsigned32 a) = true ∧ cw = encodeP op n a ↔
      opcodeField cw = op ∧ (frameCountField cw).toNat = n ∧ (lowField cw).toNat = a := by
  simp only [encodeP, eq_formatP_iff, ← lt_and_eq_ofNat, fitsUnsigned24, fitsUnsigned32,
    Bool.and_eq_true, decide_eq_true_eq]
  tauto

/-- The encoder, for every operand that fits its field. -/
theorem eq_encode_iff {cw : Word} {i : Instr} : i.wellFormed = true ∧ cw = encode i ↔
    opcodeField cw = i.opcode ∧ i.mbzClear cw ∧ i.ofFields cw = i := by
  cases i with
  | create channels rate =>
    simp only [Instr.wellFormed, encode, eq_formatC_iff, Instr.opcode, Instr.mbzClear, Instr.ofFields,
      Instr.create.injEq, ← fitsSigned16_and_eq_ofInt, ← lt_and_eq_ofNat, fitsUnsigned32,
      Bool.and_eq_true, decide_eq_true_eq]
    tauto
  | pushF64 n a =>
    simp only [Instr.mbzClear, Instr.ofFields, Instr.pushF64.injEq, true_and]
    exact eq_encodeP_iff
  | pushF32 n a =>
    simp only [Instr.mbzClear, Instr.ofFields, Instr.pushF32.injEq, true_and]
    exact eq_encodeP_iff
  | pushI32 n a =>
    simp only [Instr.mbzClear, Instr.ofFields, Instr.pushI32.injEq, true_and]
    exact eq_encodeP_iff
  | readmax channel =>
    simp only [Instr.wellFormed, encode, eq_formatR_iff, Instr.opcode, Instr.mbzClear, Instr.ofFields,
      Instr.readmax.injEq, ← fitsSigned16_and_eq_ofInt]
    tauto
  | destroy =>
    simp only [Instr.wellFormed, encode, eq_formatZ_iff, Instr.opcode, Instr.mbzClear, Instr.ofFields]
    tauto

/-- A word decodes to a command exactly where it is the word of that command, which is well formed. -/
theorem decode_eq_ok_iff_encode {cw : Word} {i : Instr} :
    decode cw = .ok i ↔ i.wellFormed = true ∧ cw = encode i :=
  decode_eq_ok_iff.trans eq_encode_iff.symm

/-- Settles O1: the encoding of a well-formed command is one of the words `decode_eq_ok_iff_encode` speaks
of. -/
theorem decodeAfterEncode : Obligations.DecodeAfterEncode := by
  unfold Obligations.DecodeAfterEncode
  exact fun i hwf => decode_eq_ok_iff_encode.2 ⟨hwf, rfl⟩

/-- Settles O2, by the other direction of `decode_eq_ok_iff_encode`. -/
theorem encodeAfterDecode : Obligations.EncodeAfterDecode := by
  unfold Obligations.EncodeAfterDecode
  intro cw i h
  obtain ⟨hwf, hcw⟩ := decode_eq_ok_iff_encode.1 h
  exact ⟨hwf, hcw.symm⟩

/-! ### The opcode table -/

theorem and_eq_zero_iff_mbzC {cw : Word} : cw &&& 0x000000FF00000000#64 = 0#64 ↔ mbzC cw = 0 := by
  have hones (x : BitVec 8) : x &&& 0xFF#8 = x := BitVec.and_allOnes
  rw [show 0#64 = 0#8 ++ (0#16 ++ (0#8 ++ 0#32)) from by decide, eq_formatC_iff]
  simp [opcodeField, signedField, mbzC, lowField, BitVec.extractLsb'_and, hones]

theorem and_eq_zero_iff_mbzR {cw : Word} : cw &&& 0x000000FFFFFFFFFF#64 = 0#64 ↔ mbzR cw = 0 := by
  have hones (x : BitVec 40) : x &&& 0xFFFFFFFFFF#40 = x := BitVec.and_allOnes
  rw [show 0#64 = 0#8 ++ (0#16 ++ 0#40) from by decide, eq_formatR_iff]
  simp [opcodeField, signedField, mbzR, BitVec.extractLsb'_and, hones]

theorem and_eq_zero_iff_mbzZ {cw : Word} : cw &&& 0x00FFFFFFFFFFFFFF#64 = 0#64 ↔ mbzZ cw = 0 := by
  have hones (x : BitVec 56) : x &&& 0xFFFFFFFFFFFFFF#56 = x := BitVec.and_allOnes
  rw [show 0#64 = 0#8 ++ 0#56 from by decide, eq_formatZ_iff]
  simp [opcodeField, mbzZ, BitVec.extractLsb'_and, hones]

/-- Every row's mask has bits 63:56 whole, and every row's match is its opcode over zeros: the row asks for
the opcode and for zeros under the rest of the mask. -/
theorem and_opcodeMask_iff (cw : Word) (op : BitVec 8) (m : BitVec 56) :
    cw &&& (BitVec.allOnes 8 ++ m) = op ++ 0#56 ↔ opcodeField cw = op ∧ cw &&& (0#8 ++ m) = 0#64 := by
  rw [word_eq_formatZ cw, show 0#64 = 0#8 ++ 0#56 from by decide, BitVec.and_append, BitVec.and_append,
    append_eq_append_iff, append_eq_append_iff, ← word_eq_formatZ]
  simp only [BitVec.and_allOnes, BitVec.and_zero, true_and]

/-- Under the mask of a command's row, a word is its match exactly where it has the command's opcode and the
must-be-zero bits of its format are 0 (rule R87). -/
theorem and_rowMask_iff {cw : Word} {i : Instr} :
    cw &&& i.rowMask = i.rowMatch ↔ opcodeField cw = i.opcode ∧ i.mbzClear cw := by
  have hpush (op : BitVec 8) : cw &&& (BitVec.allOnes 8 ++ 0#56) = op ++ 0#56 ↔
      opcodeField cw = op ∧ True := (and_opcodeMask_iff cw op 0#56).trans (by simp)
  cases i with
  | create channels rate =>
    exact (and_opcodeMask_iff cw 0x01#8 0x0000FF00000000#56).trans
      (and_congr_right' and_eq_zero_iff_mbzC)
  | pushF64 n a => exact hpush 0x10#8
  | pushF32 n a => exact hpush 0x11#8
  | pushI32 n a => exact hpush 0x12#8
  | readmax channel =>
    exact (and_opcodeMask_iff cw 0x20#8 0x0000FFFFFFFFFF#56).trans
      (and_congr_right' and_eq_zero_iff_mbzR)
  | destroy =>
    exact (and_opcodeMask_iff cw 0x30#8 0xFFFFFFFFFFFFFF#56).trans
      (and_congr_right' and_eq_zero_iff_mbzZ)

theorem Instr.row_mem_opcodeTable (i : Instr) : (i.rowMatch, i.rowMask) ∈ opcodeTable := by
  cases i <;> simp [Instr.rowMatch, Instr.rowMask, opcodeTable]

theorem exists_instr_of_mem_opcodeTable {row : Word × Word} (h : row ∈ opcodeTable) :
    ∃ i : Instr, (i.rowMatch, i.rowMask) = row := by
  simp only [opcodeTable, List.mem_cons, List.not_mem_nil, or_false] at h
  rcases h with rfl | rfl | rfl | rfl | rfl | rfl
  · exact ⟨.create 0 0, rfl⟩
  · exact ⟨.pushF64 0 0, rfl⟩
  · exact ⟨.pushF32 0 0, rfl⟩
  · exact ⟨.pushI32 0 0, rfl⟩
  · exact ⟨.readmax 0, rfl⟩
  · exact ⟨.destroy, rfl⟩

theorem Instr.row_ofFields (cw : Word) (i : Instr) :
    ((i.ofFields cw).rowMatch, (i.ofFields cw).rowMask) = (i.rowMatch, i.rowMask) := by
  cases i <;> rfl

/-- A word decodes to the command of the row it matches, with its own fields as the operands. -/
theorem decode_of_and_rowMask {cw : Word} {i : Instr} (h : cw &&& i.rowMask = i.rowMatch) :
    decode cw = .ok (i.ofFields cw) := by
  obtain ⟨hop, hmbz⟩ := and_rowMask_iff.1 h
  rw [decode_eq_ok_iff]
  cases i <;> exact ⟨hop, hmbz, rfl⟩

theorem and_rowMask_of_decode {cw : Word} {i : Instr} (h : decode cw = .ok i) :
    cw &&& i.rowMask = i.rowMatch := by
  obtain ⟨hop, hmbz, -⟩ := decode_eq_ok_iff.1 h
  exact and_rowMask_iff.2 ⟨hop, hmbz⟩

theorem decode_of_mem_opcodeTable {cw : Word} {row : Word × Word} (hrow : row ∈ opcodeTable)
    (h : cw &&& row.2 = row.1) : ∃ i, decode cw = .ok i ∧ (i.rowMatch, i.rowMask) = row := by
  obtain ⟨i, rfl⟩ := exists_instr_of_mem_opcodeTable hrow
  exact ⟨i.ofFields cw, decode_of_and_rowMask h, i.row_ofFields cw⟩

theorem decode_error_iff {cw : Word} : (∃ e, decode cw = .error e) ↔ ∀ i, decode cw ≠ .ok i := by
  cases decode cw <;> simp

/-- Settles O3: a row that a word matches is the row of the command it decodes to, so a word that matches
two rows would decode to two commands, and one that decodes to none matches none. -/
theorem decodeFollowsOpcodeTable : Obligations.DecodeFollowsOpcodeTable := by
  unfold Obligations.DecodeFollowsOpcodeTable
  refine ⟨fun cw i h => ⟨i.row_mem_opcodeTable, and_rowMask_of_decode h⟩,
    fun cw row hrow => decode_of_mem_opcodeTable hrow, fun cw row hrow row' hrow' h h' => ?exclusive,
    fun cw => decode_error_iff.trans ⟨fun herr row hrow h => ?illegal, fun hno i h => ?legal⟩⟩
  case exclusive =>
    obtain ⟨i, hi, rfl⟩ := decode_of_mem_opcodeTable hrow h
    obtain ⟨i', hi', rfl⟩ := decode_of_mem_opcodeTable hrow' h'
    obtain rfl : i = i' := Except.ok.inj (hi.symm.trans hi')
    rfl
  case illegal =>
    obtain ⟨i, hi, -⟩ := decode_of_mem_opcodeTable hrow h
    exact herr i hi
  case legal => exact hno _ i.row_mem_opcodeTable (and_rowMask_of_decode h)

/-! ### Operands -/

theorem signedField_toInt (cw : Word) : (signedField cw).toInt =
    if cw.toNat / 2 ^ 40 % 2 ^ 16 < 2 ^ 15 then ((cw.toNat / 2 ^ 40 % 2 ^ 16 : Nat) : Int)
    else ((cw.toNat / 2 ^ 40 % 2 ^ 16 : Nat) : Int) - 2 ^ 16 := by
  rw [BitVec.toInt_eq_toNat_cond, signedField_toNat]
  exact if_congr (by omega) rfl rfl

/-- Settles O6: the operands are those of `Instr.ofFields`, and each field is a number
read off the word by division. -/
theorem operandsAreTheirFields : Obligations.OperandsAreTheirFields := by
  unfold Obligations.OperandsAreTheirFields
  intro cw high signed count low i h
  obtain ⟨-, -, hi⟩ := decode_eq_ok_iff.1 h
  have hsigned : (signedField cw).toInt = signed := signedField_toInt cw
  have hcount : (frameCountField cw).toNat = count := frameCountField_toNat cw
  have hlow : (lowField cw).toNat = low := lowField_toNat cw
  rw [← hsigned, ← hcount, ← hlow]
  cases i <;> exact hi.symm

/-! ### Worked examples -/

/-- Settles O5, by evaluation. -/
theorem workedEncodingsDecode : Obligations.WorkedEncodingsDecode := by
  unfold Obligations.WorkedEncodingsDecode
  decide

/-- Settles O8, by evaluation: the kernel rounds the decimals with exact integers. -/
theorem assembledExamples : Obligations.AssembledExamples := by
  unfold Obligations.AssembledExamples
  decide +kernel

end Sys2Proof
end
section
/-! PROOFS. The command loop (30_encoding.md rules R81, R89, R92, R95; 70_reset_and_hazards.md rules R216,
R218): what a step does with the word next on CMD and with a held response, said once. -/

namespace Sys2Proof.Machine

/-! ### Which words are ILLEGAL -/

theorem shiftRight_eq_setWidth_iff {cw : Word} {op : BitVec 8} :
    cw >>> 56 = op.setWidth 64 ↔ opcodeField cw = op := by
  have := op.isLt
  have := cw.isLt
  rw [← BitVec.toNat_inj, ← BitVec.toNat_inj, opcodeField_toNat]
  simp only [BitVec.toNat_ushiftRight, Nat.shiftRight_eq_div_pow, BitVec.toNat_setWidth]
  omega

/-- Rule R89, in fields. -/
theorem decode_error_iff_fields {cw : Word} : (∃ e, decode cw = .error e) ↔
    (∀ op ∈ [0x01#8, 0x10#8, 0x11#8, 0x12#8, 0x20#8, 0x30#8], opcodeField cw ≠ op) ∨
    (opcodeField cw = 0x01#8 ∧ mbzC cw ≠ 0) ∨ (opcodeField cw = 0x20#8 ∧ mbzR cw ≠ 0) ∨
    (opcodeField cw = 0x30#8 ∧ mbzZ cw ≠ 0) := by
  unfold decode
  dsimp only
  split
  next hop => split <;> simp_all
  split
  next hop => simp [hop]
  split
  next hop => simp [hop]
  split
  next hop => simp [hop]
  split
  next hop => split <;> simp_all
  split
  next hop => split <;> simp_all
  · simp_all

/-! ### The beats of a word -/

theorem wordBeats_of_ok {cw : Word} {i : Instr} (h : decode cw = .ok i) : wordBeats cw = beatsOf i := by
  simp only [wordBeats, h]

theorem wordBeats_of_error {cw : Word} {e : Illegal} (h : decode cw = .error e) : wordBeats cw = 0 := by
  simp only [wordBeats, h]

/-- Rule R92, in fields. -/
theorem wordBeats_eq (cw : Word) : wordBeats cw =
    if opcodeField cw = 0x10#8 ∨ opcodeField cw = 0x11#8 ∨ opcodeField cw = 0x12#8
    then (lowField cw).toNat else 0 := by
  split
  next hpush =>
    rcases hpush with hop | hop | hop
    · exact wordBeats_of_ok (i := .pushF64 _ _) (decode_eq_ok_iff.2 ⟨hop, trivial, rfl⟩)
    · exact wordBeats_of_ok (i := .pushF32 _ _) (decode_eq_ok_iff.2 ⟨hop, trivial, rfl⟩)
    · exact wordBeats_of_ok (i := .pushI32 _ _) (decode_eq_ok_iff.2 ⟨hop, trivial, rfl⟩)
  next hother =>
    cases hcw : decode cw with
    | error e => exact wordBeats_of_error hcw
    | ok i =>
      rw [wordBeats_of_ok hcw]
      have hop := (decode_eq_ok_iff.1 hcw).1
      cases i with
      | create channels rate => rfl
      | pushF64 n avail => exact absurd (.inl hop) hother
      | pushF32 n avail => exact absurd (.inr (.inl hop)) hother
      | pushI32 n avail => exact absurd (.inr (.inr hop)) hother
      | readmax channel => rfl
      | destroy => rfl

/-! ### A step -/

theorem step_of_held {s : State} {resp : Resp} {rest : List Resp} (hrst : s.rst = false)
    (hrsp : s.rsp = resp :: rest) :
    step s = .next (if s.rspReady then s.transferResponse else s) := by
  simp only [step, hrst, hrsp]
  cases s.rspReady <;> rfl

theorem step_of_idle {s : State} (hrst : s.rst = false) (hrsp : s.rsp = []) (hcmd : s.cmd = []) :
    step s = .next s := by
  simp [step, hrst, hrsp, hcmd]

section Word
variable {s : State} {cw : Word} {rest : List Word} (hrst : s.rst = false) (hrsp : s.rsp = [])
  (hcmd : s.cmd = cw :: rest)
include hrst hrsp hcmd

theorem step_of_decode_ok {i : Instr} (h : decode cw = .ok i) : step s = exec i s := by
  simp [step, hrst, hrsp, hcmd, h]

theorem step_of_decode_error {e : Illegal} (h : decode cw = .error e) : step s = .next s.illegal := by
  simp [step, hrst, hrsp, hcmd, h]

/-- While beats of the word next on CMD are missing, the block waits (rule R216 (a)). -/
theorem step_of_missing_beats (h : s.samp.length < wordBeats cw) : step s = .next s := by
  cases hcw : decode cw with
  | error e => simp [wordBeats_of_error hcw] at h
  | ok i =>
    rw [step_of_decode_ok hrst hrsp hcmd hcw]
    exact exec_of_waiting (wordBeats_of_ok hcw ▸ h)

end Word

/-- The status, the data and the architectural state a word next on CMD leads to: those of the command it
decodes to, or the answer to an ILLEGAL word (rules R81, R89). -/
def wordOutcome (samp : List Beat) (r : Regs) (cw : Word) : Status × F64 × Regs :=
  match decode cw with
  | .ok i => outcome samp r i
  | .error _ => (.illegalCommand, 0#64, r)

theorem wordOutcome_of_ok (samp : List Beat) (r : Regs) {cw : Word} {i : Instr} (h : decode cw = .ok i) :
    wordOutcome samp r cw = outcome samp r i := by
  simp only [wordOutcome, h]

theorem wordOutcome_of_error (samp : List Beat) (r : Regs) {cw : Word} {e : Illegal}
    (h : decode cw = .error e) : wordOutcome samp r cw = (.illegalCommand, 0#64, r) := by
  simp only [wordOutcome, h]

/-- Once its beats are there, the word next on CMD goes, with exactly its beats, and one response comes
(rules R81, R92). -/
theorem step_of_beats {s : State} {cw : Word} {rest : List Word} (hrst : s.rst = false)
    (hrsp : s.rsp = []) (hcmd : s.cmd = cw :: rest) (h : wordBeats cw ≤ s.samp.length) :
    step s = .next (s.conclude (wordOutcome s.samp s.regs cw).1 (wordOutcome s.samp s.regs cw).2.1
      (wordBeats cw) (wordOutcome s.samp s.regs cw).2.2) := by
  cases hcw : decode cw with
  | error e =>
    rw [step_of_decode_error hrst hrsp hcmd hcw, wordOutcome_of_error _ _ hcw, wordBeats_of_error hcw]
    rfl
  | ok i =>
    rw [step_of_decode_ok hrst hrsp hcmd hcw, wordOutcome_of_ok _ _ hcw, wordBeats_of_ok hcw]
    exact exec_of_beats (wordBeats_of_ok hcw ▸ h)

/-! ### The command loop serves the host and runs the word next on CMD -/

/-- Settles O9. -/
theorem stepExecutesTheDecodedCommand : Obligations.StepExecutesTheDecodedCommand := by
  unfold Obligations.StepExecutesTheDecodedCommand
  exact fun s cw rest i hrst hrsp hcmd hcw => step_of_decode_ok hrst hrsp hcmd hcw

/-- Settles O10, from the steps of a held response and of an idle block. -/
theorem stepServesTheHost : Obligations.StepServesTheHost := by
  unfold Obligations.StepServesTheHost
  intro s hrst
  refine ⟨fun resp rest hrsp hready => ?taken, fun hrsp hready => ?held,
    fun hrsp hcmd => step_of_idle hrst hrsp hcmd⟩
  case taken =>
    rw [step_of_held hrst hrsp, if_pos hready]
    simp [State.transferResponse, hrsp]
  case held =>
    obtain ⟨resp, rest, hrsp⟩ := List.exists_cons_of_ne_nil hrsp
    rw [step_of_held hrst hrsp, hready]
    rfl

/-- Settles O29. -/
theorem pushWaitsForItsBeats : Obligations.PushWaitsForItsBeats := by
  unfold Obligations.PushWaitsForItsBeats
  intro f hf n avail s h
  exact exec_of_waiting (by rwa [(outcome_push f hf n avail).1])

/-- Settles O4: rule R89 is `decode_error_iff_fields` with each field read off the word by a shift or a
mask. -/
theorem illegalWordsAreAnsweredOnly : Obligations.IllegalWordsAreAnsweredOnly := by
  unfold Obligations.IllegalWordsAreAnsweredOnly
  refine ⟨fun cw => ?fields, ⟨_, rfl⟩, ⟨_, rfl⟩, fun s cw rest e hrst hrsp hcmd hcw => ?answer⟩
  case fields =>
    have hop (op : BitVec 8) : opcodeField cw = op ↔ cw >>> 56 = op.setWidth 64 :=
      shiftRight_eq_setWidth_iff.symm
    exact decode_error_iff_fields.trans (or_congr (forall₂_congr fun op _ => not_congr (hop op))
      (or_congr (and_congr (hop 0x01#8) (not_congr and_eq_zero_iff_mbzC.symm))
        (or_congr (and_congr (hop 0x20#8) (not_congr and_eq_zero_iff_mbzR.symm))
          (and_congr (hop 0x30#8) (not_congr and_eq_zero_iff_mbzZ.symm)))))
  case answer =>
    rw [step_of_decode_error hrst hrsp hcmd hcw]
    simp only [State.illegal, State.raise, State.conclude, hcmd, hrsp]
    rfl

/-- Settles O15: the beats of a word are the field that rule R92 names. -/
theorem beatConsumption : Obligations.BeatConsumption := by
  unfold Obligations.BeatConsumption
  intro s cw rest hrst hrsp hcmd beats
  have hbeats : wordBeats cw = beats := by
    rw [wordBeats_eq, lowField_toNat]
    simp only [← shiftRight_eq_setWidth_iff]
    rfl
  rw [← hbeats]
  exact ⟨step_of_missing_beats hrst hrsp hcmd, fun h =>
    ⟨_, step_of_beats hrst hrsp hcmd h, by simp [hcmd], rfl⟩⟩

/-- Settles O11: a transfer moves the oldest response across, and a command adds one at the end. -/
theorem responsesAreNeverLost : Obligations.ResponsesAreNeverLost := by
  unfold Obligations.ResponsesAreNeverLost
  intro s t hrst hstep
  rcases step_cases hstep with ⟨hrst', -⟩ | ⟨-, -, -, rfl⟩ | ⟨-, rfl, -⟩ |
    ⟨-, -, cw, rest, -, ⟨-, rfl⟩ | ⟨i, -, hexec⟩⟩
  · simp [hrst] at hrst'
  · rw [State.transferResponse_out, State.transferResponse_rsp, List.append_assoc,
      List.take_append_drop]
  · exact ⟨[], List.append_nil _⟩
  · simp
  · rcases exec_next hexec with ⟨-, rfl⟩ | ⟨-, rfl⟩
    · exact ⟨[], List.append_nil _⟩
    · simp

/-! ### Beat accounting -/

theorem State.beatsOwed_cons {s : State} {cw : Word} {rest : List Word} (hcmd : s.cmd = cw :: rest) :
    s.beatsOwed = wordBeats cw + (rest.map wordBeats).sum := by
  simp [State.beatsOwed, hcmd]

/-- Under exact accounting the word next on CMD has its beats. -/
theorem State.beatsExact.wordBeats_le {s : State} (hexact : s.beatsExact) {cw : Word}
    {rest : List Word} (hcmd : s.cmd = cw :: rest) : wordBeats cw ≤ s.samp.length := by
  rw [hexact, State.beatsOwed_cons hcmd]
  exact Nat.le_add_right _ _

/-- Concluding the word next on CMD takes its share from the beats held and from the beats owed. -/
theorem State.beatsExact.conclude {s : State} (hexact : s.beatsExact) {cw : Word}
    {rest : List Word} (hcmd : s.cmd = cw :: rest) (st : Status) (d : F64) (r : Regs) :
    (s.conclude st d (wordBeats cw) r).beatsExact := by
  have hlen := hexact.trans (State.beatsOwed_cons hcmd)
  simp [State.beatsExact, State.beatsOwed, hcmd, hlen]

/-- Settles O16: under exact accounting the word next on CMD concludes and keeps the accounting; a
transfer and a wait touch neither queue, and a reset empties both. -/
theorem stepKeepsBeatAccounting : Obligations.StepKeepsBeatAccounting := by
  unfold Obligations.StepKeepsBeatAccounting
  intro s t hexact hstep
  constructor
  case left =>
    rcases step_cases hstep with ⟨-, rfl⟩ | ⟨-, -, -, rfl⟩ | ⟨-, rfl, -⟩ |
      ⟨hrst, hrsp, cw, rest, hcmd, -⟩
    · rfl
    · exact hexact
    · exact hexact
    · rw [step_of_beats hrst hrsp hcmd (hexact.wordBeats_le hcmd)] at hstep
      cases hstep
      exact hexact.conclude hcmd _ _ _
  case right =>
    intro hrst hrsp cw rest hcmd
    rw [step_of_beats hrst hrsp hcmd (hexact.wordBeats_le hcmd)] at hstep
    cases hstep
    simp [hcmd]

/-! ### The response word -/

theorem Status.code_eq_zero_iff {st : Status} : st.code = 0#8 ↔ st = .ok := by
  cases st <;> decide

theorem Status.code_toNat_le (st : Status) : st.code.toNat ≤ 4 := by
  cases st <;> decide

/-- The data of a response is 0 but where a READMAX ends OK (rule R95). -/
theorem outcome_data (samp : List Beat) (r : Regs) (i : Instr) : (outcome samp r i).2.1 = 0#64 ∨
    ∃ channel, i = .readmax channel ∧ (outcome samp r i).1 = .ok := by
  induction i using instr_form_cases with
  | create channels rate =>
    left
    by_cases h : createStatus Config.nchMax channels rate r = .ok
    · rw [outcome_create_ok samp r h]
    · rw [outcome_create_error samp r h]
  | push f hf n avail =>
    left
    rw [(outcome_push f hf n avail).2]
    by_cases h : pushStatus n avail r = .ok
    · rw [pushOutcome_ok _ _ _ _ _ h]
    · rw [pushOutcome_error _ _ _ _ _ h]
  | readmax channel =>
    by_cases h : readmaxStatus channel r = .ok
    · exact Or.inr ⟨channel, rfl, by rw [outcome_readmax_ok samp r h]⟩
    · left; rw [outcome_readmax_error samp r h]
  | destroy => left; simp only [outcome]; cases r.life <;> rfl

theorem outcome_readmax_data (samp : List Beat) (r : Regs) {channel : Int}
    (h : (outcome samp r (.readmax channel)).1 = .ok) :
    (outcome samp r (.readmax channel)).2.1 = r.maxAt channel.toNat := by
  by_cases hst : readmaxStatus channel r = .ok
  · rw [outcome_readmax_ok samp r hst]
  · rw [outcome_readmax_error samp r hst] at h
    exact absurd h hst

theorem wordOutcome_data (samp : List Beat) (r : Regs) (cw : Word) :
    (wordOutcome samp r cw).2.1 = 0#64 ∨
    ∃ channel, decode cw = .ok (.readmax channel) ∧ (wordOutcome samp r cw).1 = .ok := by
  cases hcw : decode cw with
  | error e => exact Or.inl (by rw [wordOutcome_of_error _ _ hcw])
  | ok i =>
    rw [wordOutcome_of_ok _ _ hcw]
    exact (outcome_data samp r i).imp_right fun ⟨channel, hi, hst⟩ => ⟨channel, congrArg _ hi, hst⟩

/-- Settles O17, with the outcome of the word as the response. -/
theorem everyCommandAnswersOnce : Obligations.EveryCommandAnswersOnce := by
  unfold Obligations.EveryCommandAnswersOnce
  intro s cw rest hrst hrsp hcmd hbeats
  refine ⟨_, _, _, step_of_beats hrst hrsp hcmd hbeats, by simp [hcmd],
    by rw [State.conclude_rsp, hrsp]; rfl, Status.code_toNat_le _, fun channel hcw hst => ?maximum,
    fun h => ?zero⟩
  case maximum =>
    rw [Status.code_eq_zero_iff, wordOutcome_of_ok _ _ hcw] at hst
    rw [wordOutcome_of_ok _ _ hcw]
    exact outcome_readmax_data _ _ hst
  case zero =>
    rcases wordOutcome_data s.samp s.regs cw with hd | ⟨channel, hcw, hst⟩
    · exact hd
    · rcases h with h | h
      · exact absurd (Status.code_eq_zero_iff.2 hst) h
      · exact absurd hcw (h channel)

end Sys2Proof.Machine
end

section
/-! PROOFS. CREATE (40_create.md rules R111, R112): the check that fails decides the status, and the
registers of an accepted CREATE are read field by field and cell by cell. -/

namespace Sys2Proof.Machine

/-! ### The checks of CREATE, one by one -/

section Checks
variable {cap rate : Nat} {channels : Int} {r : Regs}

theorem createStatus_invalidState (hlife : r.life ≠ .uninitialized) :
    createStatus cap channels rate r = .invalidState := if_pos hlife

theorem createStatus_invalidArgument (hlife : r.life = .uninitialized)
    (hbad : channels ≤ 0 ∨ (rate ≠ 44100 ∧ rate ≠ 48000)) :
    createStatus cap channels rate r = .invalidArgument := by
  rw [createStatus, if_neg (not_not.2 hlife), if_pos hbad]

theorem createStatus_allocationFailure (hlife : r.life = .uninitialized) (h1 : 1 ≤ channels)
    (hrate : rate = 44100 ∨ rate = 48000) (hcap : cap < channels) :
    createStatus cap channels rate r = .allocationFailure := by
  have hgood : ¬(channels ≤ 0 ∨ (rate ≠ 44100 ∧ rate ≠ 48000)) := by omega
  rw [createStatus, if_neg (not_not.2 hlife), if_neg hgood, if_pos hcap]

end Checks

/-- A refused CREATE answers the error of its first failing check and changes no register (rule R111). -/
theorem exec_create_error {channels : Int} {rate : Nat} {s : State} {e : Status}
    (he : createStatus Config.nchMax channels rate s.regs = e) (hne : e ≠ .ok) :
    exec (.create channels rate) s = .next (s.answered 0 e 0#64 s.regs) := by
  subst he
  rw [exec_of_beats (Nat.zero_le _), outcome_create_error _ _ hne]
  rfl

/-- Settles O28: each clause is one check of rule R111. -/
theorem createChecksInOrder : Obligations.CreateChecksInOrder := by
  unfold Obligations.CreateChecksInOrder
  intro s channels rate
  refine ⟨fun hlife => ?state, fun hlife hbad => ?argument, fun hlife h1 hrate hcap => ?allocation⟩
  case state => exact exec_create_error (createStatus_invalidState hlife) (by decide)
  case argument => exact exec_create_error (createStatus_invalidArgument hlife hbad) (by decide)
  case allocation =>
    exact exec_create_error (createStatus_allocationFailure hlife h1 hrate hcap) (by decide)

/-! ### The state of a new session -/

/-- Settles O27: the new registers are `Regs.created`; the channel count fits `NCH`, and a cell is cleared
exactly below the channel count. -/
theorem createStartsASession : Obligations.CreateStartsASession := by
  unfold Obligations.CreateStartsASession
  intro s channels rate hlife h1 hcap hrate
  refine ⟨s.regs.created channels rate,
    exec_create_ok (createStatus_ok.2 ⟨hlife, h1, hcap, hrate⟩), rfl, ?nch, rfl, rfl,
    fun c k hc hk => ?cleared, fun c k hc hk => ?kept⟩
  case nch =>
    rw [Regs.created_nch, nch_toNat_of_le_nchMax h1 hcap]
    omega
  case cleared =>
    have hlt : c < channels.toNat := by omega
    rw [Regs.histAt_created _ _ _ _ hk, Regs.maxAt_created, if_pos hlt, if_pos hlt]
    exact ⟨rfl, rfl⟩
  case kept =>
    have hge : ¬c < channels.toNat := by omega
    rw [Regs.histAt_created _ _ _ _ hk, Regs.maxAt_created, if_neg hge, if_neg hge]
    exact ⟨rfl, rfl⟩

end Sys2Proof.Machine
end

section
/-! PROOFS. The PUSH commands (41_push.md): their checks (rules R121, R131), how a beat becomes an element
(rules R122, R138), and what one frame does to each channel by itself: the slot it writes and the results
it compares with the maximum (rules R124 to R126, R133, R134, R136). -/

namespace Sys2Proof.Machine

/-! ### The checks of PUSH -/

theorem pushStatus_invalidArgument {n avail : Nat} {r : Regs} (hlife : r.life = .ready) (hn : 0 < n)
    (hshort : avail < r.nch.toNat * n) : pushStatus n avail r = .invalidArgument := by
  rw [pushStatus, if_neg (not_not.2 hlife), if_pos ⟨hn, hshort⟩]

section Refused
variable {f : (Nat → Nat → Instr) × (Beat → F64)} (hf : f ∈ pushForms) {n avail : Nat} {s : State}
  (hbeats : avail ≤ s.samp.length)
include hf hbeats

/-- A refused PUSH answers the error of its first failing check, takes its beats and changes no register
(rule R121). -/
theorem exec_push_refused {e : Status} (he : pushStatus n avail s.regs = e) (hne : e ≠ .ok) :
    exec (f.1 n avail) s = .next (s.answered avail e 0#64 s.regs) := by
  subst he
  exact exec_push_error hf hbeats hne

theorem exec_push_of_not_ready (hlife : s.regs.life ≠ .ready) :
    exec (f.1 n avail) s = .next (s.answered avail .invalidState 0#64 s.regs) :=
  exec_push_refused hf hbeats (pushStatus_of_not_ready hlife n avail) (by decide)

end Refused

/-- Settles O30: each clause is one check of rule R121. -/
theorem pushChecksInOrder : Obligations.PushChecksInOrder := by
  unfold Obligations.PushChecksInOrder
  intro f hf n avail s hbeats
  refine ⟨exec_push_of_not_ready hf hbeats, fun hlife hn hshort => ?argument,
    fun hlife henough => ⟨_, exec_push_accepted hf hlife hbeats ?frames⟩⟩
  case argument =>
    exact exec_push_refused hf hbeats (pushStatus_invalidArgument hlife hn hshort) (by decide)
  case frames =>
    rcases henough with rfl | henough
    · exact Nat.zero_le _
    · exact henough

/-- Settles O31: a PUSH of no frames is accepted whatever `avail` is, and runs no frame. -/
theorem pushOfNoFrames : Obligations.PushOfNoFrames := by
  unfold Obligations.PushOfNoFrames
  intro f hf avail s hbeats
  exact ⟨fun hlife => exec_push_accepted hf hlife hbeats (Nat.zero_le _),
    exec_push_of_not_ready hf hbeats⟩

/-! ### Beats -/

/-- Bits 63:32 of a beat are ignored (rule R93). -/
@[simp] theorem beatLow_append (hi lo : BitVec 32) : beatLow (hi ++ lo) = lo := by
  rw [beatLow, BitVec.extractLsb'_append_eq_of_add_le (by decide), BitVec.extractLsb'_eq_self]

/-- The divisor's significand is 2147483647 followed by 22 zero bits, and its lowest bit counts 2^1052
units. -/
theorem i32DivF64_units : F64.units (F64.mag i32DivF64) = i32Div * 2 ^ 1074 := by
  have hmag : F64.mag i32DivF64 = 1052 * 2 ^ 52 + i32Div * 2 ^ 22 := by decide
  rw [hmag, F64.units_shift (by decide) (Or.inr (by decide)), mul_assoc, ← pow_add]

theorem i32DivF64_value : F64.value i32DivF64 = i32Div * ((2 ^ 1074 : Nat) : Int) := by
  rw [F64.value, if_neg (by decide), i32DivF64_units, Nat.cast_mul]

/-- Settles O39. -/
theorem beatsAreNormalised : Obligations.BeatsAreNormalised := by
  unfold Obligations.BeatsAreNormalised
  refine ⟨fun _ => rfl, fun hi lo => ?_, fun hi lo => ?_, by decide, i32DivF64_value⟩
  · rw [normF32, beatLow_append]
  · rw [normI32, beatLow_append]; rfl

/-- Settles O40: the ignored bits go, and each row of rule R138's table is one division. -/
theorem integerNormalisationCorners : Obligations.IntegerNormalisationCorners := by
  unfold Obligations.IntegerNormalisationCorners
  intro x hx hi
  rw [normI32, beatLow_append]
  revert x
  simp only [List.forall_mem_cons, List.not_mem_nil, false_imp_iff, implies_true, and_true]
  decide +kernel

/-! ### One frame, channel by channel -/

section OneFrame
variable {norm : Beat → F64} {s : State} (hframe : s.regs.nch.toNat ≤ s.samp.length)
include hframe

/-- One frame is one step of each channel below `NCH` with its own element, and nothing for the others
(rule R123). -/
theorem State.pushedRegs_one_chan (c : Nat) :
    (s.pushedRegs norm 1).chan c = if c < s.regs.nch.toNat
      then chanStep (coefOf s.regs.rate) s.regs.pos.toNat (s.regs.chan c) (norm (s.samp.getD c 0#64))
      else s.regs.chan c := by
  split
  case isTrue hc =>
    refine (Regs.pushFrames_chan_beats norm hc (by omega)).trans ?_
    simp [chanRun]
  case isFalse hc => exact Regs.pushFrames_chan_beyond _ _ _ _ (not_lt.1 hc)

/-- Step 1 writes the slot at the cursor of each channel (rule R124). -/
theorem State.pushedRegs_one_histAt (c : Nat) {k : Nat} (hk : k < 12) :
    (s.pushedRegs norm 1).histAt c k
      = if c < s.regs.nch.toNat ∧ k = s.regs.pos.toNat % 12
        then norm (s.samp.getD c 0#64) else s.regs.histAt c k := by
  have hrow := congrFun (congrArg Prod.fst (State.pushedRegs_one_chan (norm := norm) hframe c)) ⟨k, hk⟩
  refine Eq.trans hrow ?_
  by_cases hc : c < s.regs.nch.toNat
  · have hslot : (⟨k, hk⟩ : Fin 12) = slotOf s.regs.pos.toNat ↔ k = s.regs.pos.toNat % 12 := Fin.ext_iff
    rw [if_pos hc, chanStep_fst_apply]
    simp only [hslot, hc, true_and]
    rfl
  · rw [if_neg hc, if_neg fun h => hc h.1]
    rfl

/-- Steps 2 and 3 compare the four results of the ring after step 1 with the maximum (rules R125, R126). -/
theorem State.pushedRegs_one_maxAt {c : Nat} (hc : c < s.regs.nch.toNat) :
    (s.pushedRegs norm 1).maxAt c = ((List.range 4).map fun p => dot12 (coefOf s.regs.rate p) fun i =>
        (s.pushedRegs norm 1).histAt c ((s.regs.pos.toNat + 12 - i) % 12)).foldl
      runningMax (s.regs.maxAt c) := by
  have hchan := State.pushedRegs_one_chan (norm := norm) hframe c
  rw [if_pos hc] at hchan
  have hrow := congrArg Prod.fst hchan
  have hwindow : (fun i => (s.pushedRegs norm 1).histAt c ((s.regs.pos.toNat + 12 - i) % 12))
      = rowWindow ((s.pushedRegs norm 1).chan c).1 s.regs.pos.toNat := rfl
  rw [hwindow, hrow]
  exact congrArg Prod.snd hchan

end OneFrame

/-- Settles O34. -/
theorem frameWritesOneSlotPerChannel : Obligations.FrameWritesOneSlotPerChannel := by
  unfold Obligations.FrameWritesOneSlotPerChannel
  intro f hf avail s hlife hpos hbeats hframe
  refine ⟨_, exec_push_accepted hf hlife hbeats (by omega), fun c k hk => ?_⟩
  rw [State.pushedRegs_one_histAt (hframe.trans hbeats) c hk, Nat.mod_eq_of_lt hpos]

/-- Settles O36: the accumulators are those of the four dot products, and the rest is what a comparison
with each result in turn does to a maximum. -/
theorem oneFrameRaisesTheMaxima : Obligations.OneFrameRaisesTheMaxima := by
  unfold Obligations.OneFrameRaisesTheMaxima
  intro f hf avail s hlife hbeats hframe
  refine ⟨_, exec_push_accepted hf hlife hbeats (by omega),
    fun c hc => Regs.pushFrames_maxAt_beyond _ _ _ _ hc, fun c hc => ?_⟩
  have hmax := State.pushedRegs_one_maxAt (norm := f.2) (hframe.trans hbeats) hc
  choose acc hzero hsucc hlast using fun p => dot12_steps (coefOf s.regs.rate p) fun i =>
    (s.pushedRegs f.2 1).histAt c ((s.regs.pos.toNat + 12 - i) % 12)
  simp only [← hlast] at hmax
  obtain ⟨hfrom, hold, hresults⟩ :=
    foldl_runningMax_spec ((List.range 4).map fun p => acc p 12) (s.regs.maxAt c)
  rw [← hmax] at hfrom hold hresults
  refine ⟨acc, fun p _ => hzero p, fun p i _ _ => hsucc p i, hmax, ?attained, hold, ?bound⟩
  case attained =>
    refine hfrom.imp_right ?_
    rintro ⟨y, hy, hnan, habs⟩
    obtain ⟨p, hp, rfl⟩ := List.mem_map.1 hy
    exact ⟨p, List.mem_range.1 hp, hnan, habs⟩
  case bound =>
    exact fun p hp => hresults _ (List.mem_map_of_mem (List.mem_range.2 hp))

/-! ### Results that raise no maximum -/

theorem runningMax_of_isNaN (m : F64) {y : F64} (h : F64.isNaN y = true) : runningMax m y = m := by
  rw [runningMax, f64Gt_nan_left _ (by rwa [f64Abs_isNaN])]
  rfl

theorem foldl_runningMax_of_isNaN {ys : List F64} (m : F64) (h : ∀ y ∈ ys, F64.isNaN y = true) :
    ys.foldl runningMax m = m := by
  rw [List.foldl_ext runningMax (fun m _ => m) m fun m y hy => runningMax_of_isNaN m (h y hy),
    List.foldl_fixed]

/-- Settles O46: some tap meets the NaN, so every result is a NaN. -/
theorem naNHoldsTheMaximum : Obligations.NaNHoldsTheMaximum := by
  unfold Obligations.NaNHoldsTheMaximum
  intro f hf avail s hlife hbeats hframe
  refine ⟨_, exec_push_accepted hf hlife hbeats (by omega), fun c hc hnan => ?_⟩
  obtain ⟨k, hk, hnan⟩ := hnan
  rw [State.pushedRegs_one_maxAt (hframe.trans hbeats) hc]
  refine foldl_runningMax_of_isNaN _ fun y hy => ?_
  obtain ⟨p, -, rfl⟩ := List.mem_map.1 hy
  refine dot12_nan _ _ ⟨(s.regs.pos.toNat + 12 - k) % 12, Nat.mod_lt _ (by decide), ?_⟩
  have htap : (s.regs.pos.toNat + 12 - (s.regs.pos.toNat + 12 - k) % 12) % 12 = k := by omega
  rwa [htap]

theorem runningMax_of_le_key {m y : F64} (h : F64.mag y ≤ F64.key m) : runningMax m y = m := by
  rw [runningMax, f64Gt_eq_false_of_key (by rwa [F64.key_abs])]
  rfl

/-- Nothing exceeds +infinity (rule R134). -/
theorem runningMax_infinity (y : F64) :
    runningMax 0x7FF0000000000000#64 y = 0x7FF0000000000000#64 := by
  rcases hy : F64.isNaN y with _ | _
  · have hmag : F64.mag y ≤ F64.infMag := by
      simpa only [F64.isNaN, decide_eq_false_iff_not, not_lt] using hy
    exact runningMax_of_le_key (by rwa [F64.key_eq_infMag.2 rfl, Nat.cast_le])
  · exact runningMax_of_isNaN _ hy

/-- A property of a maximum that each comparison keeps is kept by a PUSH. -/
theorem Regs.pushFrames_maxAt_keeps {P : F64 → Prop} (hkeep : ∀ m y, P m → P (runningMax m y))
    (tbl : CoefTable) (n : Nat) (es : List F64) {r : Regs} {c : Nat} (h : P (r.maxAt c)) :
    P ((r.pushFrames tbl n es).maxAt c) := by
  induction n generalizing es r with
  | zero => exact h
  | succ n ih =>
    refine ih _ ?_
    have hchan := congrArg Prod.snd (Regs.pushFrame_chan tbl (es.take r.nch.toNat) r c)
    rw [show (r.pushFrame tbl (es.take r.nch.toNat)).maxAt c = _ from hchan]
    split
    · rw [chanStep_snd]
      exact List.foldlRecOn _ runningMax h fun m hm y _ => hkeep m y hm
    · exact h

/-- Settles O47, command by command: a PUSH compares, and the others write no maximum. -/
theorem infinityStays : Obligations.InfinityStays := by
  unfold Obligations.InfinityStays
  intro i s t c hlife hexec hmax
  induction i using instr_form_cases with
  | create channels rate =>
    rwa [exec_regs_of_ready hlife (by simp [pushForms]) (by simp) hexec]
  | push f hf n avail =>
    rcases exec_regs_cases hexec with h | h
    · rwa [h]
    rcases outcome_push_regs s.samp s.regs hf n avail with h' | ⟨-, h'⟩
    · rwa [h, h']
    · rw [h, h']
      refine Regs.pushFrames_maxAt_keeps (P := (· = _)) (fun m y hm => ?_) _ _ _ hmax
      rw [hm, runningMax_infinity]
  | readmax channel => rwa [exec_readmax_regs hexec]
  | destroy =>
    rw [exec_destroy_frame hexec]
    exact hmax

/-! ### The order of the results -/

theorem runningMax_of_key_lt {m y : F64} (hy : F64.isNaN y = false) (hm : F64.isNaN m = false)
    (h : F64.key m < F64.mag y) : runningMax m y = f64Abs y :=
  if_pos ((f64Gt_iff _ _).2 ⟨by rwa [f64Abs_isNaN], hm, by rwa [F64.key_abs]⟩)

/-- Beside a result of at least its magnitude a result raises nothing, whichever comes first: of equal
magnitudes the absolute values are one pattern. -/
theorem runningMax_absorbs (m : F64) {a b : F64} (ha : F64.isNaN a = false) (hb : F64.isNaN b = false)
    (hab : F64.mag a ≤ F64.mag b) :
    runningMax (runningMax m a) b = runningMax m b ∧
    runningMax (runningMax m b) a = runningMax m b := by
  rcases hm : F64.isNaN m with _ | _
  case true =>
    have hkeep (y : F64) : runningMax m y = m := foldl_runningMax_nan [y] hm
    simp only [hkeep, and_self]
  rcases lt_or_ge (F64.key m) (F64.mag b) with hmb | hbm
  · rw [runningMax_of_key_lt hb hm hmb]
    refine ⟨?_, runningMax_of_le_key (by rwa [F64.key_abs, Nat.cast_le])⟩
    rcases lt_or_ge (F64.key m) (F64.mag a) with hma | ham
    · rw [runningMax_of_key_lt ha hm hma]
      rcases hab.lt_or_eq with hlt | heq
      · exact runningMax_of_key_lt hb (by rwa [f64Abs_isNaN]) (by rwa [F64.key_abs, Nat.cast_lt])
      · rw [runningMax_of_le_key (by rw [F64.key_abs, heq]), f64Abs_congr heq]
    · rw [runningMax_of_le_key ham, runningMax_of_key_lt hb hm hmb]
  · have ham : (F64.mag a : Int) ≤ F64.key m := (Nat.cast_le.2 hab).trans hbm
    simp only [runningMax_of_le_key hbm, runningMax_of_le_key ham, and_self]

/-- The order of two results does not matter to a maximum; a NaN result raises nothing. -/
theorem runningMax_right_comm (m a b : F64) :
    runningMax (runningMax m a) b = runningMax (runningMax m b) a := by
  rcases ha : F64.isNaN a with _ | _
  · rcases hb : F64.isNaN b with _ | _
    · rcases le_total (F64.mag a) (F64.mag b) with hab | hba
      · obtain ⟨h1, h2⟩ := runningMax_absorbs m ha hb hab
        rw [h1, h2]
      · obtain ⟨h1, h2⟩ := runningMax_absorbs m hb ha hba
        rw [h1, h2]
    · rw [runningMax_of_isNaN _ hb, runningMax_of_isNaN _ hb]
  · rw [runningMax_of_isNaN _ ha, runningMax_of_isNaN _ ha]

/-- Settles O48: the reversed taps of a phase are the taps of its mirror phase, so the same four results
are compared in the opposite order. -/
theorem reversedPairingGivesTheSameMaxima : Obligations.ReversedPairingGivesTheSameMaxima := by
  unfold Obligations.ReversedPairingGivesTheSameMaxima
  intro rate w m y y' larger
  have hmirror : ∀ p, p < 4 → y' p = y (3 - p) := fun p hp => by
    refine dot12_congr (fun i hi => ?_) fun _ _ => rfl
    have hrev := coefOf_reversed rate hp (i := 11 - i) (by omega)
    rw [← hrev, show 11 - (11 - i) = i by omega]
  refine ⟨hmirror, ?_⟩
  rw [hmirror 0 (by decide), hmirror 1 (by decide), hmirror 2 (by decide), hmirror 3 (by decide)]
  have hcomm : RightCommutative runningMax := ⟨runningMax_right_comm⟩
  exact List.Perm.foldl_eq (f := runningMax) (List.reverse_perm [y 0, y 1, y 2, y 3]) m

end Sys2Proof.Machine
end

section
/-! PROOFS. READMAX (42_readmax.md rule R151): the check that fails decides the status, and an accepted
READMAX answers the cell of `MAX` and changes no register. -/

namespace Sys2Proof.Machine

theorem readmaxStatus_invalidArgument {channel : Int} {r : Regs} (hlife : r.life = .ready)
    (hbad : channel < 0 ∨ (r.nch.toNat : Int) ≤ channel) :
    readmaxStatus channel r = .invalidArgument := by
  rw [readmaxStatus, if_neg (not_not.2 hlife), if_pos hbad]

section Answers
variable {channel : Int} {s : State}

/-- A refused READMAX answers the error of its first failing check. -/
theorem exec_readmax_error {e : Status} (he : readmaxStatus channel s.regs = e) (hne : e ≠ .ok) :
    exec (.readmax channel) s = .next (s.answered 0 e 0#64 s.regs) := by
  subst he
  rw [exec_of_beats (Nat.zero_le _), outcome_readmax_error _ _ hne]
  rfl

theorem exec_readmax_ok (hok : readmaxStatus channel s.regs = .ok) :
    exec (.readmax channel) s = .next (s.answered 0 .ok (s.regs.maxAt channel.toNat) s.regs) := by
  rw [exec_of_beats (Nat.zero_le _), outcome_readmax_ok _ _ hok]
  rfl

end Answers

/-- Settles O56: each clause is one result of the checks of rule R151. -/
theorem readmaxReturnsTheMaximum : Obligations.ReadmaxReturnsTheMaximum := by
  unfold Obligations.ReadmaxReturnsTheMaximum
  intro s channel
  refine ⟨fun hlife => ?state, fun hlife hbad => ?argument, fun hlife h0 hlt => ?accepted⟩
  case state => exact exec_readmax_error (readmaxStatus_of_not_ready hlife channel) (by decide)
  case argument => exact exec_readmax_error (readmaxStatus_invalidArgument hlife hbad) (by decide)
  case accepted => exact exec_readmax_ok (readmaxStatus_ok.2 ⟨hlife, h0, hlt⟩)

end Sys2Proof.Machine
end

section
/-! PROOFS. DESTROY (43_destroy.md rule R156): its outcome in each lifecycle state, which is what it answers,
since it takes no beats and so never waits. -/

namespace Sys2Proof.Machine

section DestroyOutcomes
variable (samp : List Beat) {r : Regs}

theorem outcome_destroy_of_destroyed (h : r.life = .destroyed) :
    outcome samp r .destroy = (.invalidState, 0#64, r) := by
  simp only [outcome, h]

theorem outcome_destroy_of_uninitialized (h : r.life = .uninitialized) :
    outcome samp r .destroy = (.ok, 0#64, r) := by
  simp only [outcome, h]

theorem outcome_destroy_of_ready (h : r.life = .ready) :
    outcome samp r .destroy = (.ok, 0#64, { r with life := .destroyed }) := by
  simp only [outcome, h]

end DestroyOutcomes

/-- DESTROY answers its outcome in every state. -/
theorem exec_destroy {s : State} {st : Status} {d : F64} {r : Regs}
    (h : outcome s.samp s.regs .destroy = (st, d, r)) :
    exec .destroy s = .next (s.answered 0 st d r) := by
  rw [exec_of_beats (Nat.zero_le _), h]
  rfl

/-- Settles O57: each clause is the outcome of rule R156 in one lifecycle state. -/
theorem destroyEndsTheSession : Obligations.DestroyEndsTheSession := by
  unfold Obligations.DestroyEndsTheSession
  intro s
  refine ⟨fun hlife => ?destroyed, fun hlife => ?uninitialized, fun hlife => ?ready⟩
  case destroyed => exact exec_destroy (outcome_destroy_of_destroyed s.samp hlife)
  case uninitialized => exact exec_destroy (outcome_destroy_of_uninitialized s.samp hlife)
  case ready => exact ⟨_, exec_destroy (outcome_destroy_of_ready s.samp hlife), rfl⟩

end Sys2Proof.Machine
end

section
/-! PROOFS. The cross-command properties of 50_properties.md: no command lowers a maximum (rule R162), a
failed command changes nothing (rule R171), a command reads its own beats alone (rule R160), the frames
of a session may be cut and represented in any way (rules R161, R167), channels are independent (rule
R168), and what zeros and an impulse do to the maxima (rules R163, R165). -/

namespace Sys2Proof.Machine

/-! ### Maxima -/

/-- A property of a maximum that each comparison keeps is kept by every command in Ready: a PUSH compares,
and the others write no maximum. -/
theorem exec_maxAt_keeps {P : F64 → Prop} (hkeep : ∀ m y, P m → P (runningMax m y)) {i : Instr}
    {s t : State} {c : Nat} (hlife : s.regs.life = .ready) (hexec : exec i s = .next t)
    (h : P (s.regs.maxAt c)) : P (t.regs.maxAt c) := by
  induction i using instr_form_cases with
  | create channels rate =>
    rwa [exec_regs_of_ready hlife (by simp [pushForms]) (by simp) hexec]
  | push f hf n avail =>
    rcases exec_regs_cases hexec with ht | ht
    · rwa [ht]
    rcases outcome_push_regs s.samp s.regs hf n avail with ho | ⟨-, ho⟩
    · rwa [ht, ho]
    · rw [ht, ho]
      exact Regs.pushFrames_maxAt_keeps hkeep _ _ _ h
  | readmax channel => rwa [exec_readmax_regs hexec]
  | destroy =>
    rw [exec_destroy_frame hexec]
    exact h

/-- `m` is a value a maximum may hold, and not below `m₀`. -/
def F64.MagnitudeFrom (m₀ m : F64) : Prop := F64.isMagnitude m ∧ F64.key m₀ ≤ F64.key m

/-- A comparison replaces a maximum by a higher magnitude or not at all. -/
theorem F64.MagnitudeFrom.raise {m₀ m : F64} (h : F64.MagnitudeFrom m₀ m) (y : F64) :
    F64.MagnitudeFrom m₀ (runningMax m y) := by
  obtain ⟨hm, hle⟩ := h
  rcases runningMax_cases m y with ⟨he, -⟩ | ⟨he, hgt⟩
  · rw [he]; exact ⟨hm, hle⟩
  · obtain ⟨hy, -, hlt⟩ := (f64Gt_iff _ _).1 hgt
    rw [he]
    exact ⟨f64Abs_isMagnitude (by rwa [f64Abs_isNaN] at hy), hle.trans hlt.le⟩

/-- Settles O41: in Ready a maximum is a magnitude, and every command leaves a magnitude not below it. -/
theorem maximaNeverDecrease : Obligations.MaximaNeverDecrease := by
  unfold Obligations.MaximaNeverDecrease
  intro i s t hinv hlife hexec c hc
  have hbefore : F64.isMagnitude (s.regs.maxAt c) := (hinv.ready hlife).max_ok c hc
  have hafter : F64.MagnitudeFrom (s.regs.maxAt c) (t.regs.maxAt c) :=
    exec_maxAt_keeps (fun _ y h => h.raise y) hlife hexec ⟨hbefore, le_rfl⟩
  obtain ⟨hmag, hle⟩ := hafter
  exact ⟨F64.isNaN_of_isMagnitude hbefore, F64.isNaN_of_isMagnitude hmag, f64Gt_eq_false_of_key hle⟩

/-! ### Failures -/

/-- A command that fails leaves the registers as they were. -/
theorem outcome_regs_of_error {samp : List Beat} {r : Regs} {i : Instr}
    (h : (outcome samp r i).1 ≠ .ok) : (outcome samp r i).2.2 = r := by
  induction i using instr_form_cases with
  | create channels rate =>
    rcases outcome_create_regs samp r channels rate with hr | ⟨hok, -⟩
    · exact hr
    · exact absurd (by rw [outcome_create_ok samp r hok]) h
  | push f hf n avail =>
    rcases outcome_push_regs samp r hf n avail with hr | ⟨hok, -⟩
    · exact hr
    · exact absurd (by rw [(outcome_push f hf n avail).2, pushOutcome_ok _ _ _ _ _ hok]) h
  | readmax channel => exact outcome_readmax_regs samp r channel
  | destroy =>
    rcases outcome_destroy_regs samp r with hr | ⟨hready, -⟩
    · exact hr
    · exact absurd (by rw [outcome_destroy_of_ready samp hready]) h

theorem outcome_data_of_error {samp : List Beat} {r : Regs} {i : Instr}
    (h : (outcome samp r i).1 ≠ .ok) : (outcome samp r i).2.1 = 0#64 :=
  (outcome_data samp r i).resolve_right fun ⟨_, _, hok⟩ => h hok

/-- Settles O21. -/
theorem failureLeavesTheStateAlone : Obligations.FailureLeavesTheStateAlone := by
  unfold Obligations.FailureLeavesTheStateAlone
  refine ⟨fun i s hbeats => ⟨_, _, _, exec_of_beats hbeats, fun h =>
    ⟨outcome_regs_of_error h, outcome_data_of_error h⟩⟩, ?illegal⟩
  case illegal =>
    intro s t cw rest e hrst hrsp hcmd hcw hstep
    rw [step_of_decode_error hrst hrsp hcmd hcw] at hstep
    cases hstep
    rfl

/-! ### What a command reads -/

/-- The elements of a PUSH lie among the beats it takes. -/
theorem elements_take (norm : Beat → F64) {count avail : Nat} (samp : List Beat) (h : count ≤ avail) :
    elements norm count (samp.take avail) = elements norm count samp := by
  rw [elements, elements, List.take_take, min_eq_left h]

/-- The outcome of a command is a function of the registers and of the beats it takes (rule R160). -/
theorem outcome_take (samp : List Beat) (r : Regs) (i : Instr) :
    outcome (samp.take (beatsOf i)) r i = outcome samp r i := by
  induction i using instr_form_cases with
  | create channels rate => simp only [outcome]
  | push f hf n avail =>
    obtain ⟨hbeats, hpush⟩ := outcome_push f hf n avail
    rw [hbeats, hpush, hpush]
    by_cases hok : pushStatus n avail r = .ok
    · rw [pushOutcome_ok _ _ _ _ _ hok, pushOutcome_ok _ _ _ _ _ hok,
        elements_take _ _ (pushStatus_ok.1 hok).2]
    · rw [pushOutcome_error _ _ _ _ _ hok, pushOutcome_error _ _ _ _ _ hok]
  | readmax channel => simp only [outcome]
  | destroy => simp only [outcome]

/-- Settles O23. -/
theorem commandsIgnoreWhatFollows : Obligations.CommandsIgnoreWhatFollows := by
  unfold Obligations.CommandsIgnoreWhatFollows
  intro i s s' hregs hbeats hbeats' htake
  have hsame : outcome s'.samp s'.regs i = outcome s.samp s.regs i := by
    rw [← outcome_take s'.samp, ← htake, outcome_take, hregs]
  refine ⟨_, _, _, exec_of_beats hbeats, ?_⟩
  rw [exec_of_beats hbeats', hsame]
  rfl

/-! ### A PUSH of given beats -/

/-- The elements are the first beats, read. -/
theorem elements_append (norm : Beat → F64) (es rest : List Beat) :
    elements norm es.length (es ++ rest) = es.map norm := by
  rw [elements, List.take_left]

/-- A PUSH whose beats `es` are first on SAMP and are exactly its elements. -/
theorem exec_push_append {f : (Nat → Nat → Instr) × (Beat → F64)} (hf : f ∈ pushForms) {n avail : Nat}
    {s : State} {es rest : List Beat} (hlife : s.regs.life = .ready) (hsamp : s.samp = es ++ rest)
    (hlen : es.length = s.regs.nch.toNat * n) (havail : avail = es.length) :
    exec (f.1 n avail) s = .next (s.answered avail .ok 0#64
      (s.regs.pushFrames (coefOf s.regs.rate) n (es.map f.2))) := by
  have hbeats : avail ≤ s.samp.length := by simp [hsamp, havail]
  rw [exec_push_accepted hf hlife hbeats (by omega), State.pushedRegs, ← hlen, hsamp, elements_append]

/-! ### Chunks and representations -/

/-- The frames of two element lists one after the other are those of the first and then those of the second. -/
theorem Regs.pushFrames_append (tbl : CoefTable) (n m : Nat) {es : List F64} (es' : List F64) {r : Regs}
    (hlen : es.length = r.nch.toNat * n) :
    r.pushFrames tbl (n + m) (es ++ es') = (r.pushFrames tbl n es).pushFrames tbl m es' := by
  rw [Regs.pushFrames_add, ← hlen, List.drop_left, ← Regs.pushFrames_take tbl n _ _ hlen.ge,
    List.take_left]

/-- Settles O37: the frame loop of the whole PUSH is that of the first chunk and then that of the second,
and the elements are the same values in both. -/
theorem chunkingInvariance : Obligations.ChunkingInvariance := by
  unfold Obligations.ChunkingInvariance
  intro f hf g hg h hh s n m e1 e1' e2 e2' rest hlife hlen1 hlen2 heq1 heq2
  have hlen1' : e1'.length = e1.length := by simpa using (congrArg List.length heq1).symm
  have hlen2' : e2'.length = e2.length := by simpa using (congrArg List.length heq2).symm
  refine ⟨_, _, _, exec_push_append hf hlife rfl hlen1 rfl,
    exec_push_append hg (es := e2) (rest := rest) ?life ?samp ?len rfl,
    exec_push_append hh (es := e1' ++ e2') (rest := rest) hlife ?whole ?wholeLen ?avail, ?regs, ?left⟩
  case life => exact (Regs.pushFrames_life _ _ _ _).trans hlife
  case samp => exact List.drop_left
  case len => rw [hlen2]; simp [State.answered]
  case whole => exact (List.append_assoc _ _ _).symm
  case wholeLen => rw [List.length_append, hlen1', hlen2', hlen1, hlen2, Nat.mul_add]
  case avail => rw [List.length_append, hlen1', hlen2']
  case regs =>
    have hsplit := Regs.pushFrames_append (coefOf s.regs.rate) n m (es := e1'.map h.2) (e2'.map h.2)
      (by rw [List.length_map, hlen1', hlen1])
    rw [List.map_append]
    simp only [State.answered, Regs.pushFrames_rate, hsplit, heq1, heq2]
  case left =>
    simp only [State.answered]
    rw [← List.drop_drop, List.drop_left, List.drop_left, ← hlen1', ← hlen2', List.drop_left,
      List.drop_left]

/-- Beats that are read as the same values are the same elements. -/
theorem elements_congr {norm norm' : Beat → F64} {count : Nat} {samp samp' : List Beat}
    (hs : count ≤ samp.length) (hs' : count ≤ samp'.length)
    (h : ∀ e, e < count → norm (samp.getD e 0#64) = norm' (samp'.getD e 0#64)) :
    elements norm count samp = elements norm' count samp' := by
  have hlen : (elements norm count samp).length = count := by simp [elements, hs]
  have hlen' : (elements norm' count samp').length = count := by simp [elements, hs']
  refine List.ext_getElem (hlen.trans hlen'.symm) fun e he he' => ?_
  rw [← List.getD_eq_getElem _ 0#64, ← List.getD_eq_getElem _ 0#64,
    elements_getD norm (hlen ▸ he) hs, elements_getD norm' (hlen ▸ he) hs', h e (hlen ▸ he)]

theorem beatLow_eq_ofNat (b : Beat) : beatLow b = BitVec.ofNat 32 b.toNat := rfl

/-- 1.0, −1.0 and +0.0 are the same numbers in binary32 and in binary64. -/
theorem f32ToF64_corners : f32ToF64 0x3F800000#32 = 0x3FF0000000000000#64 ∧
    f32ToF64 0xBF800000#32 = 0xBFF0000000000000#64 ∧ f32ToF64 0#32 = 0#64 := by
  decide +kernel

/-- Settles O38: a PUSH reads its beats through `elements` alone. -/
theorem equalElementsGiveEqualStates : Obligations.EqualElementsGiveEqualStates := by
  unfold Obligations.EqualElementsGiveEqualStates
  refine ⟨?states, fun b => congrArg f32ToF64 (beatLow_eq_ofNat b), fun hi => ?corners⟩
  case states =>
    intro f hf g hg n a a' s s' hregs hlife hbeats hbeats' hframes hframes' hvals
    have hsame : s.pushedRegs f.2 n = s'.pushedRegs g.2 n := by
      rw [State.pushedRegs, State.pushedRegs, ← hregs,
        elements_congr (hframes.trans hbeats) (hframes'.trans hbeats') hvals]
    refine ⟨_, exec_push_accepted hf hlife hbeats hframes, ?_⟩
    rw [hsame]
    exact exec_push_accepted hg (hregs ▸ hlife) hbeats' (hregs ▸ hframes')
  case corners =>
    obtain ⟨hone, hneg, hzero⟩ := f32ToF64_corners
    simp only [normF32, beatLow_append]
    exact ⟨integerNormalisationCorners (_, _) (by simp) hi, integerNormalisationCorners (_, _) (by simp) hi,
      integerNormalisationCorners (_, _) (by simp) hi, hone, hneg, hzero⟩

/-! ### Channels -/

/-- Settles O42: each channel is a run of its own over its own samples. -/
theorem channelsAreIndependent : Obligations.ChannelsAreIndependent := by
  unfold Obligations.ChannelsAreIndependent
  intro f hf g hg n a a' c c' s s' hlife hlife' hrate hpos hbeats hbeats' hframes hframes' hc hc' hhist
    hmax hvals
  have hpos' : (s.pushedRegs f.2 n).pos = (s'.pushedRegs g.2 n).pos := by
    apply BitVec.eq_of_toNat_eq
    rw [State.pushedRegs_pos, State.pushedRegs_pos, hpos]
  have hsamples : (List.range n).map (fun j => f.2 (s.samp.getD (s.regs.nch.toNat * j + c) 0#64))
      = (List.range n).map fun j => g.2 (s'.samp.getD (s'.regs.nch.toNat * j + c') 0#64) :=
    List.map_congr_left fun j hj => hvals j (List.mem_range.1 hj)
  have hchan : (s.pushedRegs f.2 n).chan c = (s'.pushedRegs g.2 n).chan c' := by
    rw [State.pushedRegs, State.pushedRegs,
      Regs.pushFrames_chan_beats f.2 hc (hframes.trans hbeats),
      Regs.pushFrames_chan_beats g.2 hc' (hframes'.trans hbeats'), hsamples, hrate, hpos,
      Regs.chan_ext.2 ⟨hhist, hmax⟩]
  exact ⟨_, _, exec_push_accepted hf hlife hbeats hframes, exec_push_accepted hg hlife' hbeats' hframes',
    hpos', Regs.chan_ext.1 hchan⟩

/-! ### Zeros -/

/-- A ring that holds only zeros after step 1 leaves the maximum as it was (rule R135). -/
theorem chanStep_snd_of_zero_ring (rate : Rate) {p : Nat} {x : Row × F64} {v : F64}
    (hring : ∀ k, F64.isZero ((chanStep (coefOf rate) p x v).1 k) = true)
    (hmax : F64.sign x.2 = false) : (chanStep (coefOf rate) p x v).2 = x.2 := by
  refine foldl_runningMax_zeros _ hmax fun y hy => ?_
  obtain ⟨q, -, rfl⟩ := List.mem_map.1 hy
  exact dot12_zero _ _ (isFinite_coefOf rate q) fun _ _ => hring _

/-- A channel to which only zeros have come: a ring of zeros, a maximum of +0.0 (rule R135). -/
def SilentChan (x : Row × F64) : Prop := (∀ k, F64.isZero (x.1 k) = true) ∧ x.2 = 0#64

theorem Regs.silent_iff {r : Regs} :
    r.silent ↔ r.life = .ready ∧ ∀ c, c < r.nch.toNat → SilentChan (r.chan c) := by
  refine and_congr_right fun _ => forall₂_congr fun c _ => and_congr_left fun _ => ?_
  exact ⟨fun h k => h k k.isLt, fun h k hk => h ⟨k, hk⟩⟩

theorem SilentChan.step {x : Row × F64} (h : SilentChan x) (rate : Rate) (p : Nat) {v : F64}
    (hv : F64.isZero v = true) : SilentChan (chanStep (coefOf rate) p x v) := by
  have hring : ∀ k, F64.isZero ((chanStep (coefOf rate) p x v).1 k) = true := fun k => by
    rw [chanStep_fst_apply]
    split
    · exact hv
    · exact h.1 k
  exact ⟨hring, (chanStep_snd_of_zero_ring rate hring (by rw [h.2]; rfl)).trans h.2⟩

theorem SilentChan.run {x : Row × F64} (h : SilentChan x) (rate : Rate) (p : Nat) {vs : List F64}
    (hvs : ∀ v ∈ vs, F64.isZero v = true) : SilentChan (chanRun (coefOf rate) p vs x) := by
  induction vs generalizing p x with
  | nil => exact h
  | cons v vs ih =>
    obtain ⟨hv, hvs⟩ := List.forall_mem_cons.1 hvs
    exact ih (h.step rate p hv) _ hvs

/-- A channel that CREATE has just cleared (rule R34). -/
def clearedChan : Row × F64 := (fun _ => 0#64, 0#64)

theorem silentChan_clearedChan : SilentChan clearedChan := ⟨fun _ => rfl, rfl⟩

theorem Regs.created_chan (r : Regs) (channels : Int) (rate : Nat) {c : Nat} (hc : c < channels.toNat) :
    (r.created channels rate).chan c = clearedChan := by
  refine Prod.ext (funext fun k => ?_) ?_
  · exact (Regs.histAt_created r channels rate c k.isLt).trans (if_pos hc)
  · exact (Regs.maxAt_created r channels rate c).trans (if_pos hc)

/-- A PUSH of zeros keeps a block silent. -/
theorem State.pushedRegs_silent {norm : Beat → F64} {n : Nat} {s : State} (hs : s.regs.silent)
    (hframes : s.regs.nch.toNat * n ≤ s.samp.length)
    (hzero : ∀ e, e < s.regs.nch.toNat * n → F64.isZero (norm (s.samp.getD e 0#64)) = true) :
    (s.pushedRegs norm n).silent := by
  obtain ⟨hlife, hchans⟩ := Regs.silent_iff.1 hs
  refine Regs.silent_iff.2 ⟨(s.pushedRegs_life norm n).trans hlife, fun c hc => ?_⟩
  rw [State.pushedRegs_nch] at hc
  rw [State.pushedRegs, Regs.pushFrames_chan_beats norm hc hframes]
  refine (hchans c hc).run _ _ fun v hv => ?_
  obtain ⟨j, hj, rfl⟩ := List.mem_map.1 hv
  exact hzero _ (by rw [List.mem_range] at hj; nlinarith)

/-- Settles O43. -/
theorem zeroInputKeepsZeroMaxima : Obligations.ZeroInputKeepsZeroMaxima := by
  unfold Obligations.ZeroInputKeepsZeroMaxima
  refine ⟨?create, ?push, ?others, ?readmax⟩
  case create =>
    intro s channels rate hlife h1 hcap hrate
    refine ⟨_, exec_create_ok (createStatus_ok.2 ⟨hlife, h1, hcap, hrate⟩),
      Regs.silent_iff.2 ⟨rfl, fun c hc => ?_⟩⟩
    rw [Regs.created_nch, nch_toNat_of_le_nchMax h1 hcap] at hc
    rw [Regs.created_chan _ _ _ hc]
    exact silentChan_clearedChan
  case push =>
    intro f hf n avail s hs hbeats hframes hzero
    exact ⟨_, exec_push_accepted hf hs.1 hbeats hframes,
      State.pushedRegs_silent hs (hframes.trans hbeats) hzero⟩
  case others =>
    intro i s t hs hpush hdestroy hexec
    rwa [exec_regs_of_ready hs.1 hpush hdestroy hexec]
  case readmax =>
    intro s channel hs h0 hlt
    obtain ⟨hlife, hchans⟩ := hs
    obtain ⟨-, hmax⟩ := hchans channel.toNat (by omega)
    rw [exec_readmax_ok (readmaxStatus_ok.2 ⟨hlife, h0, hlt⟩), hmax]

/-! ### An impulse -/

/-- Four results with the magnitudes of the coefficients of the next tap make the largest coefficient that of
one tap more. -/
theorem isLargestCoef.raise {tbl : CoefTable} {n : Nat} {m : F64} {y : Nat → F64}
    (h : isLargestCoef tbl n m) (hfin : ∀ p i, F64.isFinite (tbl p i) = true)
    (hmag : ∀ p, F64.mag (y p) = F64.mag (tbl p (n + 1))) :
    isLargestCoef tbl (n + 1) (((List.range 4).map y).foldl runningMax m) := by
  obtain ⟨⟨p, i, hp, hi, rfl⟩, hbound⟩ := h
  have hcoef : ∀ q j, F64.isNaN (f64Abs (tbl q j)) = false := fun q j => by
    rw [f64Abs_isNaN]; exact F64.isNaN_of_finite (hfin q j)
  have habs : ∀ q, f64Abs (y q) = f64Abs (tbl q (n + 1)) := fun q => f64Abs_congr (hmag q)
  obtain ⟨hfrom, hold, hnew⟩ := foldl_runningMax_spec ((List.range 4).map y) (f64Abs (tbl p i))
  have hm := F64.isNaN_of_isMagnitude (foldl_runningMax_isMagnitude ((List.range 4).map y)
    (f64Abs_isMagnitude (F64.isNaN_of_finite (hfin p i))))
  generalize ((List.range 4).map y).foldl runningMax (f64Abs (tbl p i)) = m' at *
  refine ⟨?attained, fun q j hq hj => ?bound⟩
  case attained =>
    rcases hfrom with he | ⟨z, hz, -, he⟩
    · exact ⟨p, i, hp, by omega, he⟩
    · obtain ⟨q, hq, rfl⟩ := List.mem_map.1 hz
      exact ⟨q, n + 1, List.mem_range.1 hq, le_rfl, he.trans (habs q)⟩
  case bound =>
    rcases Nat.lt_or_eq_of_le hj with hlt | rfl
    · exact f64Gt_eq_false_of_key ((F64.key_le_of_not_gt (hcoef q j) (hcoef p i)
        (hbound q j hq (by omega))).trans (F64.key_le_of_not_gt (hcoef p i) hm hold))
    · rw [← habs]
      exact hnew _ (List.mem_map_of_mem (List.mem_range.2 hq))

/-- The ring of a session of an impulse in slot 0 and `j` zeros after it: the impulse is there until it is
overwritten, and all else is zero. -/
structure ImpulseRing (j : Nat) (row : Row) : Prop where
  impulse : j < 12 → row (slotOf 0) = 0x3FF0000000000000#64
  zeros : ∀ k, j < 12 ∧ k = slotOf 0 ∨ F64.isZero (row k) = true

/-- One more zero goes to the slot behind, and after tap 11 over the impulse. -/
theorem ImpulseRing.step {tbl : CoefTable} {j : Nat} {x : Row × F64} (h : ImpulseRing j x.1) {z : F64}
    (hz : F64.isZero z = true) : ImpulseRing (j + 1) (chanStep tbl ((j + 1) % 12) x z).1 where
  impulse hj := by
    rw [chanStep_fst_apply, if_neg (by rw [slotOf_eq_iff]; omega), h.impulse (by omega)]
  zeros k := by
    rw [chanStep_fst_apply]
    split
    case isTrue => exact Or.inr hz
    case isFalse hk =>
      refine (h.zeros k).imp_left fun ⟨hj, hk0⟩ => ⟨?_, hk0⟩
      by_contra hj'
      exact hk (hk0.trans (slotOf_eq_iff.2 (by omega)))

/-- Tap `j` meets the impulse, and the other taps zeros (rule R140). -/
theorem ImpulseRing.dot12_mag {j : Nat} {row : Row} (h : ImpulseRing j row) (hj : j < 12) (rate : Rate)
    (q : Nat) :
    F64.mag (dot12 (coefOf rate q) (rowWindow row (j % 12))) = F64.mag (coefOf rate q j) := by
  have htap : ∀ i, i < 12 → (slotOf (j % 12 + 12 - i) = slotOf 0 ↔ i = j) := fun i hi => by
    rw [slotOf_eq_iff]; omega
  refine dot12_impulse _ _ (isFinite_coefOf rate q) j hj ?_ fun i hi hne => ?_
  · rw [rowWindow, (htap j hj).2 rfl]
    exact h.impulse hj
  · exact (h.zeros _).resolve_left fun ⟨_, h0⟩ => hne ((htap i hi).1 h0)

/-- A one-channel session of an impulse and `j` zeros after it (rule R165): the maximum has met the
coefficients of the taps the impulse has passed. -/
structure ImpulseBehind (rate : Rate) (j : Nat) (x : Row × F64) : Prop where
  ring : ImpulseRing j x.1
  largest : isLargestCoef (coefOf rate) (min j 11) x.2

/-- The impulse itself. -/
theorem impulseBehind_zero (rate : Rate) :
    ImpulseBehind rate 0 (chanStep (coefOf rate) 0 clearedChan 0x3FF0000000000000#64) where
  ring :=
    { impulse _ := by rw [chanStep_fst_apply, if_pos rfl]
      zeros k := by
        rw [chanStep_fst_apply]
        split
        case isTrue hk => exact Or.inl ⟨by decide, hk⟩
        case isFalse => exact Or.inr rfl }
  largest := by
    obtain ⟨⟨p, _, hp, _, hm⟩, hbound⟩ :=
      chanStep_impulse_isLargestCoef rate (x := clearedChan) (p := 0) (fun _ => rfl) rfl
    refine ⟨⟨p, 0, hp, le_rfl, hm⟩, fun q i hq hi => ?_⟩
    obtain rfl : i = 0 := by omega
    exact hbound q 0 hq le_rfl

/-- One more zero moves the impulse on to the next tap, and after tap 11 out of the ring. -/
theorem ImpulseBehind.step {rate : Rate} {j : Nat} {x : Row × F64} (h : ImpulseBehind rate j x)
    {z : F64} (hz : F64.isZero z = true) :
    ImpulseBehind rate (j + 1) (chanStep (coefOf rate) ((j + 1) % 12) x z) := by
  obtain ⟨hring, hlargest⟩ := h
  have hring' := hring.step (tbl := coefOf rate) hz
  refine ⟨hring', ?_⟩
  by_cases hj : j + 1 < 12
  case pos =>
    rw [show min j 11 = j by omega] at hlargest
    rw [show min (j + 1) 11 = j + 1 by omega, chanStep_snd]
    exact hlargest.raise (isFinite_coefOf rate) fun q => hring'.dot12_mag hj rate q
  case neg =>
    have hzeros := fun k => (hring'.zeros k).resolve_left fun hk => hj hk.1
    have hsign : F64.sign x.2 = false := by
      obtain ⟨⟨p, i, -, -, hm⟩, -⟩ := hlargest
      rw [hm, f64Abs_sign]
    rw [chanStep_snd_of_zero_ring rate hzeros hsign, show min (j + 1) 11 = min j 11 by omega]
    exact hlargest

theorem ImpulseBehind.run {rate : Rate} {j : Nat} {x : Row × F64} (h : ImpulseBehind rate j x)
    {zs : List F64} (hzs : ∀ z ∈ zs, F64.isZero z = true) :
    ImpulseBehind rate (j + zs.length) (chanRun (coefOf rate) ((j + 1) % 12) zs x) := by
  induction zs generalizing j x with
  | nil => exact h
  | cons z zs ih =>
    obtain ⟨hz, hzs⟩ := List.forall_mem_cons.1 hzs
    have hnext := ih (h.step hz) hzs
    rwa [chanRun, List.length_cons, ← Nat.add_assoc, Nat.add_right_comm,
      show ((j + 1) % 12 + 1) % 12 = (j + 1 + 1) % 12 by omega]

/-- With one channel the samples of channel 0 are the elements. -/
theorem channelSamples_one (es : List F64) : channelSamples 1 0 es.length es = es := by
  induction es with
  | nil => rfl
  | cons e es ih => rw [List.length_cons, channelSamples_succ, List.drop_one, List.tail_cons, ih]; rfl

/-- A PUSH in a one-channel session is a run of channel 0 over all its elements. -/
theorem Regs.pushFrames_chan_zero (tbl : CoefTable) (es : List F64) {r : Regs} (h : r.nch.toNat = 1) :
    (r.pushFrames tbl es.length es).chan 0 = chanRun tbl r.pos.toNat es (r.chan 0) := by
  rw [Regs.pushFrames_chan tbl _ es r (by omega) (by rw [h, Nat.one_mul]), h, channelSamples_one]

/-- A new session of one channel that begins with an impulse and zeros. -/
theorem Regs.pushFrames_impulse_isLargestCoef {r : Regs} (hnch : r.nch.toNat = 1)
    (hpos : r.pos.toNat = 0) (hchan : r.chan 0 = clearedChan) {zs : List F64}
    (hzs : ∀ z ∈ zs, F64.isZero z = true) :
    isLargestCoef (coefOf r.rate) (min zs.length 11)
      ((r.pushFrames (coefOf r.rate) (zs.length + 1) (0x3FF0000000000000#64 :: zs)).maxAt 0) := by
  have hmax : (r.pushFrames (coefOf r.rate) (zs.length + 1) (0x3FF0000000000000#64 :: zs)).maxAt 0
      = (chanRun (coefOf r.rate) r.pos.toNat (0x3FF0000000000000#64 :: zs) (r.chan 0)).2 :=
    congrArg Prod.snd (Regs.pushFrames_chan_zero _ (0x3FF0000000000000#64 :: zs) hnch)
  have hrun := ((impulseBehind_zero r.rate).run hzs).largest
  rw [Nat.zero_add] at hrun
  rw [hmax, hpos, hchan]
  exact hrun

/-- Settles O45: the impulse makes the maximum the largest coefficient of tap 0, and each zero adds a tap
until the impulse leaves the ring. -/
theorem impulseFlushedThroughTheRing : Obligations.ImpulseFlushedThroughTheRing := by
  unfold Obligations.ImpulseFlushedThroughTheRing
  intro f hf s rate k b zeros rest hlife hrate hsamp hk hb hzeros
  have hcreate : createStatus Config.nchMax 1 rate s.regs = .ok :=
    createStatus_ok.2 ⟨hlife, le_rfl, by unfold Config.nchMax; omega, hrate⟩
  have htbl : (if rate = 44100 then coef44100 else coef48000)
      = coefOf (s.regs.created 1 rate).rate := by
    rw [Regs.created_rate]; split <;> rfl
  refine ⟨_, _, exec_create_ok hcreate, exec_push_append hf (es := b :: zeros) (rest := rest) rfl
    hsamp ?len ?avail, ?largest⟩
  case len => exact (congrArg (· + 1) hk).trans (Nat.one_mul _).symm
  case avail => exact (congrArg (· + 1) hk).symm
  case largest =>
    have hlargest := Regs.pushFrames_impulse_isLargestCoef (r := s.regs.created 1 rate) rfl rfl
      (Regs.created_chan _ _ _ (by decide)) (zs := zeros.map f.2) (List.forall_mem_map.2 hzeros)
    rw [List.length_map, hk] at hlargest
    rw [htbl, List.map_cons, hb]
    exact hlargest

end Sys2Proof.Machine
end

section
/-! PROOFS. The errors of 60_exceptions.md: the status of a command is the first error that applies, in the
order of rule R185, with the causes of rules R182, R184 and R186. -/

namespace Sys2Proof.Machine

/-! ### The status is what the checks answer -/

section Checks
variable (samp : List Beat) (r : Regs)

theorem outcome_create_status (channels : Int) (rate : Nat) :
    (outcome samp r (.create channels rate)).1 = createStatus Config.nchMax channels rate r := by
  by_cases h : createStatus Config.nchMax channels rate r = .ok
  · rw [outcome_create_ok samp r h, h]
  · rw [outcome_create_error samp r h]

theorem outcome_push_status {f : (Nat → Nat → Instr) × (Beat → F64)} (hf : f ∈ pushForms)
    (n avail : Nat) : (outcome samp r (f.1 n avail)).1 = pushStatus n avail r := by
  rw [(outcome_push f hf n avail).2]
  by_cases h : pushStatus n avail r = .ok
  · rw [pushOutcome_ok _ _ _ _ _ h, h]
  · rw [pushOutcome_error _ _ _ _ _ h]

theorem outcome_readmax_status (channel : Int) :
    (outcome samp r (.readmax channel)).1 = readmaxStatus channel r := by
  by_cases h : readmaxStatus channel r = .ok
  · rw [outcome_readmax_ok samp r h, h]
  · rw [outcome_readmax_error samp r h]

end Checks

/-! ### The first error that applies -/

/-- The three PUSH commands have one row of the legality matrix (rule R184), one cause of InvalidArgument
(rule R182) and none of AllocationFailure (rule R186). -/
theorem push_causes {f : (Nat → Nat → Instr) × (Beat → F64)} (hf : f ∈ pushForms) (n avail : Nat) :
    (∀ life, allowedIn (f.1 n avail) life = (life == .ready)) ∧
    (∀ r, invalidArgumentCause r (f.1 n avail) ↔ 0 < n ∧ avail < r.nch.toNat * n) ∧
    ¬allocationCause (f.1 n avail) := by
  simp only [pushForms, List.mem_cons, List.not_mem_nil, or_false] at hf
  rcases hf with rfl | rfl | rfl <;> exact ⟨fun _ => rfl, fun _ => Iff.rfl, not_false⟩

/-- The status of a command, by the matrix of rule R184 and the lists of rules R182 and R186, taken in the
order of rule R185. -/
theorem outcome_status (samp : List Beat) (r : Regs) [DecidablePred (invalidArgumentCause r)]
    [DecidablePred allocationCause] (i : Instr) : (outcome samp r i).1 =
      if allowedIn i r.life = false then .invalidState
      else if invalidArgumentCause r i then .invalidArgument
      else if allocationCause i then .allocationFailure
      else .ok := by
  induction i using instr_form_cases with
  | create channels rate =>
    rw [outcome_create_status, createStatus]
    refine if_congr ?matrix rfl (if_congr ?argument rfl (if_congr Iff.rfl rfl rfl))
    case matrix => simp [allowedIn]
    case argument => simp only [invalidArgumentCause, not_or]
  | push f hf n avail =>
    obtain ⟨hallowed, hargument, hallocation⟩ := push_causes hf n avail
    rw [outcome_push_status _ _ hf, pushStatus, if_neg hallocation]
    refine if_congr ?matrix rfl (if_congr (hargument r).symm rfl rfl)
    case matrix => simp [hallowed]
  | readmax channel =>
    rw [outcome_readmax_status, readmaxStatus,
      if_neg (show ¬allocationCause (.readmax channel) from not_false)]
    refine if_congr ?matrix rfl (if_congr Iff.rfl rfl rfl)
    case matrix => simp [allowedIn]
  | destroy =>
    rw [if_neg (show ¬invalidArgumentCause r .destroy from not_false),
      if_neg (show ¬allocationCause .destroy from not_false)]
    cases hlife : r.life with
    | uninitialized => rw [outcome_destroy_of_uninitialized samp hlife]; rfl
    | ready => rw [outcome_destroy_of_ready samp hlife]; rfl
    | destroyed => rw [outcome_destroy_of_destroyed samp hlife]; rfl

/-- Settles O20: of the four answers in `outcome_status` only the first is InvalidState. -/
theorem legalityMatrix : Obligations.LegalityMatrix := by
  unfold Obligations.LegalityMatrix
  classical
  intro i s hbeats
  refine ⟨_, _, _, exec_of_beats hbeats, ?_⟩
  rw [outcome_status]
  split_ifs with hforbidden <;> simp [hforbidden]

/-- Settles O18: each clause is one answer in `outcome_status`; a word that is no command has its own. -/
theorem errorPriority : Obligations.ErrorPriority := by
  unfold Obligations.ErrorPriority
  classical
  intro s cw rest hrst hrsp hcmd hbeats
  refine ⟨_, _, _, step_of_beats hrst hrsp hcmd hbeats, by rw [State.conclude_rsp, hrsp]; rfl,
    fun ⟨e, hcw⟩ => ?illegal, fun i hcw hforbidden => ?state, fun i hcw hallowed harg => ?argument,
    fun i hcw hallowed harg halloc => ?allocation, fun i hcw hallowed harg halloc => ?ok⟩
  case illegal => rw [wordOutcome_of_error _ _ hcw]; rfl
  case state => rw [wordOutcome_of_ok _ _ hcw, outcome_status, if_pos hforbidden]; rfl
  case argument =>
    rw [wordOutcome_of_ok _ _ hcw, outcome_status, if_neg (ne_false_of_eq_true hallowed), if_pos harg]
    rfl
  case allocation =>
    rw [wordOutcome_of_ok _ _ hcw, outcome_status, if_neg (ne_false_of_eq_true hallowed), if_neg harg,
      if_pos halloc]
    rfl
  case ok =>
    rw [wordOutcome_of_ok _ _ hcw, outcome_status, if_neg (ne_false_of_eq_true hallowed), if_neg harg,
      if_neg halloc]
    rfl

end Sys2Proof.Machine
end

section
/-! PROOFS. The lifecycle (70_reset_and_hazards.md rule R211): without a reset `LIFE` moves only along the
two edges of rule R21, by a CREATE and by a DESTROY, and neither ends in Uninitialized or begins in
Destroyed. -/

namespace Sys2Proof.Machine

/-- A command that changes `LIFE` is an accepted CREATE or a DESTROY of a session. -/
theorem exec_life_changed {i : Instr} {s t : State} (h : exec i s = .next t)
    (hne : t.regs.life ≠ s.regs.life) :
    (s.regs.life = .uninitialized ∧ t.regs.life = .ready ∧ ∃ channels rate, i = .create channels rate) ∨
    (s.regs.life = .ready ∧ t.regs.life = .destroyed ∧ i = .destroy) := by
  have hregs : t.regs = (outcome s.samp s.regs i).2.2 :=
    (exec_regs_cases h).resolve_left fun hsame => hne (congrArg Regs.life hsame)
  induction i using instr_form_cases with
  | create channels rate =>
    rcases outcome_create_regs s.samp s.regs channels rate with hout | ⟨hok, hout⟩
    · exact absurd (by rw [hregs, hout]) hne
    · exact Or.inl ⟨(createStatus_ok.1 hok).1, by rw [hregs, hout]; rfl, channels, rate, rfl⟩
  | push f hf n avail => exact absurd (exec_push_frame hf h).1 hne
  | readmax channel => exact absurd (by rw [exec_readmax_regs h]) hne
  | destroy =>
    rcases outcome_destroy_regs s.samp s.regs with hout | ⟨hready, hout⟩
    · exact absurd (by rw [hregs, hout]) hne
    · exact Or.inr ⟨hready, by rw [hregs, hout], rfl⟩

/-- A step with no reset that changes `LIFE` executes such a command: a transfer, a wait and an illegal
word leave the registers as they were. -/
theorem step_life_changed {s t : State} (h : step s = .next t) (hrst : s.rst = false)
    (hne : t.regs.life ≠ s.regs.life) : ∃ cw rest, s.cmd = cw :: rest ∧
      ((s.regs.life = .uninitialized ∧ t.regs.life = .ready ∧
          ∃ channels rate, decode cw = .ok (.create channels rate)) ∨
       (s.regs.life = .ready ∧ t.regs.life = .destroyed ∧ decode cw = .ok .destroy)) := by
  rcases step_cases h with ⟨hreset, -⟩ | ⟨-, -, -, rfl⟩ | ⟨-, rfl, -⟩ |
    ⟨-, -, cw, rest, hcmd, ⟨-, rfl⟩ | ⟨i, hcw, hexec⟩⟩
  · exact absurd (hrst.symm.trans hreset) Bool.false_ne_true
  · exact absurd rfl hne
  · exact absurd rfl hne
  · exact absurd rfl hne
  · refine ⟨cw, rest, hcmd, ?_⟩
    rcases exec_life_changed hexec hne with ⟨hold, hnew, channels, rate, rfl⟩ | ⟨hold, hnew, rfl⟩
    · exact Or.inl ⟨hold, hnew, channels, rate, hcw⟩
    · exact Or.inr ⟨hold, hnew, hcw⟩

/-- A change of `LIFE` with no reset neither begins in Destroyed nor ends in Uninitialized. -/
theorem step_life_changed_bounds {s t : State} (h : step s = .next t) (hrst : s.rst = false)
    (hne : t.regs.life ≠ s.regs.life) : s.regs.life ≠ .destroyed ∧ t.regs.life ≠ .uninitialized := by
  obtain ⟨_, _, -, ⟨hold, hnew, -⟩ | ⟨hold, hnew, -⟩⟩ := step_life_changed h hrst hne <;>
    simp [hold, hnew]

/-- Settles O19: no edge that a step takes without a reset ends in Uninitialized or begins in
Destroyed. -/
theorem lifecycleTransitions : Obligations.LifecycleTransitions := by
  unfold Obligations.LifecycleTransitions
  intro s t hstep
  refine ⟨fun hold hnew => ?into, fun hold hnew => ?out, step_life_changed hstep⟩
  case into =>
    by_contra hrst
    exact (step_life_changed_bounds hstep (eq_false_of_ne_true hrst) (hnew ▸ hold.symm)).2 hnew
  case out =>
    by_contra hrst
    exact (step_life_changed_bounds hstep (eq_false_of_ne_true hrst) (hold ▸ hnew)).1 hold

end Sys2Proof.Machine
end
